-- ==== Sys2Proof/Word.lean ====
section
/-!
DEFINITION. The plainest arithmetic of the spec's values (00_scope.md R14 to R16).

A value of this block is an unsigned integer of a stated width, and the width is a parameter of the Format
Descriptor, so a value is a `Nat` and its width stands beside it (assumption log 3). Arithmetic is exact unless a
rule truncates (R15): `trunc` below is that truncation. Lean's own `x >>> n` on `Nat` is `x / 2^n`, the rule's logical right
shift, and `x <<< n` is `x * 2^n`.
-/

namespace Sys2Proof

/-- `trunc_n(v)`, the value `v mod 2^n` (R15). -/
def trunc (n v : Nat) : Nat := v % 2 ^ n

/-- `ones(n) = 2^n - 1`, n one bits (R16). -/
def ones (n : Nat) : Nat := 2 ^ n - 1

/-- `v` is a value of width `n`. -/
def fitsIn (n v : Nat) : Bool := decide (v < 2 ^ n)

end Sys2Proof
end

