-- ==== Sys2Proof/Config.lean ====
section
/-!
DEFINITION. What an implementation fixes: the Format Descriptor `FMT` (00_scope.md R10 to R13), its two reference
values CC128 and CC64 (R11, 30_encoding.md R81, R82), the names of permission bits, object types and the flag
(R87 to R89), and the open parameter `MEM_LAYOUT` (20_memory.md R62).
-/

namespace Sys2Proof

/-- A bit field of the compressed word: bits `lo + width - 1` down to `lo`. A field of width 0 has no bits. -/
structure Field where
  lo : Nat
  width : Nat
  deriving DecidableEq, Repr

/-- Bit `i` of the word belongs to the field. -/
def Field.contains (f : Field) (i : Nat) : Bool := decide (f.lo ≤ i) && decide (i < f.lo + f.width)

/-- The two fields have no bit in common. -/
def Field.disjoint (f g : Field) : Bool :=
  decide (f.width = 0) || decide (g.width = 0) || decide (f.lo + f.width ≤ g.lo) || decide (g.lo + g.width ≤ f.lo)

/-- The Format Descriptor `FMT` (R10). Every parameter of R11 is a field, and so is the place of every bit field
(91_not_in_source.md N1), so that another published layout can be put in its place. `OTYPE_W`, `HWPERMS_W`, `UPERMS_W`,
`RESERVED_W` and `FLAGS_W` are the widths of the fields of those names. -/
structure Fmt where
  /-- `CAP_BITS`: compressed word and cursor together. -/
  capBits : Nat
  /-- `AW`: width of cursor, base and compressed word. -/
  aw : Nat
  /-- `LW`: width of a length and of a top. -/
  lw : Nat
  /-- `MW`: mantissa width. -/
  mw : Nat
  /-- `EXP_W`: exponent width in the internal-exponent form. -/
  expW : Nat
  /-- `EL`: exponent bits in the low bits of the B field. -/
  el : Nat
  /-- `EH`: exponent bits in the low bits of the T field. -/
  eh : Nat
  /-- `MAX_E`: the largest exponent the encoder needs. -/
  maxE : Nat
  uperms : Field
  hwperms : Field
  reserved : Field
  flags : Field
  otype : Field
  ie : Field
  t : Field
  b : Field
  /-- `NULL_XOR_MASK` (R90). -/
  nullXorMask : Nat
  deriving DecidableEq, Repr

/-- The CC128 descriptor: R11's first column of values, R81's offsets. -/
def cc128 : Fmt where
  capBits := 128
  aw := 64
  lw := 65
  mw := 14
  expW := 6
  el := 3
  eh := 3
  maxE := 52
  uperms := ⟨60, 4⟩
  hwperms := ⟨48, 12⟩
  reserved := ⟨46, 2⟩
  flags := ⟨45, 1⟩
  otype := ⟨27, 18⟩
  ie := ⟨26, 1⟩
  t := ⟨14, 12⟩
  b := ⟨0, 14⟩
  nullXorMask := 0x00001FFFFC018004

/-- The CC64 descriptor: R11's second column of values, R82's offsets. `UPERMS` and `RESERVED` have no bits
(assumption log 13 says where such a field stands). -/
def cc64 : Fmt where
  capBits := 64
  aw := 32
  lw := 33
  mw := 8
  expW := 6
  el := 3
  eh := 3
  maxE := 26
  uperms := ⟨32, 0⟩
  hwperms := ⟨20, 12⟩
  reserved := ⟨20, 0⟩
  flags := ⟨19, 1⟩
  otype := ⟨15, 4⟩
  ie := ⟨14, 1⟩
  t := ⟨8, 6⟩
  b := ⟨0, 8⟩
  nullXorMask := 0x0007C302

namespace Fmt

/-- `B_IE_W` (R12): width of the bottom mantissa kept in the internal-exponent form. -/
def bIeW (F : Fmt) : Nat := F.mw - F.el

/-- `T_IE_W` (R12): width of the stored top mantissa in the internal-exponent form. -/
def tIeW (F : Fmt) : Nat := F.mw - 2 - F.eh

/-- `EBT_W` (R12): width of the bounds subfield. -/
def ebtW (F : Fmt) : Nat := 1 + (F.mw - 2) + F.mw

/-- `MAX_OTYPE` (R12). -/
def maxOtype (F : Fmt) : Nat := 2 ^ F.otype.width - 1

/-- `OTYPE_UNSEALED` (R87). -/
def otypeUnsealed (F : Fmt) : Nat := F.maxOtype

/-- `OTYPE_SENTRY` (R87). -/
def otypeSentry (F : Fmt) : Nat := F.maxOtype - 1

/-- `PERMS_ALL` (R88). -/
def permsAll (F : Fmt) : Nat := ones F.hwperms.width

/-- `UPERMS_ALL` (R88). -/
def upermsAll (F : Fmt) : Nat := ones F.uperms.width

/-- The bit fields of the compressed word, every one of R81's table. -/
def fields (F : Fmt) : List Field :=
  [F.uperms, F.hwperms, F.reserved, F.flags, F.otype, F.ie, F.t, F.b]

/-- No two fields of the list share a bit. -/
def pairwiseDisjoint : List Field → Bool
  | [] => true
  | f :: fs => fs.all f.disjoint && pairwiseDisjoint fs

/-- R13 (7): the fields are disjoint and cover the bits `AW - 1` to 0. -/
def layoutOk (F : Fmt) : Bool :=
  pairwiseDisjoint F.fields
    && F.fields.all (fun f => decide (f.lo + f.width ≤ F.aw))
    && (List.range F.aw).all (fun i => F.fields.any (fun f => f.contains i))

/-- R83: the bounds subfield stands at the bottom of the word in the order B, T, IE (assumption log 12). -/
def ebtLayoutOk (F : Fmt) : Bool :=
  decide (F.b = ⟨0, F.mw⟩) && decide (F.t = ⟨F.mw, F.mw - 2⟩) && decide (F.ie = ⟨2 * F.mw - 2, 1⟩)

/-- The static constraints (1) to (7) of R13, with R11's two definitions `LW = AW + 1` and `CAP_BITS` = word and
cursor. Constraint (8) needs the encoder and stands in Machine/Instantiate.lean. -/
def staticOk (F : Fmt) : Bool :=
  decide (F.mw ≤ F.aw)
    && (decide (F.el = F.eh) && decide (F.el + F.eh = F.expW))
    && (decide (F.el < F.mw - 2) && decide (F.eh < F.mw - 2))
    && decide (F.maxE = F.aw - F.mw + 2)
    && decide (F.maxE ≤ 2 ^ F.expW - 1)
    && decide (F.uperms.width + F.hwperms.width + F.reserved.width + F.flags.width + F.otype.width + F.ebtW = F.aw)
    && F.layoutOk
    && F.ebtLayoutOk
    && (decide (F.lw = F.aw + 1) && decide (F.capBits = 2 * F.aw))

end Fmt

/-- The hardware permission bits by name (R88). Names only: the block interprets none of them. -/
inductive Perm where
  | global
  | permitExecute
  | permitLoad
  | permitStore
  | permitLoadCapability
  | permitStoreCapability
  | permitStoreLocalCapability
  | permitSeal
  | permitCinvoke
  | permitUnseal
  | permitAccessSystemRegisters
  | permitSetCid
  deriving DecidableEq, Repr

/-- Position of a permission in the `perms` value (R88), the same in both formats. -/
def Perm.bit : Perm → Nat
  | .global => 0
  | .permitExecute => 1
  | .permitLoad => 2
  | .permitStore => 3
  | .permitLoadCapability => 4
  | .permitStoreCapability => 5
  | .permitStoreLocalCapability => 6
  | .permitSeal => 7
  | .permitCinvoke => 8
  | .permitUnseal => 9
  | .permitAccessSystemRegisters => 10
  | .permitSetCid => 11

/-- Position of the capability-mode bit in the `flags` value (R89). -/
def capabilityModeBit : Nat := 0

/-- What an object-type value denotes (R87). The codec never reads this (40_field_codec.md R134). -/
inductive OtypeMeaning where
  | unsealed
  | sentry
  | reserved2
  | reserved3
  | sealedWith (otype : Nat)
  deriving DecidableEq, Repr

/-- R87's reading of an object-type value: reserved values are allocated downwards from `MAX_OTYPE`. -/
def Fmt.otypeMeaning (F : Fmt) (v : Nat) : OtypeMeaning :=
  if v = F.maxOtype then .unsealed
  else if v = F.maxOtype - 1 then .sentry
  else if v = F.maxOtype - 2 then .reserved2
  else if v = F.maxOtype - 3 then .reserved3
  else .sealedWith v

/-- The open parameter `MEM_LAYOUT` (20_memory.md R62, decision D6): the byte order of the host's memory system and
the place of the cursor in a stored capability. -/
structure MemLayout where
  /-- The least significant byte of a half stands at its lowest address. -/
  littleEndian : Bool
  /-- The cursor stands in the lower-addressed half and the compressed word in the upper one. -/
  cursorFirst : Bool
  deriving DecidableEq, Repr, Inhabited

/-- The layout of the memory system around the block. The spec leaves it open and no rule of the block reads it, so
it has no value here (assumption log 11). -/
opaque Config.memLayout : MemLayout

end Sys2Proof
end

