-- ==== Sys2Proof/Syntax.lean ====
section
/-!
DEFINITION. The requests of the block as syntax: the 24 operations of 30_encoding.md R101 with their typed operands,
and the value types carried on the ports (10_state.md R36 to R44).
-/

namespace Sys2Proof

/-- `DecodedCap` (10_state.md R39): the unpacked capability. Widths are checked by `DecodedCap.fits`. -/
structure DecodedCap where
  address : Nat
  base : Nat
  top : Nat
  perms : Nat
  uperms : Nat
  otype : Nat
  flags : Nat
  reserved : Nat
  tag : Bool
  deriving DecidableEq, Repr

/-- `BoundsBits` (R43): the stored exponent, unclamped, and the two full mantissas. -/
structure BoundsBits where
  ie : Bool
  e : Nat
  b : Nat
  t : Nat
  deriving DecidableEq, Repr

/-- `EbtResult` (R44): the bounds subfield in an otherwise zero word, the exactness flag and the granule exponent. -/
structure EbtResult where
  ebt : Nat
  exact : Bool
  g : Nat
  deriving DecidableEq, Repr

/-- A pair of decoded bounds `[base, top)`. -/
structure Bounds where
  base : Nat
  top : Nat
  deriving DecidableEq, Repr

/-- The operations of R101, named without their operands. -/
inductive Op where
  | compressRaw
  | decompressRaw
  | compressMem
  | decompressMem
  | encodeBounds
  | decodeBounds
  | extractBoundsBits
  | getPerms
  | setPerms
  | getUperms
  | setUperms
  | getOtype
  | setOtype
  | getFlags
  | setFlags
  | getReserved
  | setReserved
  | isRepresentableExact
  | isRepresentableNewAddr
  | getRepresentableLength
  | getRequiredAlignment
  | getAlignmentMask
  | setBounds
  | makeMaxPermsCap
  deriving DecidableEq, Repr

/-- The instructions: one constructor per row of the opcode table, with the operands R101 gives the row. -/
inductive Instr where
  | compressRaw (cap : DecodedCap)
  | decompressRaw (word cursor : Nat) (tag : Bool)
  | compressMem (cap : DecodedCap)
  | decompressMem (word cursor : Nat) (tag : Bool)
  | encodeBounds (base top : Nat)
  | decodeBounds (word cursor : Nat)
  | extractBoundsBits (word : Nat)
  | getPerms (word : Nat)
  | setPerms (word perms : Nat)
  | getUperms (word : Nat)
  | setUperms (word uperms : Nat)
  | getOtype (word : Nat)
  | setOtype (word otype : Nat)
  | getFlags (word : Nat)
  | setFlags (word flags : Nat)
  | getReserved (word : Nat)
  | setReserved (word reserved : Nat)
  | isRepresentableExact (cap : DecodedCap)
  | isRepresentableNewAddr (isSealed : Bool) (base length cursor newCursor : Nat)
  | getRepresentableLength (length : Nat)
  | getRequiredAlignment (length : Nat)
  | getAlignmentMask (length : Nat)
  | setBounds (cap : DecodedCap) (reqBase reqTop : Nat)
  | makeMaxPermsCap (base cursor top : Nat)
  deriving DecidableEq, Repr

/-- The operation an instruction selects. -/
def Instr.op : Instr → Op
  | .compressRaw _ => .compressRaw
  | .decompressRaw _ _ _ => .decompressRaw
  | .compressMem _ => .compressMem
  | .decompressMem _ _ _ => .decompressMem
  | .encodeBounds _ _ => .encodeBounds
  | .decodeBounds _ _ => .decodeBounds
  | .extractBoundsBits _ => .extractBoundsBits
  | .getPerms _ => .getPerms
  | .setPerms _ _ => .setPerms
  | .getUperms _ => .getUperms
  | .setUperms _ _ => .setUperms
  | .getOtype _ => .getOtype
  | .setOtype _ _ => .setOtype
  | .getFlags _ => .getFlags
  | .setFlags _ _ => .setFlags
  | .getReserved _ => .getReserved
  | .setReserved _ _ => .setReserved
  | .isRepresentableExact _ => .isRepresentableExact
  | .isRepresentableNewAddr _ _ _ _ _ => .isRepresentableNewAddr
  | .getRepresentableLength _ => .getRepresentableLength
  | .getRequiredAlignment _ => .getRequiredAlignment
  | .getAlignmentMask _ => .getAlignmentMask
  | .setBounds _ _ _ => .setBounds
  | .makeMaxPermsCap _ _ _ => .makeMaxPermsCap

/-- The named results of an operation (R101's results column). -/
inductive Results where
  | word (word : Nat)
  | cap (cap : DecodedCap)
  | ebt (r : EbtResult)
  | bounds (b : Bounds)
  | boundsBits (bits : BoundsBits)
  | perms (perms : Nat)
  | uperms (uperms : Nat)
  | otype (otype : Nat)
  | flags (flags : Nat)
  | reserved (reserved : Nat)
  | predicate (r : Bool)
  | length (length : Nat)
  | align (align : Nat)
  | mask (mask : Nat)
  | capExact (cap : DecodedCap) (exact : Bool)
  deriving DecidableEq, Repr

/-- The causes of `PreconditionViolated` (60_exceptions.md R262). -/
inductive Cause where
  /-- `base > top` or `top > 2^AW`, or `base + length > 2^AW`. -/
  | bounds
  /-- `length > 2^AW`. -/
  | length
  /-- The bounds do not decode from the old cursor. -/
  | notRepresentable
  /-- The bounds of a maximal capability need rounding. -/
  | inexactBounds
  deriving DecidableEq, Repr

/-- R262's code of a cause. -/
def Cause.code : Cause → Nat
  | .bounds => 1
  | .length => 2
  | .notRepresentable => 3
  | .inexactBounds => 4

end Sys2Proof
end

