-- ==== Sys2Proof/WellFormed.lean ====
section
/-!
DEFINITION. The widths of operands and results (30_encoding.md R101, 10_state.md R39, R43, R44). An operand wider
than its port cannot be presented (92_eei_decisions.md D20): `Instr.wf` is that check, and the machine rejects what
fails it and never truncates.
-/

namespace Sys2Proof

/-- Every field of the record has its width of R39. -/
def DecodedCap.fits (F : Fmt) (c : DecodedCap) : Bool :=
  fitsIn F.aw c.address && fitsIn F.aw c.base && fitsIn F.lw c.top && fitsIn F.hwperms.width c.perms
    && fitsIn F.uperms.width c.uperms && fitsIn F.otype.width c.otype && fitsIn F.flags.width c.flags
    && fitsIn F.reserved.width c.reserved

/-- Every field of the intermediate has its width of R43. -/
def BoundsBits.fits (F : Fmt) (x : BoundsBits) : Bool :=
  fitsIn F.expW x.e && fitsIn F.mw x.b && fitsIn F.mw x.t

/-- The subfield is a word and the granule exponent is in `0 .. AW` (R44). -/
def EbtResult.fits (F : Fmt) (r : EbtResult) : Bool := fitsIn F.aw r.ebt && decide (r.g ≤ F.aw)

/-- Base of width `AW`, top of width `LW`. -/
def Bounds.fits (F : Fmt) (x : Bounds) : Bool := fitsIn F.aw x.base && fitsIn F.lw x.top

/-- Every operand has the width of its port (R101). -/
def Instr.wf (F : Fmt) : Instr → Bool
  | .compressRaw cap => cap.fits F
  | .decompressRaw word cursor _ => fitsIn F.aw word && fitsIn F.aw cursor
  | .compressMem cap => cap.fits F
  | .decompressMem word cursor _ => fitsIn F.aw word && fitsIn F.aw cursor
  | .encodeBounds base top => fitsIn F.aw base && fitsIn F.lw top
  | .decodeBounds word cursor => fitsIn F.aw word && fitsIn F.aw cursor
  | .extractBoundsBits word => fitsIn F.aw word
  | .getPerms word => fitsIn F.aw word
  | .setPerms word perms => fitsIn F.aw word && fitsIn F.hwperms.width perms
  | .getUperms word => fitsIn F.aw word
  | .setUperms word uperms => fitsIn F.aw word && fitsIn F.uperms.width uperms
  | .getOtype word => fitsIn F.aw word
  | .setOtype word otype => fitsIn F.aw word && fitsIn F.otype.width otype
  | .getFlags word => fitsIn F.aw word
  | .setFlags word flags => fitsIn F.aw word && fitsIn F.flags.width flags
  | .getReserved word => fitsIn F.aw word
  | .setReserved word reserved => fitsIn F.aw word && fitsIn F.reserved.width reserved
  | .isRepresentableExact cap => cap.fits F
  | .isRepresentableNewAddr _ base length cursor newCursor =>
    fitsIn F.aw base && fitsIn F.lw length && fitsIn F.aw cursor && fitsIn F.aw newCursor
  | .getRepresentableLength length => fitsIn F.lw length
  | .getRequiredAlignment length => fitsIn F.lw length
  | .getAlignmentMask length => fitsIn F.lw length
  | .setBounds cap reqBase reqTop => cap.fits F && fitsIn F.aw reqBase && fitsIn F.lw reqTop
  | .makeMaxPermsCap base cursor top => fitsIn F.aw base && fitsIn F.aw cursor && fitsIn F.lw top

/-- Every result has the width of its port (R101). -/
def Results.fits (F : Fmt) : Results → Bool
  | .word w => fitsIn F.aw w
  | .cap c => c.fits F
  | .ebt r => r.fits F
  | .bounds b => b.fits F
  | .boundsBits x => x.fits F
  | .perms v => fitsIn F.hwperms.width v
  | .uperms v => fitsIn F.uperms.width v
  | .otype v => fitsIn F.otype.width v
  | .flags v => fitsIn F.flags.width v
  | .reserved v => fitsIn F.reserved.width v
  | .predicate _ => true
  | .length l => fitsIn F.lw l
  | .align a => fitsIn F.aw a
  | .mask m => fitsIn F.aw m
  | .capExact c _ => c.fits F

end Sys2Proof
end

