-- ==== Sys2Proof/Decode.lean ====
section
/-!
DEFINITION. The request interface OPSEL5 (30_encoding.md R100 to R103): a request is a 5-bit op select and typed
operands on the ports beside it. `decode` reads a request, total on every op value and refusing the unassigned ones
by name; `encode` writes the request of an instruction from the same table.
-/

namespace Sys2Proof

/-- The operand ports of the block, one for each operand name of R101. An operation reads the ports it names and no
other (assumption log 6). -/
structure Operands where
  cap : DecodedCap
  word : Nat
  cursor : Nat
  newCursor : Nat
  tag : Bool
  isSealed : Bool
  base : Nat
  top : Nat
  reqBase : Nat
  reqTop : Nat
  length : Nat
  perms : Nat
  uperms : Nat
  otype : Nat
  flags : Nat
  reserved : Nat
  deriving DecidableEq, Repr

/-- The record with every field zero. -/
def DecodedCap.zero : DecodedCap := ⟨0, 0, 0, 0, 0, 0, 0, 0, false⟩

/-- Every port at zero. -/
def Operands.zero : Operands :=
  ⟨DecodedCap.zero, 0, 0, 0, false, false, 0, 0, 0, 0, 0, 0, 0, 0, 0, 0⟩

/-- A request (R100): the op select, bits 4:0, and the operand ports. -/
structure Request where
  op : BitVec 5
  operands : Operands
  deriving DecidableEq, Repr

/-- R101's op column. -/
def Op.code : Op → BitVec 5
  | .compressRaw => 0x00
  | .decompressRaw => 0x01
  | .compressMem => 0x02
  | .decompressMem => 0x03
  | .encodeBounds => 0x04
  | .decodeBounds => 0x05
  | .extractBoundsBits => 0x06
  | .getPerms => 0x08
  | .setPerms => 0x09
  | .getUperms => 0x0A
  | .setUperms => 0x0B
  | .getOtype => 0x0C
  | .setOtype => 0x0D
  | .getFlags => 0x0E
  | .setFlags => 0x0F
  | .getReserved => 0x10
  | .setReserved => 0x11
  | .isRepresentableExact => 0x12
  | .isRepresentableNewAddr => 0x13
  | .getRepresentableLength => 0x14
  | .getRequiredAlignment => 0x15
  | .getAlignmentMask => 0x16
  | .setBounds => 0x17
  | .makeMaxPermsCap => 0x18

/-- The operation a code selects, none for the unassigned codes 0x07 and 0x19 to 0x1F (R102). -/
def opOfCode (c : BitVec 5) : Option Op :=
  match c.toNat with
  | 0x00 => some .compressRaw
  | 0x01 => some .decompressRaw
  | 0x02 => some .compressMem
  | 0x03 => some .decompressMem
  | 0x04 => some .encodeBounds
  | 0x05 => some .decodeBounds
  | 0x06 => some .extractBoundsBits
  | 0x08 => some .getPerms
  | 0x09 => some .setPerms
  | 0x0A => some .getUperms
  | 0x0B => some .setUperms
  | 0x0C => some .getOtype
  | 0x0D => some .setOtype
  | 0x0E => some .getFlags
  | 0x0F => some .setFlags
  | 0x10 => some .getReserved
  | 0x11 => some .setReserved
  | 0x12 => some .isRepresentableExact
  | 0x13 => some .isRepresentableNewAddr
  | 0x14 => some .getRepresentableLength
  | 0x15 => some .getRequiredAlignment
  | 0x16 => some .getAlignmentMask
  | 0x17 => some .setBounds
  | 0x18 => some .makeMaxPermsCap
  | _ => none

/-- The instruction of an operation, its operands read from the ports R101 names. -/
def Op.withOperands (p : Operands) : Op → Instr
  | .compressRaw => .compressRaw p.cap
  | .decompressRaw => .decompressRaw p.word p.cursor p.tag
  | .compressMem => .compressMem p.cap
  | .decompressMem => .decompressMem p.word p.cursor p.tag
  | .encodeBounds => .encodeBounds p.base p.top
  | .decodeBounds => .decodeBounds p.word p.cursor
  | .extractBoundsBits => .extractBoundsBits p.word
  | .getPerms => .getPerms p.word
  | .setPerms => .setPerms p.word p.perms
  | .getUperms => .getUperms p.word
  | .setUperms => .setUperms p.word p.uperms
  | .getOtype => .getOtype p.word
  | .setOtype => .setOtype p.word p.otype
  | .getFlags => .getFlags p.word
  | .setFlags => .setFlags p.word p.flags
  | .getReserved => .getReserved p.word
  | .setReserved => .setReserved p.word p.reserved
  | .isRepresentableExact => .isRepresentableExact p.cap
  | .isRepresentableNewAddr => .isRepresentableNewAddr p.isSealed p.base p.length p.cursor p.newCursor
  | .getRepresentableLength => .getRepresentableLength p.length
  | .getRequiredAlignment => .getRequiredAlignment p.length
  | .getAlignmentMask => .getAlignmentMask p.length
  | .setBounds => .setBounds p.cap p.reqBase p.reqTop
  | .makeMaxPermsCap => .makeMaxPermsCap p.base p.cursor p.top

/-- Why a request has no instruction. -/
inductive DecodeError where
  /-- The op value is unassigned (R102): the request is refused. -/
  | unassignedOp (op : BitVec 5)
  deriving DecidableEq, Repr

/-- Decoding a request (R103): on the op select alone, the operands of an unassigned op are not read (R263). -/
def decode (r : Request) : Except DecodeError Instr :=
  match opOfCode r.op with
  | some o => .ok (o.withOperands r.operands)
  | none => .error (.unassignedOp r.op)

/-- The ports an instruction sets; the ports it does not name are zero. -/
def Instr.ports : Instr → Operands
  | .compressRaw cap => { Operands.zero with cap := cap }
  | .decompressRaw word cursor tag => { Operands.zero with word := word, cursor := cursor, tag := tag }
  | .compressMem cap => { Operands.zero with cap := cap }
  | .decompressMem word cursor tag => { Operands.zero with word := word, cursor := cursor, tag := tag }
  | .encodeBounds base top => { Operands.zero with base := base, top := top }
  | .decodeBounds word cursor => { Operands.zero with word := word, cursor := cursor }
  | .extractBoundsBits word => { Operands.zero with word := word }
  | .getPerms word => { Operands.zero with word := word }
  | .setPerms word perms => { Operands.zero with word := word, perms := perms }
  | .getUperms word => { Operands.zero with word := word }
  | .setUperms word uperms => { Operands.zero with word := word, uperms := uperms }
  | .getOtype word => { Operands.zero with word := word }
  | .setOtype word otype => { Operands.zero with word := word, otype := otype }
  | .getFlags word => { Operands.zero with word := word }
  | .setFlags word flags => { Operands.zero with word := word, flags := flags }
  | .getReserved word => { Operands.zero with word := word }
  | .setReserved word reserved => { Operands.zero with word := word, reserved := reserved }
  | .isRepresentableExact cap => { Operands.zero with cap := cap }
  | .isRepresentableNewAddr isSealed base length cursor newCursor =>
    { Operands.zero with isSealed := isSealed, base := base, length := length, cursor := cursor, newCursor := newCursor }
  | .getRepresentableLength length => { Operands.zero with length := length }
  | .getRequiredAlignment length => { Operands.zero with length := length }
  | .getAlignmentMask length => { Operands.zero with length := length }
  | .setBounds cap reqBase reqTop => { Operands.zero with cap := cap, reqBase := reqBase, reqTop := reqTop }
  | .makeMaxPermsCap base cursor top => { Operands.zero with base := base, cursor := cursor, top := top }

/-- The request of an instruction: its op code of R101 and its operands on their ports. -/
def encode (i : Instr) : Request := ⟨i.op.code, i.ports⟩

/-- The request whose op select is the low 5 bits of a table word of `nbits` bits (R103: the op value is read as
`op[4:0]` with no other field) and whose operands are zero, since the table gives operands no bits
(assumption log 7). -/
def tableRequest (nbits w : Nat) : Request := ⟨BitVec.ofNat 5 (w % 2 ^ nbits), Operands.zero⟩

/-- The instruction the decoder reads from a word of the opcode table. -/
def decodeTableWord (nbits w : Nat) : Option Instr :=
  match decode (tableRequest nbits w) with
  | .ok i => some i
  | .error _ => none

end Sys2Proof
end

