-- ==== Sys2Proof/Machine/State.lean ====
section
/-!
DEFINITION. The state of the model and the reasons a step can stop.

The block itself holds no architectural state (10_state.md R30). `Interface` holds what a step changes, the two sides of the
request interface: the requests still to be evaluated and the responses already returned (30_encoding.md R100,
60_exceptions.md R260, assumption log 2). The Format Descriptor is no part of it: it is the parameter of the step relation
`stepUnder` (R31). `State` is an interface together with the value of that parameter, since the fixed types of `exec` and
`step` have no other place for it (assumption log 1). There is no memory, register or program counter, because the block has
none (R32, R33, R46, R47).
-/

namespace Sys2Proof.Machine

/-- The model fault (R262). -/
inductive Fault where
  /-- `PreconditionViolated(op, cause)`: raised by the meaning of an operation whose operands lie outside the domain on
  which the source defines it. It records the operation and the cause only. Safe: no value is invented. -/
  | preconditionViolated (op : Op) (cause : Cause)
  deriving DecidableEq, Repr

/-- Why a request is refused. -/
inductive Refusal where
  /-- An instruction that has no meaning in `exec` yet. Safe. -/
  | notModelled (mnemonic : String)
  /-- `Refused(op)` (R263): the op value is unassigned. Raised by `acceptRequest` and returned to the requester by `deliver`. Safe. -/
  | unassignedOp (op : BitVec 5)
  /-- An operand is wider than its port. No requester can present such a request (D20). Raised by `acceptRequest`; the
  machine stops. Safe. -/
  | operandTooWide (op : Op)
  /-- The descriptor breaks a static constraint of R13, so no such block exists (R291). Raised by `step`; the machine
  stops. Safe. -/
  | invalidDescriptor
  deriving DecidableEq, Repr

/-- What a requester receives for one request (R260). -/
inductive Response where
  /-- `Ok(results)`. -/
  | ok (r : Results)
  /-- `Fault(PreconditionViolated(op, cause))`, in place of the results (R266). -/
  | fault (op : Op) (cause : Cause)
  /-- `Refused(op)`, in place of the results (R266). -/
  | refused (op : BitVec 5)
  deriving DecidableEq, Repr

/-- The two sides of the request interface: all that a step changes. -/
structure Interface where
  /-- The requests issued and not yet evaluated, oldest first (R294). -/
  pending : List Request
  /-- The responses returned to the requester, oldest first. -/
  responses : List Response
  deriving DecidableEq, Repr

/-- A block with its interface: plain data. -/
structure State extends Interface where
  /-- `FMT` of this block, the parameter under which it steps. It is carried and never written (R31). -/
  fmt : Fmt
  deriving DecidableEq, Repr

/-- An interface as the state of the block of a descriptor. -/
def Interface.under (x : Interface) (F : Fmt) : State := ⟨x, F⟩

/-- A block of the given format right after instantiation: there is nothing to reset and no output before the first
request (10_state.md R49, 70_reset_and_hazards.md R290). -/
def State.fresh (F : Fmt) : State := Interface.under ⟨[], []⟩ F

/-- The state after reset: the CC128 block (assumption log 1) before its first request. -/
def State.reset : State := State.fresh cc128

end Sys2Proof.Machine
end

