-- ==== Sys2Proof/Machine/Ops.lean ====
section
/-!
DEFINITION. The operations every meaning shares: bit slices and fields of words (00_scope.md R14 to R16,
40_field_codec.md R120, R121), and the one way in which a request ends (60_exceptions.md R260).
-/

namespace Sys2Proof.Machine

/-- `v[hi:lo]` (R14): an empty slice reads as 0. -/
def slice (hi lo v : Nat) : Nat := (v >>> lo) % 2 ^ (hi + 1 - lo)

/-- `v[i]` (R14); an index above the value's width reads as 0. -/
def bitAt (i v : Nat) : Bool := v.testBit i

/-- `msb(x)` for `x > 0` (R16): the index of the most significant set bit. -/
def msb (x : Nat) : Nat := Nat.log2 x

/-- The number of leading zeros of a `width`-bit value; of 0 it is `width` (41_bounds_encoder.md R150). -/
def clz (width x : Nat) : Nat := if x = 0 then width else width - 1 - msb x

/-- `hi @ lo` with a low part of width `w` (R16). -/
def cat (hi w lo : Nat) : Nat := (hi <<< w) ||| lo

/-- `trunc_w(x - y)`: the difference modulo `2^w`. -/
def subMod (w x y : Nat) : Nat := (x + (2 ^ w - y % 2 ^ w)) % 2 ^ w

/-- `getf(w, NAME)` (R120): the field's bits, 0 for a field of width 0. -/
def getf (w : Nat) (f : Field) : Nat := (w >>> f.lo) % 2 ^ f.width

/-- `setf(w, NAME, v)` (R121): the field's bits replaced by `v`. `w AND NOT m` is written as `w` less its bits in `m`, so that
no width enters. -/
def setf (w : Nat) (f : Field) (v : Nat) : Nat :=
  let m := ones f.width <<< f.lo
  (w ^^^ (w &&& m)) ||| (v <<< f.lo)

/-- Append a response to those the requester has received. -/
def Interface.respond (x : Interface) (r : Response) : Interface := { x with responses := x.responses ++ [r] }

/-- The same in a state; the descriptor stays (R31). -/
def State.respond (s : State) (r : Response) : State := (s.toInterface.respond r).under s.fmt

/-- `raise PreconditionViolated(op, cause)` (00_scope.md R17): the request ends in the model fault, with no results and
no change (R260, R266). -/
def raise (op : Op) (cause : Cause) : Host.Outcome State Fault Refusal :=
  .fault (.preconditionViolated op cause)

/-- How the evaluation of an operation ends (R260): its results become the response, or it raises its cause. -/
def answer (op : Op) (s : State) (x : Except Cause Results) : Host.Outcome State Fault Refusal :=
  match x with
  | .ok r => .next (s.respond (.ok r))
  | .error c => raise op c

end Sys2Proof.Machine
end

