-- ==== Sys2Proof/Machine/Operands.lean ====
section
/-!
DEFINITION. The domains of the operands (60_exceptions.md R262): what the source defines an operation for. Outside them
a request ends in the model fault with the cause named here.
-/

namespace Sys2Proof.Machine

/-- `base ≤ top ≤ 2^AW`, the domain of every bounds operation (R262, cause 1). -/
def boundsOk (F : Fmt) (base top : Nat) : Bool := decide (base ≤ top) && decide (top ≤ 2 ^ F.aw)

/-- `length ≤ 2^AW`, the domain of the length helpers (R262, cause 2). -/
def lengthOk (F : Fmt) (length : Nat) : Bool := decide (length ≤ 2 ^ F.aw)

/-- Go on inside the bounds domain, cause 1 outside it. -/
def requireBounds (F : Fmt) (base top : Nat) : Except Cause Unit :=
  if boundsOk F base top then .ok () else .error .bounds

/-- Go on inside the length domain, cause 2 outside it. -/
def requireLength (F : Fmt) (length : Nat) : Except Cause Unit :=
  if lengthOk F length then .ok () else .error .length

end Sys2Proof.Machine
end

