-- ==== Sys2Proof/Machine/Flags.lean ====
section
/-!
DEFINITION. The status results. The block has no status flags; `exact` and the predicates are response values computed
afresh (10_state.md R34).
-/

namespace Sys2Proof.Machine

/-- Bits of a bound were lost below the granule `2^k` (41_bounds_encoder.md R152). -/
def lostBelow (k v : Nat) : Bool := decide (v % 2 ^ k ≠ 0)

/-- `exact` (R152): neither bound lost a bit. -/
def exactFlag (lostB lostT : Bool) : Bool := !(lostB || lostT)

/-- The predicate of the representability tests: the decoded bounds are the bounds asked for
(43_representability.md R210, R211). -/
def sameBounds (x : Bounds) (base top : Nat) : Bool := decide (x.base = base) && decide (x.top = top)

end Sys2Proof.Machine
end

