-- ==== Sys2Proof/Machine/FieldCodec.lean ====
section
/-!
DEFINITION. The field codec (40_field_codec.md): packing and unpacking the non-bounds fields of a word, and the ten
getters and setters. It validates no value (R134).
-/

namespace Sys2Proof.Machine

/-- R122: the non-bounds fields of a record in a word whose bounds subfield is zero. -/
def packFields (F : Fmt) (c : DecodedCap) : Nat :=
  let w := setf 0 F.uperms c.uperms
  let w := setf w F.hwperms c.perms
  let w := setf w F.reserved c.reserved
  let w := setf w F.flags c.flags
  setf w F.otype c.otype

/-- R123: the non-bounds fields of a word, in a record with the given bounds, address and tag. -/
def unpackFields (F : Fmt) (w : Nat) (b : Bounds) (address : Nat) (tag : Bool) : DecodedCap where
  address := address
  base := b.base
  top := b.top
  perms := getf w F.hwperms
  uperms := getf w F.uperms
  otype := getf w F.otype
  flags := getf w F.flags
  reserved := getf w F.reserved
  tag := tag

/-- `GET_PERMS` (R124). -/
def execGetPerms (word : Nat) (s : State) : Host.Outcome State Fault Refusal :=
  answer .getPerms s (.ok (.perms (getf word s.fmt.hwperms)))

/-- `SET_PERMS` (R125). -/
def execSetPerms (word perms : Nat) (s : State) : Host.Outcome State Fault Refusal :=
  answer .setPerms s (.ok (.word (setf word s.fmt.hwperms perms)))

/-- `GET_UPERMS` (R126). -/
def execGetUperms (word : Nat) (s : State) : Host.Outcome State Fault Refusal :=
  answer .getUperms s (.ok (.uperms (getf word s.fmt.uperms)))

/-- `SET_UPERMS` (R127). -/
def execSetUperms (word uperms : Nat) (s : State) : Host.Outcome State Fault Refusal :=
  answer .setUperms s (.ok (.word (setf word s.fmt.uperms uperms)))

/-- `GET_OTYPE` (R128). -/
def execGetOtype (word : Nat) (s : State) : Host.Outcome State Fault Refusal :=
  answer .getOtype s (.ok (.otype (getf word s.fmt.otype)))

/-- `SET_OTYPE` (R129). -/
def execSetOtype (word otype : Nat) (s : State) : Host.Outcome State Fault Refusal :=
  answer .setOtype s (.ok (.word (setf word s.fmt.otype otype)))

/-- `GET_FLAGS` (R130). -/
def execGetFlags (word : Nat) (s : State) : Host.Outcome State Fault Refusal :=
  answer .getFlags s (.ok (.flags (getf word s.fmt.flags)))

/-- `SET_FLAGS` (R131). -/
def execSetFlags (word flags : Nat) (s : State) : Host.Outcome State Fault Refusal :=
  answer .setFlags s (.ok (.word (setf word s.fmt.flags flags)))

/-- `GET_RESERVED` (R132). -/
def execGetReserved (word : Nat) (s : State) : Host.Outcome State Fault Refusal :=
  answer .getReserved s (.ok (.reserved (getf word s.fmt.reserved)))

/-- `SET_RESERVED` (R133). -/
def execSetReserved (word reserved : Nat) (s : State) : Host.Outcome State Fault Refusal :=
  answer .setReserved s (.ok (.word (setf word s.fmt.reserved reserved)))

end Sys2Proof.Machine
end

