-- ==== Sys2Proof/Machine/BoundsEncoder.lean ====
section
/-!
DEFINITION. The bounds encoder (41_bounds_encoder.md): from a pair (base, top) to the bounds subfield of the compressed
word, and the compression of a whole record.
-/

namespace Sys2Proof.Machine

/-- `get_exponent(L)` (R150). -/
def getExponent (F : Fmt) (L : Nat) : Nat :=
  let high := L >>> (F.mw - 1)
  if high = 0 then 0 else msb high + 1

/-- Form selection (R151): the internal-exponent form. -/
def usesInternalExponent (F : Fmt) (L : Nat) : Bool :=
  decide (getExponent F L ≠ 0) || bitAt (F.mw - 2) L

/-- `place(ie, Tf, Bf)` (R152). -/
def place (F : Fmt) (ie : Bool) (tf bf : Nat) : Nat :=
  (ie.toNat <<< (2 * F.mw - 2)) ||| (tf <<< F.mw) ||| bf

/-- R152, the `IE = 0` form: full mantissas, always exact (30_encoding.md R84). -/
def ebtExponentZero (F : Fmt) (base top : Nat) : EbtResult where
  ebt := place F false (trunc (F.mw - 2) top) (trunc F.mw base)
  exact := true
  g := 0

/-- The end of R152: the two `MW - EL` bit mantissas and the final exponent put into the fields (30_encoding.md R85), the
exactness flag, and the granule exponent `E + EL` (R155). -/
def ebtInternalExponent (F : Fmt) (e b t : Nat) (lostB lostT : Bool) : EbtResult where
  ebt :=
    let tf := cat (trunc (F.mw - 2 - F.el) t) F.eh (slice (F.expW - 1) F.el e)
    let bf := cat b F.el (trunc F.el e)
    place F true tf bf
  exact := exactFlag lostB lostT
  g := e + F.el

/-- The bottom mantissa at granule exponent `k` (R152): base rounded down. -/
def bottomMantissa (F : Fmt) (k base : Nat) : Nat := trunc F.bIeW (base >>> k)

/-- The top mantissa at granule exponent `k` (R152): top rounded up when it lost a bit; it may wrap. -/
def topMantissa (F : Fmt) (k top : Nat) (lost : Bool) : Nat := trunc F.bIeW ((top >>> k) + lost.toNat)

/-- R152, the internal-exponent form, with its one exponent increment when the rounded length overflows. -/
def ebtInternal (F : Fmt) (base top e : Nat) : EbtResult :=
  let k := e + F.el
  let lostB := lostBelow k base
  let lostT := lostBelow k top
  let b := bottomMantissa F k base
  let t := topMantissa F k top lostT
  let lenW := subMod F.bIeW t b
  if bitAt (F.bIeW - 1) lenW then
    let lostB' := lostB || bitAt 0 b
    let lostT' := lostT || bitAt 0 t
    ebtInternalExponent F (e + 1) (bottomMantissa F (k + 1) base) (topMantissa F (k + 1) top lostT') lostB' lostT'
  else
    ebtInternalExponent F e b t lostB lostT

/-- The result of `compute_ebt` on its domain (R152). -/
def ebtOf (F : Fmt) (base top : Nat) : EbtResult :=
  let L := top - base
  if usesInternalExponent F L then ebtInternal F base top (getExponent F L)
  else ebtExponentZero F base top

/-- `compute_ebt(base, top)` (R152): cause 1 outside the domain. -/
def computeEbt (F : Fmt) (base top : Nat) : Except Cause EbtResult := do
  requireBounds F base top
  pure (ebtOf F base top)

/-- The raw compressed word of a record (R156). -/
def compressRaw (F : Fmt) (c : DecodedCap) : Except Cause Nat := do
  let r ← computeEbt F c.base c.top
  pure (packFields F c ||| r.ebt)

/-- The mem form of a raw word and back: exclusive-or with the null mask (30_encoding.md R90). -/
def maskWord (F : Fmt) (w : Nat) : Nat := w ^^^ F.nullXorMask

/-- The mem compressed word of a record (R157). -/
def compressMem (F : Fmt) (c : DecodedCap) : Except Cause Nat := do
  let w ← compressRaw F c
  pure (maskWord F w)

/-- The null capability (R160). -/
def nullCap (F : Fmt) : DecodedCap where
  address := 0
  base := 0
  top := 2 ^ F.aw
  perms := 0
  uperms := 0
  otype := F.otypeUnsealed
  flags := 0
  reserved := 0
  tag := false

/-- `ENCODE_BOUNDS` (R159). -/
def execEncodeBounds (base top : Nat) (s : State) : Host.Outcome State Fault Refusal :=
  answer .encodeBounds s (do let r ← computeEbt s.fmt base top; pure (.ebt r))

/-- `COMPRESS_RAW` (R156). It reads neither the address nor the tag (R158). -/
def execCompressRaw (cap : DecodedCap) (s : State) : Host.Outcome State Fault Refusal :=
  answer .compressRaw s (do let w ← compressRaw s.fmt cap; pure (.word w))

/-- `COMPRESS_MEM` (R157). -/
def execCompressMem (cap : DecodedCap) (s : State) : Host.Outcome State Fault Refusal :=
  answer .compressMem s (do let w ← compressMem s.fmt cap; pure (.word w))

end Sys2Proof.Machine
end

