-- ==== Sys2Proof/Machine/BoundsDecoder.lean ====
section
/-!
DEFINITION. The bounds decoder (42_bounds_decoder.md): from a compressed word and a cursor to the bounds, and the
decompression of a whole record. It is total on every word and cursor (R187, 30_encoding.md R91).
-/

namespace Sys2Proof.Machine

/-- `extract_bounds_bits(word)` (R180): the stored exponent, unclamped, and the two full mantissas. -/
def extractBoundsBits (F : Fmt) (word : Nat) : BoundsBits :=
  let ie := decide (getf word F.ie = 1)
  let tf := getf word F.t
  let bf := getf word F.b
  let e := if ie then cat (trunc F.eh tf) F.el (trunc F.el bf) else 0
  let tLow := if ie then (tf >>> F.eh) <<< F.eh else tf
  let b := if ie then (bf >>> F.el) <<< F.el else bf
  let carry := decide (tLow < trunc (F.mw - 2) b)
  let tTop2 := trunc 2 ((b >>> (F.mw - 2)) + ie.toNat + carry.toNat)
  { ie := ie, e := e, b := b, t := (tTop2 <<< (F.mw - 2)) ||| tLow }

/-- The three outcomes of the region comparison (R182): where a bound lies against the cursor's window. -/
inductive Region where
  | behind
  | same
  | ahead
  deriving DecidableEq, Repr

/-- The correction as a number: -1, 0 or +1 (R182). -/
def Region.toInt : Region → Int
  | .behind => -1
  | .same => 0
  | .ahead => 1

/-- The correction of a bound from its own comparison and the cursor's (R182). -/
def regionOf (boundHi cursorHi : Bool) : Region :=
  match boundHi, cursorHi with
  | true, false => .ahead
  | false, true => .behind
  | true, true => .same
  | false, false => .same

/-- The region boundary `R3 = trunc_3(B3 - 1)` (R182); it wraps 0 to 7. -/
def regionBoundary (b3 : Nat) : Nat := subMod 3 b3 1

/-- A three-bit value is in the upper window: below the boundary, unsigned (R182). A value equal to it is not. -/
def inUpperWindow (x3 r3 : Nat) : Bool := decide (x3 < r3)

/-- `trunc_AW(a_top + corr)` (R183). -/
def addRegion (aw aTop : Nat) : Region → Nat
  | .behind => subMod aw aTop 1
  | .same => trunc aw aTop
  | .ahead => trunc aw (aTop + 1)

/-- One bound before the top-bit correction (R183): the corrected high bits over the mantissa at its scale. -/
def rebuild (F : Fmt) (e' aTop : Nat) (corr : Region) (mantissa : Nat) : Nat :=
  trunc F.lw ((addRegion F.aw aTop corr <<< (e' + F.mw)) ||| (mantissa <<< e'))

/-- The top-bit correction (R184). -/
def correctTop (F : Fmt) (e' base top : Nat) : Nat :=
  let base2 := slice (F.aw - 1) (F.aw - 1) base
  let top2 := slice F.aw (F.aw - 1) top
  if e' < F.maxE - 1 ∧ subMod 2 top2 base2 > 1 then top ^^^ (1 <<< F.aw) else top

/-- `compute_base_top` (R181 to R184): the exponent clamped, the region comparison, the two bounds rebuilt, the top bit
corrected. -/
def computeBaseTop (F : Fmt) (x : BoundsBits) (cursor : Nat) : Bounds :=
  let e' := min F.maxE x.e
  let a3 := trunc 3 (cursor >>> (e' + F.mw - 3))
  let b3 := slice (F.mw - 1) (F.mw - 3) x.b
  let t3 := slice (F.mw - 1) (F.mw - 3) x.t
  let r3 := regionBoundary b3
  let aHi := inUpperWindow a3 r3
  let aTop := cursor >>> (e' + F.mw)
  let base := rebuild F e' aTop (regionOf (inUpperWindow b3 r3) aHi) x.b
  let top := rebuild F e' aTop (regionOf (inUpperWindow t3 r3) aHi) x.t
  { base := trunc F.aw base, top := correctTop F e' base top }

/-- The bounds a word and a cursor decode to (R185). -/
def decodeBounds (F : Fmt) (word cursor : Nat) : Bounds := computeBaseTop F (extractBoundsBits F word) cursor

/-- The record a raw word, a cursor and a tag decode to (R186). The tag is passed through (decision D12). -/
def decompressRaw (F : Fmt) (word cursor : Nat) (tag : Bool) : DecodedCap :=
  unpackFields F word (decodeBounds F word cursor) cursor tag

/-- The record a mem word, a cursor and a tag decode to (R188). -/
def decompressMem (F : Fmt) (word cursor : Nat) (tag : Bool) : DecodedCap :=
  decompressRaw F (maskWord F word) cursor tag

/-- `EXTRACT_BOUNDS_BITS` (R180). -/
def execExtractBoundsBits (word : Nat) (s : State) : Host.Outcome State Fault Refusal :=
  answer .extractBoundsBits s (.ok (.boundsBits (extractBoundsBits s.fmt word)))

/-- `DECODE_BOUNDS` (R185). -/
def execDecodeBounds (word cursor : Nat) (s : State) : Host.Outcome State Fault Refusal :=
  answer .decodeBounds s (.ok (.bounds (decodeBounds s.fmt word cursor)))

/-- `DECOMPRESS_RAW` (R186). -/
def execDecompressRaw (word cursor : Nat) (tag : Bool) (s : State) : Host.Outcome State Fault Refusal :=
  answer .decompressRaw s (.ok (.cap (decompressRaw s.fmt word cursor tag)))

/-- `DECOMPRESS_MEM` (R188). -/
def execDecompressMem (word cursor : Nat) (tag : Bool) (s : State) : Host.Outcome State Fault Refusal :=
  answer .decompressMem s (.ok (.cap (decompressMem s.fmt word cursor tag)))

end Sys2Proof.Machine
end

