-- ==== Sys2Proof/Machine/Representability.lean ====
section
/-!
DEFINITION. The representability checker (43_representability.md), defined by re-running the encoder and the decoder
and by no closed-form shortcut.
-/

namespace Sys2Proof.Machine

/-- The exactness test (R210): the encoding of the bounds, decoded with the record's own address, gives them back. -/
def representableExact (F : Fmt) (c : DecodedCap) : Except Cause Bool := do
  let r ← computeEbt F c.base c.top
  pure (sameBounds (decodeBounds F r.ebt c.address) c.base c.top)

/-- The cursor-change test (R211), its two preconditions in that order (60_exceptions.md R264). The sealed bit has no
effect in either format (R212). -/
def representableNewAddr (F : Fmt) (base length cursor newCursor : Nat) : Except Cause Bool := do
  let top := base + length
  let r ← computeEbt F base top
  if sameBounds (decodeBounds F r.ebt cursor) base top then
    pure (sameBounds (decodeBounds F r.ebt newCursor) base top)
  else
    .error .notRepresentable

/-- The granule exponent of a length (R213, R214): that of the region `[0, length)`. -/
def granuleOf (F : Fmt) (length : Nat) : Except Cause Nat := do
  requireLength F length
  pure (ebtOf F 0 length).g

/-- `x` rounded up to a multiple of `2^g`: `(x + 2^g - 1) AND NOT (2^g - 1)` (R213). -/
def roundUp (g x : Nat) : Nat := ((x + 2 ^ g - 1) >>> g) <<< g

/-- `IS_REPRESENTABLE_EXACT` (R210). -/
def execIsRepresentableExact (cap : DecodedCap) (s : State) : Host.Outcome State Fault Refusal :=
  answer .isRepresentableExact s (do let r ← representableExact s.fmt cap; pure (.predicate r))

/-- `IS_REPRESENTABLE_NEW_ADDR` (R211, R212). -/
def execIsRepresentableNewAddr (_isSealed : Bool) (base length cursor newCursor : Nat) (s : State) :
    Host.Outcome State Fault Refusal :=
  answer .isRepresentableNewAddr s
    (do let r ← representableNewAddr s.fmt base length cursor newCursor; pure (.predicate r))

/-- `GET_REPRESENTABLE_LENGTH` (R213). -/
def execGetRepresentableLength (length : Nat) (s : State) : Host.Outcome State Fault Refusal :=
  answer .getRepresentableLength s (do let g ← granuleOf s.fmt length; pure (.length (roundUp g length)))

/-- `GET_REQUIRED_ALIGNMENT` (R214). -/
def execGetRequiredAlignment (length : Nat) (s : State) : Host.Outcome State Fault Refusal :=
  answer .getRequiredAlignment s (do let g ← granuleOf s.fmt length; pure (.align (2 ^ g)))

/-- `GET_ALIGNMENT_MASK` (R215): `2^g - 1`, the source's polarity (90_conflicts.md C8). -/
def execGetAlignmentMask (length : Nat) (s : State) : Host.Outcome State Fault Refusal :=
  answer .getAlignmentMask s (do let g ← granuleOf s.fmt length; pure (.mask (ones g)))

end Sys2Proof.Machine
end

