-- ==== Sys2Proof/Machine/Builder.lean ====
section
/-!
DEFINITION. The capability builder's two operations (44_builder.md), composed of the encoder and the decoder.
-/

namespace Sys2Proof.Machine

/-- The record with the bounds the encoding represents, and the exactness flag (R240). The new bounds are decoded with
`req_base` as the hint; every other field is kept. -/
def setBounds (F : Fmt) (c : DecodedCap) (reqBase reqTop : Nat) : Except Cause (DecodedCap × Bool) := do
  let r ← computeEbt F reqBase reqTop
  let b := decodeBounds F r.ebt reqBase
  pure ({ c with base := b.base, top := b.top }, r.exact)

/-- The record of full authority before its bounds are set (R241). -/
def maxPermsSeed (F : Fmt) (cursor : Nat) : DecodedCap where
  address := cursor
  base := 0
  top := 2 ^ F.aw
  perms := F.permsAll
  uperms := F.upermsAll
  otype := F.otypeUnsealed
  flags := 0
  reserved := 0
  tag := true

/-- The record of full authority over `[base, top)`; cause 4 when the bounds are inexact (R241). -/
def maxPermsCap (F : Fmt) (base cursor top : Nat) : Except Cause DecodedCap := do
  let (c, exact) ← setBounds F (maxPermsSeed F cursor) base top
  if exact then pure c else .error .inexactBounds

/-- `SETBOUNDS` (R240). -/
def execSetBounds (cap : DecodedCap) (reqBase reqTop : Nat) (s : State) : Host.Outcome State Fault Refusal :=
  answer .setBounds s (do let x ← setBounds s.fmt cap reqBase reqTop; pure (.capExact x.1 x.2))

/-- `MAKE_MAX_PERMS_CAP` (R241). -/
def execMakeMaxPermsCap (base cursor top : Nat) (s : State) : Host.Outcome State Fault Refusal :=
  answer .makeMaxPermsCap s (do let c ← maxPermsCap s.fmt base cursor top; pure (.cap c))

end Sys2Proof.Machine
end

