-- ==== Sys2Proof/Machine/Dispatch.lean ====
section
/-! DEFINITION. One arm per instruction: the outcome of a request, evaluated completely in one step (R260, R294). -/

namespace Sys2Proof.Machine

def exec (i : Instr) (s : State) : Host.Outcome State Fault Refusal :=
  match i with
  | .compressRaw cap => Sys2Proof.Machine.execCompressRaw cap s
  | .decompressRaw word cursor tag => Sys2Proof.Machine.execDecompressRaw word cursor tag s
  | .compressMem cap => Sys2Proof.Machine.execCompressMem cap s
  | .decompressMem word cursor tag => Sys2Proof.Machine.execDecompressMem word cursor tag s
  | .encodeBounds base top => Sys2Proof.Machine.execEncodeBounds base top s
  | .decodeBounds word cursor => Sys2Proof.Machine.execDecodeBounds word cursor s
  | .extractBoundsBits word => Sys2Proof.Machine.execExtractBoundsBits word s
  | .getPerms word => Sys2Proof.Machine.execGetPerms word s
  | .setPerms word perms => Sys2Proof.Machine.execSetPerms word perms s
  | .getUperms word => Sys2Proof.Machine.execGetUperms word s
  | .setUperms word uperms => Sys2Proof.Machine.execSetUperms word uperms s
  | .getOtype word => Sys2Proof.Machine.execGetOtype word s
  | .setOtype word otype => Sys2Proof.Machine.execSetOtype word otype s
  | .getFlags word => Sys2Proof.Machine.execGetFlags word s
  | .setFlags word flags => Sys2Proof.Machine.execSetFlags word flags s
  | .getReserved word => Sys2Proof.Machine.execGetReserved word s
  | .setReserved word reserved => Sys2Proof.Machine.execSetReserved word reserved s
  | .isRepresentableExact cap => Sys2Proof.Machine.execIsRepresentableExact cap s
  | .isRepresentableNewAddr isSealed base length cursor newCursor => Sys2Proof.Machine.execIsRepresentableNewAddr isSealed base length cursor newCursor s
  | .getRepresentableLength length => Sys2Proof.Machine.execGetRepresentableLength length s
  | .getRequiredAlignment length => Sys2Proof.Machine.execGetRequiredAlignment length s
  | .getAlignmentMask length => Sys2Proof.Machine.execGetAlignmentMask length s
  | .setBounds cap reqBase reqTop => Sys2Proof.Machine.execSetBounds cap reqBase reqTop s
  | .makeMaxPermsCap base cursor top => Sys2Proof.Machine.execMakeMaxPermsCap base cursor top s

end Sys2Proof.Machine
end

