-- ==== Sys2Proof/Machine/Instantiate.lean ====
section
/-!
DEFINITION. Building a block (00_scope.md R13, 70_reset_and_hazards.md R290, R291): the descriptor's static constraints
are checked here, before any request.
-/

namespace Sys2Proof.Machine

/-- R13 (8): the null mask is the raw compression of the null capability (41_bounds_encoder.md R160). -/
def nullMaskOk (F : Fmt) : Bool :=
  match compressRaw F (nullCap F) with
  | .ok w => decide (w = F.nullXorMask)
  | .error _ => false

/-- The static constraints (1) to (8) of R13. -/
def validFmt (F : Fmt) : Bool := F.staticOk && nullMaskOk F

/-- The block of a descriptor, none for a descriptor that breaks a constraint (R291). -/
def instantiate (F : Fmt) : Option State := if validFmt F then some (State.fresh F) else none

/-- A reset asserted between two requests does nothing (R290, decision D16): there is no state to reset, and what the
requester still waits for or has received is the requester's. -/
def resetInput (s : State) : State := s

end Sys2Proof.Machine
end

