-- ==== Sys2Proof/Machine/Fetch.lean ====
section
/-!
DEFINITION. The request interface around `exec`: taking the oldest request, admitting it, and returning its outcome to
the requester (60_exceptions.md R260, R264, R266; 70_reset_and_hazards.md R294, R295). The descriptor is no part of the
interface (10_state.md R31).
-/

namespace Sys2Proof.Machine

/-- The oldest pending request and the interface without it; none when the requester has issued nothing (R294, R295). -/
def fetch (x : Interface) : Option (Request × Interface) :=
  match x.pending with
  | [] => none
  | r :: rest => some (r, { x with pending := rest })

/-- The instruction of a request. First an unassigned op is refused without reading the operands (R263, R264); then an
operand wider than its port is rejected (D20, assumption log 3). -/
def acceptRequest (F : Fmt) (r : Request) : Except Refusal Instr :=
  match decode r with
  | .error (.unassignedOp op) => .error (.unassignedOp op)
  | .ok i => if i.wf F then .ok i else .error (.operandTooWide i.op)

/-- The outcome of a request returned to the requester (R266): `Fault` and `Refused(op)` are responses in place of the
results, and the block goes on (R295, assumption log 4). A refusal that no requester can cause stops the model. -/
def deliver (x : Interface) (o : Host.Outcome Interface Fault Refusal) : Host.Outcome Interface Fault Refusal :=
  match o with
  | .next y => .next y
  | .fault (.preconditionViolated op cause) => .next (x.respond (.fault op cause))
  | .refused (.unassignedOp op) => .next (x.respond (.refused op))
  | .refused r => .refused r

/-- An outcome without its descriptor. -/
def dropFmt (o : Host.Outcome State Fault Refusal) : Host.Outcome Interface Fault Refusal :=
  match o with
  | .next t => .next t.toInterface
  | .fault f => .fault f
  | .refused r => .refused r

/-- An outcome on the interface as one of the block of the given descriptor. -/
def withFmt (F : Fmt) (o : Host.Outcome Interface Fault Refusal) : Host.Outcome State Fault Refusal :=
  match o with
  | .next x => .next (x.under F)
  | .fault f => .fault f
  | .refused r => .refused r

end Sys2Proof.Machine
end

