-- ==== Sys2Proof/Machine/Step.lean ====
section
/-!
DEFINITION. One step of the block: the oldest request evaluated completely and its outcome returned
(70_reset_and_hazards.md R294). The Format Descriptor is the parameter `F` of the step relation (10_state.md R31); `step` is
that relation at the descriptor which a state carries.
-/

namespace Sys2Proof.Machine

/-- An instruction under a descriptor, on the interface alone (R31). -/
def execUnder (F : Fmt) (i : Instr) (x : Interface) : Host.Outcome Interface Fault Refusal :=
  dropFmt (exec i (x.under F))

/-- The outcome of one request on an interface that no longer holds it (R260). -/
def evaluate (F : Fmt) (r : Request) (x : Interface) : Host.Outcome Interface Fault Refusal :=
  match acceptRequest F r with
  | .ok i => execUnder F i x
  | .error e => .refused e

/-- The step relation with its parameter, the Format Descriptor (R31). A descriptor that breaks R13 has no block and is
refused (R291, assumption log 9). With no request pending nothing happens (R295, assumption log 5). -/
def stepUnder (F : Fmt) (x : Interface) : Host.Outcome Interface Fault Refusal :=
  if validFmt F then
    match fetch x with
    | none => .next x
    | some (r, y) => deliver y (evaluate F r y)
  else .refused .invalidDescriptor

/-- One step: the step relation at the state's descriptor, which it leaves (R31, assumption log 1). -/
def step (s : State) : Host.Outcome State Fault Refusal := withFmt s.fmt (stepUnder s.fmt s.toInterface)

/-- `s` with the request of an opcode-table word as the oldest one pending, its operands zero. -/
def State.withFetchWord (s : State) (nbits w : Nat) : State :=
  { s with pending := tableRequest nbits w :: s.pending }

end Sys2Proof.Machine
end

