-- ==== Sys2Proof/Machine/MemForm.lean ====
section
/-!
DEFINITION. The whole capability as bits and as bytes outside the block (30_encoding.md R80, R81; 20_memory.md R61, R62). No
operation of the block uses this file: the block accesses no memory, and the byte layout is the argument `MEM_LAYOUT`.
-/

namespace Sys2Proof.Machine

/-- The `CAP_BITS`-bit capability as R81 numbers its bits: the word is the upper half, the cursor the lower one. The
numbering is independent of `MEM_LAYOUT` (93_implementation_defined.md section 2). -/
def capabilityBits (F : Fmt) (word cursor : Nat) : Nat := cat word F.aw cursor

/-- The bytes of a value of `n` bytes, least significant first. -/
def bytesLE : Nat → Nat → List (BitVec 8)
  | 0, _ => []
  | n + 1, v => BitVec.ofNat 8 v :: bytesLE n (v >>> 8)

/-- One half of a stored capability in the byte order of the layout. -/
def halfBytes (L : MemLayout) (F : Fmt) (v : Nat) : List (BitVec 8) :=
  if L.littleEndian then bytesLE (F.aw / 8) v else (bytesLE (F.aw / 8) v).reverse

/-- The bytes of a stored capability, lowest address first, under a memory layout. -/
def memoryImage (L : MemLayout) (F : Fmt) (word cursor : Nat) : List (BitVec 8) :=
  if L.cursorFirst then halfBytes L F cursor ++ halfBytes L F word
  else halfBytes L F word ++ halfBytes L F cursor

end Sys2Proof.Machine
end

