-- ==== Sys2Proof/Machine/Requester.lean ====
section
/-!
DEFINITION. The requester's side: programs of requests in the notation of 30_encoding.md R104 and R105, as abstract
syntax. The block keeps no place in a program (10_state.md R33); the requester binds the results of each request and
may use them in later ones, and a program ends when it issues no more requests (70_reset_and_hazards.md R295).
Names are numbered (assumption log 15).
-/

namespace Sys2Proof.Machine

/-- A value a requester holds: a number, a bit, a record or the bounds intermediate. -/
inductive Value where
  | num (n : Nat)
  | bit (b : Bool)
  | cap (c : DecodedCap)
  | bits (x : BoundsBits)
  deriving DecidableEq, Repr

/-- The fields of a bound record that R104's `name.field` selects. -/
inductive CapField where
  | address
  | base
  | top
  | perms
  | uperms
  | otype
  | flags
  | reserved
  | tag
  deriving DecidableEq, Repr

/-- An input of a request (R104): a literal, a bound name, or a field of a bound record. -/
inductive Input where
  | lit (v : Value)
  | name (x : Nat)
  | field (x : Nat) (f : CapField)
  deriving DecidableEq, Repr

/-- The operand ports by name (R101's operands column). -/
inductive Port where
  | cap
  | word
  | cursor
  | newCursor
  | tag
  | isSealed
  | base
  | top
  | reqBase
  | reqTop
  | length
  | perms
  | uperms
  | otype
  | flags
  | reserved
  deriving DecidableEq, Repr

/-- R101's operands of an operation, in their order. -/
def Op.inputs : Op → List Port
  | .compressRaw => [.cap]
  | .decompressRaw => [.word, .cursor, .tag]
  | .compressMem => [.cap]
  | .decompressMem => [.word, .cursor, .tag]
  | .encodeBounds => [.base, .top]
  | .decodeBounds => [.word, .cursor]
  | .extractBoundsBits => [.word]
  | .getPerms => [.word]
  | .setPerms => [.word, .perms]
  | .getUperms => [.word]
  | .setUperms => [.word, .uperms]
  | .getOtype => [.word]
  | .setOtype => [.word, .otype]
  | .getFlags => [.word]
  | .setFlags => [.word, .flags]
  | .getReserved => [.word]
  | .setReserved => [.word, .reserved]
  | .isRepresentableExact => [.cap]
  | .isRepresentableNewAddr => [.isSealed, .base, .length, .cursor, .newCursor]
  | .getRepresentableLength => [.length]
  | .getRequiredAlignment => [.length]
  | .getAlignmentMask => [.length]
  | .setBounds => [.cap, .reqBase, .reqTop]
  | .makeMaxPermsCap => [.base, .cursor, .top]

/-- One line of a program (R104, R105): a request by operation, the pseudo-operation `NULLCAP`, or a request by op value. -/
inductive Line where
  | request (op : Op) (outs : List Nat) (ins : List Input)
  | nullcap (out : Nat) (cursor : Input)
  | rawOp (code : BitVec 5)
  deriving DecidableEq, Repr

/-- What a requester has bound, newest first: a name means its first pair (DESIGN CHOICE, assumption log 15). -/
abbrev Bindings := List (Nat × Value)

/-- The value of a field of a record. -/
def CapField.value (c : DecodedCap) : CapField → Value
  | .address => .num c.address
  | .base => .num c.base
  | .top => .num c.top
  | .perms => .num c.perms
  | .uperms => .num c.uperms
  | .otype => .num c.otype
  | .flags => .num c.flags
  | .reserved => .num c.reserved
  | .tag => .bit c.tag

/-- The value of an input, none for a name that is not bound or has no such field. -/
def Input.value (env : Bindings) : Input → Option Value
  | .lit v => some v
  | .name x => env.lookup x
  | .field x f =>
    match env.lookup x with
    | some (.cap c) => some (f.value c)
    | _ => none

/-- A value read as a number; the numerals 0 and 1 and bits stand for each other. -/
def Value.toNum : Value → Option Nat
  | .num n => some n
  | .bit b => some b.toNat
  | _ => none

/-- A value read as a bit. -/
def Value.toBit : Value → Option Bool
  | .bit b => some b
  | .num 0 => some false
  | .num 1 => some true
  | _ => none

/-- A value read as a record. -/
def Value.toCap : Value → Option DecodedCap
  | .cap c => some c
  | _ => none

/-- Put a value on a port, none when it has not the port's type. -/
def Port.put (p : Operands) (v : Value) : Port → Option Operands
  | .cap => v.toCap.map fun c => { p with cap := c }
  | .word => v.toNum.map fun n => { p with word := n }
  | .cursor => v.toNum.map fun n => { p with cursor := n }
  | .newCursor => v.toNum.map fun n => { p with newCursor := n }
  | .tag => v.toBit.map fun b => { p with tag := b }
  | .isSealed => v.toBit.map fun b => { p with isSealed := b }
  | .base => v.toNum.map fun n => { p with base := n }
  | .top => v.toNum.map fun n => { p with top := n }
  | .reqBase => v.toNum.map fun n => { p with reqBase := n }
  | .reqTop => v.toNum.map fun n => { p with reqTop := n }
  | .length => v.toNum.map fun n => { p with length := n }
  | .perms => v.toNum.map fun n => { p with perms := n }
  | .uperms => v.toNum.map fun n => { p with uperms := n }
  | .otype => v.toNum.map fun n => { p with otype := n }
  | .flags => v.toNum.map fun n => { p with flags := n }
  | .reserved => v.toNum.map fun n => { p with reserved := n }

/-- Put the inputs on the ports of an operation in their order, none when their number or a type is wrong. -/
def putAll (env : Bindings) : List Port → List Input → Operands → Option Operands
  | [], [], p => some p
  | port :: ports, x :: xs, p => do
    let v ← x.value env
    let p' ← port.put p v
    putAll env ports xs p'
  | _, _, _ => none

/-- The request a line issues, none for a line that is no request (an unbound name, a wrong operand). `NULLCAP c <- cursor` is
`DECOMPRESS_MEM c <- 0x0, cursor, 0` (R105). A line by op value has no operands: the spec writes one only for 0x07
(95_test_vectors.md P4), which is refused on the op alone. DESIGN CHOICE (assumption log 15): with an assigned code it issues
that operation with every operand zero, and `Line.outs` gives it no name to bind. -/
def Line.toRequest (env : Bindings) : Line → Option Request
  | .request op _ ins => do
    let p ← putAll env (Op.inputs op) ins Operands.zero
    pure ⟨op.code, p⟩
  | .nullcap _ cursor => do
    let p ← putAll env (Op.inputs .decompressMem) [.lit (.num 0), cursor, .lit (.bit false)] Operands.zero
    pure ⟨Op.decompressMem.code, p⟩
  | .rawOp code => some ⟨code, Operands.zero⟩

/-- The names a line binds, in the order of the results. -/
def Line.outs : Line → List Nat
  | .request _ outs _ => outs
  | .nullcap out _ => [out]
  | .rawOp _ => []

/-- The results of an operation as values, in the order of R101's results column. -/
def resultValues : Results → List Value
  | .word w => [.num w]
  | .cap c => [.cap c]
  | .ebt r => [.num r.ebt, .bit r.exact, .num r.g]
  | .bounds b => [.num b.base, .num b.top]
  | .boundsBits x => [.bits x]
  | .perms v => [.num v]
  | .uperms v => [.num v]
  | .otype v => [.num v]
  | .flags v => [.num v]
  | .reserved v => [.num v]
  | .predicate r => [.bit r]
  | .length l => [.num l]
  | .align a => [.num a]
  | .mask m => [.num m]
  | .capExact c exact => [.cap c, .bit exact]

/-- What a response binds: its results, and nothing for a fault or a refusal. DESIGN CHOICE (assumption log 15): on a line with
more or fewer names than the operation has results, of which R104 says nothing, names and results are paired in order as far
as both go, and the rest of either is left. DESIGN CHOICE (assumption log 15): a name bound a second time, of which R104 and
R295 say nothing, keeps its older pair in the list and means the newer value, `lookup` taking the newest; of one name given
twice on a line the later result is the newer. -/
def bindResponse (outs : List Nat) (r : Response) (env : Bindings) : Bindings :=
  match r with
  | .ok results => (outs.zip (resultValues results)).reverse ++ env
  | .fault _ _ => env
  | .refused _ => env

/-- Run one line on a block of the given format: issue the request, take one step, bind the response. -/
def runLine (F : Fmt) (line : Line) (env : Bindings) : Option Bindings := do
  let r ← line.toRequest env
  match stepUnder F ⟨[r], []⟩ with
  | .next x => do
    let response ← x.responses.getLast?
    pure (bindResponse line.outs response env)
  | .fault _ => none
  | .refused _ => none

/-- Run a program from what is bound (R295): its end state is the set of values bound, for a name bound
twice the newest (assumption log 15). -/
def runProgram (F : Fmt) : List Line → Bindings → Option Bindings
  | [], env => some env
  | line :: rest, env => do
    let env' ← runLine F line env
    runProgram F rest env'

/-! ### The written form of a program line (R104) -/

/-- R101's mnemonic of an operation. -/
def Op.mnemonic : Op → String
  | .compressRaw => "COMPRESS_RAW"
  | .decompressRaw => "DECOMPRESS_RAW"
  | .compressMem => "COMPRESS_MEM"
  | .decompressMem => "DECOMPRESS_MEM"
  | .encodeBounds => "ENCODE_BOUNDS"
  | .decodeBounds => "DECODE_BOUNDS"
  | .extractBoundsBits => "EXTRACT_BOUNDS_BITS"
  | .getPerms => "GET_PERMS"
  | .setPerms => "SET_PERMS"
  | .getUperms => "GET_UPERMS"
  | .setUperms => "SET_UPERMS"
  | .getOtype => "GET_OTYPE"
  | .setOtype => "SET_OTYPE"
  | .getFlags => "GET_FLAGS"
  | .setFlags => "SET_FLAGS"
  | .getReserved => "GET_RESERVED"
  | .setReserved => "SET_RESERVED"
  | .isRepresentableExact => "IS_REPRESENTABLE_EXACT"
  | .isRepresentableNewAddr => "IS_REPRESENTABLE_NEW_ADDR"
  | .getRepresentableLength => "GET_REPRESENTABLE_LENGTH"
  | .getRequiredAlignment => "GET_REQUIRED_ALIGNMENT"
  | .getAlignmentMask => "GET_ALIGNMENT_MASK"
  | .setBounds => "SETBOUNDS"
  | .makeMaxPermsCap => "MAKE_MAX_PERMS_CAP"

/-- A hexadecimal numeral. -/
def hexText (n : Nat) : String := "0x" ++ String.ofList (Nat.toDigits 16 n)

/-- A single bit as a numeral. -/
def bitText (b : Bool) : String := if b then "1" else "0"

/-- A numbered name. -/
def nameText (x : Nat) : String := "v" ++ String.ofList (Nat.toDigits 10 x)

/-- Texts separated by commas. -/
def commaText (xs : List String) : String := ", ".intercalate xs

/-- A `name=value` list in braces, R104's record literal; the braces are written by their character codes. -/
def recordText (fields : List (String × String)) : String :=
  String.singleton (Char.ofNat 123) ++ commaText (fields.map fun f => f.1 ++ "=" ++ f.2) ++ String.singleton (Char.ofNat 125)

/-- The literal of a record (R104). -/
def capText (c : DecodedCap) : String :=
  recordText [("address", hexText c.address), ("base", hexText c.base), ("top", hexText c.top), ("perms", hexText c.perms),
    ("uperms", hexText c.uperms), ("otype", hexText c.otype), ("flags", hexText c.flags),
    ("reserved", hexText c.reserved), ("tag", bitText c.tag)]

/-- A literal value. -/
def Value.text : Value → String
  | .num n => hexText n
  | .bit b => bitText b
  | .cap c => capText c
  | .bits x => recordText [("IE", bitText x.ie), ("E", hexText x.e), ("B", hexText x.b), ("T", hexText x.t)]

/-- The name of a record's field. -/
def CapField.text : CapField → String
  | .address => "address"
  | .base => "base"
  | .top => "top"
  | .perms => "perms"
  | .uperms => "uperms"
  | .otype => "otype"
  | .flags => "flags"
  | .reserved => "reserved"
  | .tag => "tag"

/-- An input: a literal, a name, or a name and a field. -/
def Input.text : Input → String
  | .lit v => v.text
  | .name x => nameText x
  | .field x f => nameText x ++ "." ++ f.text

/-- A line as R104 writes it, `MNEMONIC outs <- ins`; a request by op value is written as 95_test_vectors.md P4 does. -/
def Line.text : Line → String
  | .request op outs ins => Op.mnemonic op ++ " " ++ commaText (outs.map nameText) ++ " <- " ++ commaText (ins.map Input.text)
  | .nullcap out cursor => "NULLCAP " ++ nameText out ++ " <- " ++ cursor.text
  | .rawOp code => "op " ++ hexText code.toNat

end Sys2Proof.Machine
end

