-- ==== Sys2Proof/Safety.lean ====
section
/-!
DEFINITION. What counts as a sound state of the model, what a request's domain is and when a request ends in a fault, in the
terms the statements use.
-/

namespace Sys2Proof

/-- A base and a top as operands in the domain of the bounds operations: `base ≤ top ≤ 2^AW`, the base a value of its port
(60_exceptions.md R262, 30_encoding.md R101). -/
def InDomain (F : Fmt) (base top : Nat) : Prop := base < 2 ^ F.aw ∧ base ≤ top ∧ top ≤ 2 ^ F.aw

/-- The request is one a requester can present: if its op is assigned, its operands have the widths of their ports
(92_eei_decisions.md D20). -/
def Request.presentable (F : Fmt) (r : Request) : Prop :=
  ∀ i, decode r = .ok i → i.wf F = true

namespace Machine

/-- The state after a request that was answered with results: one response more, and nothing else changed. -/
def State.answered (s : State) (r : Results) : State := { s with responses := s.responses ++ [.ok r] }

/-- Every value a response carries has the width of its port (30_encoding.md R101). -/
def Response.fits (F : Fmt) : Response → Bool
  | .ok r => r.fits F
  | .fault _ _ => true
  | .refused _ => true

/-- The block exists (70_reset_and_hazards.md R291) and every response it has returned has the widths of its ports. -/
def State.Sound (s : State) : Prop :=
  validFmt s.fmt = true ∧ ∀ r ∈ s.responses, r.fits s.fmt = true

/-- Outside `base ≤ top ≤ 2^AW`. -/
def outOfBounds (F : Fmt) (base top : Nat) : Bool := decide (top < base) || decide (2 ^ F.aw < top)

/-- The encoding of the bounds, decoded with a cursor, gives the bounds back. -/
def decodesFrom (F : Fmt) (base top cursor : Nat) : Bool :=
  decide (decodeBounds F (ebtOf F base top).ebt cursor = ⟨base, top⟩)

/-- What a setter of a field must answer: a word of its width in which exactly the field's bits are the operand's, whose
bounds are those of the old word, and which is the old word when the field already held the value. -/
def setsField (F : Fmt) (f : Field) (w v w' : Nat) : Prop :=
  w' < 2 ^ F.aw ∧ (∀ k, w'.testBit k = if f.contains k then v.testBit (k - f.lo) else w.testBit k) ∧
  (∀ cursor, decodeBounds F w' cursor = decodeBounds F w cursor) ∧ (v = getf w f → w' = w)

/-- The table of R262 with the priority of R264: the cause an instruction faults with, if any. -/
def faultCause (F : Fmt) : Instr → Option Cause
  | .compressRaw cap => if outOfBounds F cap.base cap.top then some .bounds else none
  | .compressMem cap => if outOfBounds F cap.base cap.top then some .bounds else none
  | .encodeBounds base top => if outOfBounds F base top then some .bounds else none
  | .isRepresentableExact cap => if outOfBounds F cap.base cap.top then some .bounds else none
  | .setBounds _ reqBase reqTop => if outOfBounds F reqBase reqTop then some .bounds else none
  | .makeMaxPermsCap base _ top =>
    if outOfBounds F base top then some .bounds
    else if (ebtOf F base top).exact then none else some .inexactBounds
  | .isRepresentableNewAddr _ base length cursor _ =>
    if 2 ^ F.aw < base + length then some .bounds
    else if decodesFrom F base (base + length) cursor then none else some .notRepresentable
  | .getRepresentableLength length => if 2 ^ F.aw < length then some .length else none
  | .getRequiredAlignment length => if 2 ^ F.aw < length then some .length else none
  | .getAlignmentMask length => if 2 ^ F.aw < length then some .length else none
  | .decompressRaw _ _ _ => none
  | .decompressMem _ _ _ => none
  | .decodeBounds _ _ => none
  | .extractBoundsBits _ => none
  | .getPerms _ => none
  | .setPerms _ _ => none
  | .getUperms _ => none
  | .setUperms _ _ => none
  | .getOtype _ => none
  | .setOtype _ _ => none
  | .getFlags _ => none
  | .setFlags _ _ => none
  | .getReserved _ => none
  | .setReserved _ _ => none

end Machine

end Sys2Proof
end

