-- ==== Sys2Proof/Certificates/Slice0/Obligations.lean ====
section
/-!
DEFINITION. The statements for the provers. Every one is about the machine of a descriptor that satisfies the static
constraints of 00_scope.md R13 (CC128 and CC64 among them) unless it says otherwise.
-/

open Sys2Proof Sys2Proof.Machine

/-! ## The interface: decoding, stepping, the frame of every instruction -/

/-- R101, R103: decoding undoes encoding for every instruction, and an instruction is read from a request with that op code, its
operands from the ports its operation names. -/
def Obligations.DecodeUndoesEncode : Prop :=
  (∀ i : Instr, decode (encode i) = .ok i) ∧
  (∀ (r : Request) (i : Instr), decode r = .ok i → (encode i).op = r.op ∧ i = i.op.withOperands r.operands)

/-- 30_encoding.md R101, R102: the op words of all 24 rows of the table, written out, decode to their instructions, and the eight
unassigned words, 0x07 and 0x19 to 0x1F, to none. The operands are those of a table word, zero (log entry 7). -/
def Obligations.OpcodeWordsDecode : Prop :=
  decodeTableWord 8 0b00000 = some (.compressRaw DecodedCap.zero) ∧
  decodeTableWord 8 0b00001 = some (.decompressRaw 0 0 false) ∧
  decodeTableWord 8 0b00010 = some (.compressMem DecodedCap.zero) ∧
  decodeTableWord 8 0b00011 = some (.decompressMem 0 0 false) ∧
  decodeTableWord 8 0b00100 = some (.encodeBounds 0 0) ∧
  decodeTableWord 8 0b00101 = some (.decodeBounds 0 0) ∧
  decodeTableWord 8 0b00110 = some (.extractBoundsBits 0) ∧
  decodeTableWord 8 0b01000 = some (.getPerms 0) ∧
  decodeTableWord 8 0b01001 = some (.setPerms 0 0) ∧
  decodeTableWord 8 0b01010 = some (.getUperms 0) ∧
  decodeTableWord 8 0b01011 = some (.setUperms 0 0) ∧
  decodeTableWord 8 0b01100 = some (.getOtype 0) ∧
  decodeTableWord 8 0b01101 = some (.setOtype 0 0) ∧
  decodeTableWord 8 0b01110 = some (.getFlags 0) ∧
  decodeTableWord 8 0b01111 = some (.setFlags 0 0) ∧
  decodeTableWord 8 0b10000 = some (.getReserved 0) ∧
  decodeTableWord 8 0b10001 = some (.setReserved 0 0) ∧
  decodeTableWord 8 0b10010 = some (.isRepresentableExact DecodedCap.zero) ∧
  decodeTableWord 8 0b10011 = some (.isRepresentableNewAddr false 0 0 0 0) ∧
  decodeTableWord 8 0b10100 = some (.getRepresentableLength 0) ∧
  decodeTableWord 8 0b10101 = some (.getRequiredAlignment 0) ∧
  decodeTableWord 8 0b10110 = some (.getAlignmentMask 0) ∧
  decodeTableWord 8 0b10111 = some (.setBounds DecodedCap.zero 0 0) ∧
  decodeTableWord 8 0b11000 = some (.makeMaxPermsCap 0 0 0) ∧
  decodeTableWord 8 0b00111 = none ∧ decodeTableWord 8 0b11001 = none ∧ decodeTableWord 8 0b11010 = none ∧
  decodeTableWord 8 0b11011 = none ∧ decodeTableWord 8 0b11100 = none ∧ decodeTableWord 8 0b11101 = none ∧
  decodeTableWord 8 0b11110 = none ∧ decodeTableWord 8 0b11111 = none

/-- R102, R263: exactly the codes 0x07 and 0x19 to 0x1F are refused, on the op alone whatever the operands; the requester
receives `Refused(op)` and nothing else changes. No other request a requester can present is refused. -/
def Obligations.UnassignedOpsAreRefused : Prop :=
  ∀ (s : State) (r : Request) (rest : List Request), validFmt s.fmt = true → s.pending = r :: rest →
    ((r.op = 0x07#5 ∨ 0x19#5 ≤ r.op) →
      step s = .next { s with pending := rest, responses := s.responses ++ [.refused r.op] }) ∧
    (¬ (r.op = 0x07#5 ∨ 0x19#5 ≤ r.op) → r.presentable s.fmt →
      ∃ t resp, step s = .next t ∧ t.responses = s.responses ++ [resp] ∧ ∀ op, resp ≠ .refused op)

/-- R294, R266: a step takes the oldest request and runs the instruction it decodes to on the state without the request; its
next state is the step's, and a fault is returned to the requester as the one new response. -/
def Obligations.StepRunsDecodedInstruction : Prop :=
  ∀ (s : State) (r : Request) (rest : List Request) (i : Instr), validFmt s.fmt = true →
    s.pending = r :: rest → decode r = .ok i → i.wf s.fmt = true →
    (∀ t, exec i { s with pending := rest } = .next t → step s = .next t) ∧
    (∀ op c, exec i { s with pending := rest } = .fault (.preconditionViolated op c) →
      step s = .next { s with pending := rest, responses := s.responses ++ [.fault op c] })

/-- The request that `withFetchWord` puts in front is the one the next step evaluates, in the state as it was
(log entry 8: how a program comes to run). -/
def Obligations.FetchWordRunsNext : Prop :=
  ∀ (s : State) (nbits w : Nat) (i : Instr), validFmt s.fmt = true → decodeTableWord nbits w = some i →
    (∀ t, exec i s = .next t → step (s.withFetchWord nbits w) = .next t) ∧
    (∀ op c, exec i s = .fault (.preconditionViolated op c) →
      step (s.withFetchWord nbits w) = .next { s with responses := s.responses ++ [.fault op c] })

/-- R260: the frame of every instruction. Its next state has one response more, with results, and the descriptor, the
requests still pending and the responses already returned are unchanged; a fault names the instruction's own operation;
no instruction is refused. -/
def Obligations.ExecChangesOnlyTheResponses : Prop :=
  ∀ (i : Instr) (s : State),
    (∃ r : Results, exec i s = .next { s with responses := s.responses ++ [.ok r] }) ∨
    (∃ c : Cause, exec i s = .fault (.preconditionViolated i.op c))

/-- R30, R292: the outcome of a request depends on its instruction and the descriptor alone, and on nothing earlier: in two
states with one descriptor it gives the same results or the same fault. -/
def Obligations.OutcomeDependsOnRequestAndFormatOnly : Prop :=
  ∀ (i : Instr) (s t : State), s.fmt = t.fmt →
    (∀ r : Results, exec i s = .next (s.answered r) → exec i t = .next (t.answered r)) ∧
    (∀ f : Fault, exec i s = .fault f → exec i t = .fault f)

/-- R67: two pending requests may be evaluated in either order: each gets the same response. -/
def Obligations.RequestOrderIsNotObservable : Prop :=
  ∀ (s : State) (r₁ r₂ : Request) (rest : List Request), validFmt s.fmt = true →
    r₁.presentable s.fmt → r₂.presentable s.fmt →
    ∃ a₁ a₂ : Response,
      core.run 2 { s with pending := r₁ :: r₂ :: rest }
        = .next { s with pending := rest, responses := s.responses ++ [a₁, a₂] } ∧
      core.run 2 { s with pending := r₂ :: r₁ :: rest }
        = .next { s with pending := rest, responses := s.responses ++ [a₂, a₁] }

/-- R260, R294, R295: the block never halts. A pending request that can be presented takes one step and gets exactly one
response; with none pending nothing changes (log entry 5). -/
def Obligations.BlockNeverHalts : Prop :=
  ∀ s : State, validFmt s.fmt = true → (∀ r ∈ s.pending, r.presentable s.fmt) →
    (s.pending = [] → step s = .next s) ∧
    (∀ r rest, s.pending = r :: rest →
      ∃ resp : Response, step s = .next { s with pending := rest, responses := s.responses ++ [resp] })

/-- 92_eei_decisions.md D20: a request whose operand is wider than its port is rejected by name and never truncated
(log entry 3). -/
def Obligations.WideOperandsAreRejected : Prop :=
  ∀ (s : State) (r : Request) (rest : List Request) (i : Instr), validFmt s.fmt = true → s.pending = r :: rest →
    decode r = .ok i → i.wf s.fmt = false → step s = .refused (.operandTooWide i.op)

/-- R105: `NULLCAP` is a spelling of `DECOMPRESS_MEM` of the all-zero word with tag 0. -/
def Obligations.NullcapIsDecompressMem : Prop :=
  ∀ (env : Bindings) (out cursor : Nat),
    Line.toRequest env (.nullcap out (.lit (.num cursor))) = some (encode (.decompressMem 0 cursor false)) ∧
    (Line.nullcap out (.lit (.num cursor))).outs = [out]

/-- R262, R264: an instruction faults exactly as the table of causes says, with the first cause that applies. -/
def Obligations.FaultsAreExactlyTheTable : Prop :=
  ∀ (i : Instr) (s : State) (op : Op) (c : Cause),
    exec i s = .fault (.preconditionViolated op c) ↔ op = i.op ∧ faultCause s.fmt i = some c

/-- 10_state.md R49: no output before the first request. That the block is CC128 (log entry 1) and that no request is waiting
(log entry 2) are the model's choices. -/
def Obligations.SoundAtReset : Prop :=
  State.reset.Sound ∧ State.reset.responses = [] ∧ State.reset.pending = [] ∧ State.reset.fmt = cc128

/-- 30_encoding.md R101, 10_state.md R31: from every sound state a step keeps soundness: the descriptor stays, and every
result has the width of its port. -/
def Obligations.StepKeepsSoundness : Prop :=
  ∀ s t : State, s.Sound → step s = .next t → t.Sound ∧ t.fmt = s.fmt

/-- 00_scope.md R13, 70_reset_and_hazards.md R291: a block exists only for a descriptor that meets the eight static constraints;
both reference descriptors do; a state with another descriptor never runs. That its step is refused as `invalidDescriptor` is
the model's inference (log entry 9), and so are the further constraints that `instantiate` checks, the place of the bounds
subfield and R11's widths (log entry 12). -/
def Obligations.BlockExistsOnlyForValidDescriptor : Prop :=
  (∀ (F : Fmt) (s : State), instantiate F = some s →
    s.fmt = F ∧ F.mw ≤ F.aw ∧ (F.el = F.eh ∧ F.el + F.eh = F.expW) ∧ (F.el < F.mw - 2 ∧ F.eh < F.mw - 2) ∧
    F.maxE = F.aw - F.mw + 2 ∧ F.maxE ≤ 2 ^ F.expW - 1 ∧
    F.uperms.width + F.hwperms.width + F.reserved.width + F.flags.width + F.otype.width + F.ebtW = F.aw ∧
    (∀ k, (F.fields.filter fun f => f.contains k).length = if k < F.aw then 1 else 0) ∧
    compressRaw F (nullCap F) = .ok F.nullXorMask) ∧
  (instantiate cc128 = some (State.fresh cc128) ∧ instantiate cc64 = some (State.fresh cc64)) ∧
  (∀ s : State, instantiate s.fmt = none → step s = .refused .invalidDescriptor)

/-- 10_state.md R31: the Format Descriptor is a parameter of the step relation and not written by any operation: what a state
does is what its interface does under its descriptor, for every instruction and for the step, and the descriptor stays.
That a state carries the parameter's value is the model's choice (log entry 1). -/
def Obligations.FormatIsAParameterOfTheStep : Prop :=
  ∀ (F : Fmt) (x : Interface),
    (∀ i : Instr, exec i (x.under F) = withFmt F (execUnder F i x)) ∧
    step (x.under F) = withFmt F (stepUnder F x) ∧
    (∀ (i : Instr) (t : State), exec i (x.under F) = .next t → t.fmt = F) ∧
    (∀ t : State, step (x.under F) = .next t → t.fmt = F)

/-! ## The field codec -/

/-- R81: the CC128 layout, bit by bit, in the word and (third column) in the 128-bit capability. -/
def Obligations.Cc128Layout : Prop :=
  ∀ w c : Nat, w < 2 ^ 64 → c < 2 ^ 64 →
    getf w cc128.uperms = w / 2 ^ 60 ∧ getf w cc128.hwperms = w / 2 ^ 48 % 2 ^ 12 ∧
    getf w cc128.reserved = w / 2 ^ 46 % 4 ∧ getf w cc128.flags = w / 2 ^ 45 % 2 ∧
    getf w cc128.otype = w / 2 ^ 27 % 2 ^ 18 ∧ getf w cc128.ie = w / 2 ^ 26 % 2 ∧
    getf w cc128.t = w / 2 ^ 14 % 2 ^ 12 ∧ getf w cc128.b = w % 2 ^ 14 ∧ cc128.ebtW = 27 ∧
    (w / 2 ^ 26 % 2 = 1 →
      (extractBoundsBits cc128 w).e = (w / 2 ^ 14 % 8) * 8 + w % 8 ∧
      (extractBoundsBits cc128 w).b = (w / 8 % 2 ^ 11) * 8 ∧
      (extractBoundsBits cc128 w).t % 2 ^ 12 = (w / 2 ^ 17 % 2 ^ 9) * 8) ∧
    capabilityBits cc128 w c / 2 ^ 64 = w ∧ capabilityBits cc128 w c % 2 ^ 64 = c

/-- R82: the CC64 layout, bit by bit; `UPERMS` and `RESERVED` have no bits. -/
def Obligations.Cc64Layout : Prop :=
  ∀ w c : Nat, w < 2 ^ 32 → c < 2 ^ 32 →
    getf w cc64.hwperms = w / 2 ^ 20 ∧ getf w cc64.uperms = 0 ∧ getf w cc64.reserved = 0 ∧
    getf w cc64.flags = w / 2 ^ 19 % 2 ∧ getf w cc64.otype = w / 2 ^ 15 % 16 ∧
    getf w cc64.ie = w / 2 ^ 14 % 2 ∧ getf w cc64.t = w / 2 ^ 8 % 64 ∧ getf w cc64.b = w % 256 ∧
    (w / 2 ^ 14 % 2 = 1 →
      (extractBoundsBits cc64 w).e = (w / 2 ^ 8 % 8) * 8 + w % 8 ∧
      (extractBoundsBits cc64 w).b = (w / 8 % 2 ^ 5) * 8 ∧
      (extractBoundsBits cc64 w).t % 64 = (w / 2 ^ 11 % 8) * 8) ∧
    capabilityBits cc64 w c / 2 ^ 32 = w ∧ capabilityBits cc64 w c % 2 ^ 32 = c

/-- R120, R121: extraction reads and insertion writes exactly the field's bits, bit by bit; a field of width 0 reads as 0
and its insertion changes nothing. -/
def Obligations.FieldBitsAreReadAndWrittenExactly : Prop :=
  ∀ (f : Field) (w v k : Nat), v < 2 ^ f.width →
    (getf w f).testBit k = (decide (k < f.width) && w.testBit (f.lo + k)) ∧
    (setf w f v).testBit k = (if f.contains k then v.testBit (k - f.lo) else w.testBit k) ∧
    (f.width = 0 → getf w f = 0 ∧ setf w f v = w)

/-- R135: the round-trip laws of the codec, for every field of the word, the bounds fields included. -/
def Obligations.FieldInsertExtractLaws : Prop :=
  ∀ F : Fmt, validFmt F = true → ∀ f ∈ F.fields, ∀ w v : Nat, v < 2 ^ f.width →
    getf (setf w f v) f = v ∧ (∀ g ∈ F.fields, g ≠ f → getf (setf w f v) g = getf w g) ∧
    setf w f (getf w f) = w

/-- R124, R126, R128, R130, R132: every getter completes on every word and returns its field; in CC64 the absent fields
read as 0; the all-zero word has object type 0 in raw form and the unsealed object type in mem form. -/
def Obligations.GettersReturnTheirField : Prop :=
  ∀ (s : State) (w : Nat),
    exec (.getPerms w) s = .next (s.answered (.perms (getf w s.fmt.hwperms))) ∧
    exec (.getUperms w) s = .next (s.answered (.uperms (getf w s.fmt.uperms))) ∧
    exec (.getOtype w) s = .next (s.answered (.otype (getf w s.fmt.otype))) ∧
    exec (.getFlags w) s = .next (s.answered (.flags (getf w s.fmt.flags))) ∧
    exec (.getReserved w) s = .next (s.answered (.reserved (getf w s.fmt.reserved))) ∧
    (s.fmt = cc64 → exec (.getUperms w) s = .next (s.answered (.uperms 0)) ∧
      exec (.getReserved w) s = .next (s.answered (.reserved 0))) ∧
    exec (.getOtype 0) s = .next (s.answered (.otype 0)) ∧
    (validFmt s.fmt = true →
      exec (.getOtype s.fmt.nullXorMask) s = .next (s.answered (.otype (2 ^ s.fmt.otype.width - 1))))

/-- R125, R127, R129, R131, R133: every setter completes on every word and value of its field's width, replaces exactly that
field and leaves the bounds unchanged. -/
def Obligations.SettersReplaceTheirField : Prop :=
  ∀ (s : State) (w v : Nat), validFmt s.fmt = true → w < 2 ^ s.fmt.aw →
    (v < 2 ^ s.fmt.hwperms.width →
      ∃ w', exec (.setPerms w v) s = .next (s.answered (.word w')) ∧ setsField s.fmt s.fmt.hwperms w v w') ∧
    (v < 2 ^ s.fmt.uperms.width →
      ∃ w', exec (.setUperms w v) s = .next (s.answered (.word w')) ∧ setsField s.fmt s.fmt.uperms w v w') ∧
    (v < 2 ^ s.fmt.otype.width →
      ∃ w', exec (.setOtype w v) s = .next (s.answered (.word w')) ∧ setsField s.fmt s.fmt.otype w v w') ∧
    (v < 2 ^ s.fmt.flags.width →
      ∃ w', exec (.setFlags w v) s = .next (s.answered (.word w')) ∧ setsField s.fmt s.fmt.flags w v w') ∧
    (v < 2 ^ s.fmt.reserved.width →
      ∃ w', exec (.setReserved w v) s = .next (s.answered (.word w')) ∧ setsField s.fmt s.fmt.reserved w v w')

/-! ## The bounds encoder -/

/-- R150: the exponent of a length: the formula, its two equivalent forms, its range, and when it is `MAX_E`. -/
def Obligations.ExponentSelection : Prop :=
  ∀ (F : Fmt) (L : Nat), validFmt F = true → L ≤ 2 ^ F.aw →
    (L / 2 ^ (F.mw - 1) = 0 → getExponent F L = 0) ∧
    (L / 2 ^ (F.mw - 1) ≠ 0 → getExponent F L = Nat.log2 (L / 2 ^ (F.mw - 1)) + 1) ∧
    getExponent F L = F.maxE - clz F.maxE (slice F.aw (F.mw - 1) L) ∧
    (2 ^ (F.mw - 1) ≤ L → getExponent F L + (F.mw - 2) = Nat.log2 L) ∧
    getExponent F L ≤ F.maxE ∧ (getExponent F L = F.maxE ↔ L = 2 ^ F.aw)

/-- R151: `ENCODE_BOUNDS` completes on its domain, and the stored form is `IE = 0` exactly for lengths below `2^(MW-2)`, all of
which are exact. -/
def Obligations.FormSelection : Prop :=
  ∀ (s : State) (base top : Nat), validFmt s.fmt = true → InDomain s.fmt base top →
    ∃ r : EbtResult, exec (.encodeBounds base top) s = .next (s.answered (.ebt r)) ∧
      (extractBoundsBits s.fmt r.ebt).ie
        = (decide (getExponent s.fmt (top - base) ≠ 0) || (top - base).testBit (s.fmt.mw - 2)) ∧
      ((extractBoundsBits s.fmt r.ebt).ie = false ↔ top - base < 2 ^ (s.fmt.mw - 2)) ∧
      (top - base < 2 ^ (s.fmt.mw - 2) → r.exact = true)

/-- R152: `compute_ebt` whole. In the form `IE = 0` the fields are the low bits of the two bounds. In the form `IE = 1` the stored
exponent is the exponent `E` of the length (R150), and `E + 1` exactly when the length rounded outward at `E` overflows the
mantissa; the mantissas are base rounded down and top rounded up at the granule of the stored exponent. Outside the domain it
faults with cause 1. -/
def Obligations.EncodedWordBitByBit : Prop :=
  ∀ (s : State) (base top E k e g : Nat), validFmt s.fmt = true →
    E = getExponent s.fmt (top - base) → k = E + s.fmt.el →
    e = (if base / 2 ^ k + 2 ^ (s.fmt.mw - s.fmt.el - 1) ≤ (top + 2 ^ k - 1) / 2 ^ k then E + 1 else E) →
    g = e + s.fmt.el →
    (InDomain s.fmt base top → top - base < 2 ^ (s.fmt.mw - 2) →
      exec (.encodeBounds base top) s = .next (s.answered (.ebt
        { ebt := top % 2 ^ (s.fmt.mw - 2) * 2 ^ s.fmt.mw + base % 2 ^ s.fmt.mw, exact := true, g := 0 }))) ∧
    (InDomain s.fmt base top → 2 ^ (s.fmt.mw - 2) ≤ top - base →
      exec (.encodeBounds base top) s = .next (s.answered (.ebt
        { ebt := 2 ^ (2 * s.fmt.mw - 2)
            + ((top + 2 ^ g - 1) / 2 ^ g % 2 ^ (s.fmt.mw - 2 - s.fmt.el) * 2 ^ s.fmt.eh + e / 2 ^ s.fmt.el) * 2 ^ s.fmt.mw
            + (base / 2 ^ g % 2 ^ (s.fmt.mw - s.fmt.el) * 2 ^ s.fmt.el + e % 2 ^ s.fmt.el),
          exact := decide (base % 2 ^ g = 0 ∧ top % 2 ^ g = 0), g := g }))) ∧
    (base > top ∨ top > 2 ^ s.fmt.aw →
      exec (.encodeBounds base top) s = .fault (.preconditionViolated .encodeBounds .bounds))

/-- R161: the encoder never fails on its domain; it sets no bit outside the bounds subfield, the stored exponent is at most
`MAX_E`, and it is `MAX_E` only where the represented region is the whole space. -/
def Obligations.EncoderIsTotalAndInRange : Prop :=
  ∀ (s : State) (base top : Nat), validFmt s.fmt = true → InDomain s.fmt base top →
    ∃ r : EbtResult, exec (.encodeBounds base top) s = .next (s.answered (.ebt r)) ∧
      r.ebt < 2 ^ s.fmt.ebtW ∧ (extractBoundsBits s.fmt r.ebt).e ≤ s.fmt.maxE ∧
      ((extractBoundsBits s.fmt r.ebt).e = s.fmt.maxE → decodeBounds s.fmt r.ebt base = ⟨0, 2 ^ s.fmt.aw⟩)

/-- R153: rounding is outward. -/
def Obligations.RoundingIsOutward : Prop :=
  ∀ (s : State) (base top : Nat), validFmt s.fmt = true → InDomain s.fmt base top →
    ∃ (r : EbtResult) (b : Bounds), exec (.encodeBounds base top) s = .next (s.answered (.ebt r)) ∧
      exec (.decodeBounds r.ebt base) s = .next (s.answered (.bounds b)) ∧ b.base ≤ base ∧ top ≤ b.top

/-- R152, R155: the represented bounds are base rounded down and top rounded up to multiples of the granule `2^g`, and no
others. -/
def Obligations.RepresentedBoundsAreGranuleMultiples : Prop :=
  ∀ (s : State) (base top : Nat), validFmt s.fmt = true → InDomain s.fmt base top →
    ∃ r : EbtResult, exec (.encodeBounds base top) s = .next (s.answered (.ebt r)) ∧
      exec (.decodeBounds r.ebt base) s
        = .next (s.answered (.bounds ⟨base / 2 ^ r.g * 2 ^ r.g, (top + 2 ^ r.g - 1) / 2 ^ r.g * 2 ^ r.g⟩))

/-- R154: `exact` says that both bounds are multiples of the granule, which is that decoding with the base as cursor gives the
bounds back, which is the exactness test with the base as address. -/
def Obligations.ExactFlagMeaning : Prop :=
  ∀ (s : State) (c : DecodedCap), validFmt s.fmt = true → InDomain s.fmt c.base c.top → c.address = c.base →
    ∃ r : EbtResult, exec (.encodeBounds c.base c.top) s = .next (s.answered (.ebt r)) ∧
      (r.exact = true ↔ c.base % 2 ^ r.g = 0 ∧ c.top % 2 ^ r.g = 0) ∧
      (r.exact = true ↔ decodeBounds s.fmt r.ebt c.base = ⟨c.base, c.top⟩) ∧
      exec (.isRepresentableExact c) s = .next (s.answered (.predicate r.exact))

/-- R155: the granule exponent is 0 in the form `IE = 0` and the stored exponent plus `EL` in the form `IE = 1`, and `2^g` is the
alignment at which bounds are exact. -/
def Obligations.GranuleExponent : Prop :=
  ∀ (s : State) (base top : Nat), validFmt s.fmt = true → InDomain s.fmt base top →
    ∃ r : EbtResult, exec (.encodeBounds base top) s = .next (s.answered (.ebt r)) ∧
      r.g = (if (extractBoundsBits s.fmt r.ebt).ie then (extractBoundsBits s.fmt r.ebt).e + s.fmt.el else 0) ∧
      r.g < s.fmt.aw ∧ (r.exact = true ↔ 2 ^ r.g ∣ base ∧ 2 ^ r.g ∣ top)

/-- R156: `COMPRESS_RAW` completes on its domain, every field reads back as the record's, the bounds subfield is that of
`ENCODE_BOUNDS`; outside the domain it faults with cause 1. -/
def Obligations.CompressRawPacksRecord : Prop :=
  ∀ (s : State) (c : DecodedCap), validFmt s.fmt = true → c.fits s.fmt = true →
    (InDomain s.fmt c.base c.top →
      ∃ (w : Nat) (r : EbtResult), exec (.compressRaw c) s = .next (s.answered (.word w)) ∧ w < 2 ^ s.fmt.aw ∧
        getf w s.fmt.hwperms = c.perms ∧ getf w s.fmt.uperms = c.uperms ∧ getf w s.fmt.otype = c.otype ∧
        getf w s.fmt.flags = c.flags ∧ getf w s.fmt.reserved = c.reserved ∧
        exec (.encodeBounds c.base c.top) s = .next (s.answered (.ebt r)) ∧ w % 2 ^ s.fmt.ebtW = r.ebt) ∧
    (c.base > c.top ∨ c.top > 2 ^ s.fmt.aw →
      exec (.compressRaw c) s = .fault (.preconditionViolated .compressRaw .bounds))

/-- R158: compression reads neither the address nor the tag. -/
def Obligations.CompressionIgnoresAddressAndTag : Prop :=
  ∀ (s : State) (c : DecodedCap) (address : Nat) (tag : Bool),
    exec (.compressRaw { c with address := address, tag := tag }) s = exec (.compressRaw c) s ∧
    exec (.compressMem { c with address := address, tag := tag }) s = exec (.compressMem c) s

/-- R157: `COMPRESS_MEM` completes on its domain with the raw word exclusive-or the null mask, and faults outside it. -/
def Obligations.CompressMemMasksRawWord : Prop :=
  ∀ (s : State) (c : DecodedCap), validFmt s.fmt = true →
    (InDomain s.fmt c.base c.top →
      ∃ w : Nat, exec (.compressRaw c) s = .next (s.answered (.word w)) ∧
        exec (.compressMem c) s = .next (s.answered (.word (w ^^^ s.fmt.nullXorMask)))) ∧
    (c.base > c.top ∨ c.top > 2 ^ s.fmt.aw →
      exec (.compressMem c) s = .fault (.preconditionViolated .compressMem .bounds)) ∧
    exec (.compressMem (nullCap s.fmt)) s = .next (s.answered (.word 0))

/-- R160: the null capability compresses to the null mask, in mem form to 0; the values of the two formats. -/
def Obligations.NullCapabilityIsTheMask : Prop :=
  (∀ s : State, validFmt s.fmt = true →
    exec (.compressRaw (nullCap s.fmt)) s = .next (s.answered (.word s.fmt.nullXorMask)) ∧
    exec (.compressMem (nullCap s.fmt)) s = .next (s.answered (.word 0))) ∧
  nullCap cc128 = ⟨0, 0, 2 ^ 64, 0, 0, 0x3FFFF, 0, 0, false⟩ ∧ nullCap cc64 = ⟨0, 0, 2 ^ 32, 0, 0, 0xF, 0, 0, false⟩ ∧
  computeEbt cc128 0 (2 ^ 64) = .ok ⟨0x4018004, true, 55⟩ ∧ computeEbt cc64 0 (2 ^ 32) = .ok ⟨0x4302, true, 29⟩ ∧
  cc128.nullXorMask = (0x3FFFF <<< 27) + 0x4018004 ∧ cc64.nullXorMask = (0xF <<< 15) + 0x4302

/-- R220: the null mask is an involution, and the mem pair is the raw pair under it. -/
def Obligations.NullMaskInvolution : Prop :=
  ∀ (s : State) (c : DecodedCap) (cursor : Nat) (tag : Bool), InDomain s.fmt c.base c.top →
    (∀ w, (w ^^^ s.fmt.nullXorMask) ^^^ s.fmt.nullXorMask = w) ∧
    ∃ (m w : Nat) (d : DecodedCap),
      exec (.compressMem c) s = .next (s.answered (.word m)) ∧ exec (.compressRaw c) s = .next (s.answered (.word w)) ∧
      m ^^^ s.fmt.nullXorMask = w ∧
      exec (.decompressMem m cursor tag) s = .next (s.answered (.cap d)) ∧
      exec (.decompressRaw w cursor tag) s = .next (s.answered (.cap d))

/-! ## The bounds decoder -/

/-- R180: `EXTRACT_BOUNDS_BITS` completes on every word; the stored exponent is not clamped, the low mantissa bits that hold it
read as 0, and the top two bits of T are those of B plus the implied length and the carry. -/
def Obligations.ExtractBoundsBitsResult : Prop :=
  ∀ (s : State) (w : Nat), validFmt s.fmt = true →
    ∃ x : BoundsBits, exec (.extractBoundsBits w) s = .next (s.answered (.boundsBits x)) ∧
      x.ie = w.testBit (2 * s.fmt.mw - 2) ∧
      x.e = (if x.ie then w / 2 ^ s.fmt.mw % 2 ^ s.fmt.eh * 2 ^ s.fmt.el + w % 2 ^ s.fmt.el else 0) ∧
      x.b = (if x.ie then w % 2 ^ s.fmt.mw / 2 ^ s.fmt.el * 2 ^ s.fmt.el else w % 2 ^ s.fmt.mw) ∧
      x.t % 2 ^ (s.fmt.mw - 2)
        = (if x.ie then w / 2 ^ s.fmt.mw % 2 ^ (s.fmt.mw - 2) / 2 ^ s.fmt.eh * 2 ^ s.fmt.eh
           else w / 2 ^ s.fmt.mw % 2 ^ (s.fmt.mw - 2)) ∧
      x.t / 2 ^ (s.fmt.mw - 2)
        = (x.b / 2 ^ (s.fmt.mw - 2) + (if x.ie then 1 else 0)
           + (if x.t % 2 ^ (s.fmt.mw - 2) < x.b % 2 ^ (s.fmt.mw - 2) then 1 else 0)) % 4

/-- R181: stored exponents above `MAX_E` decode exactly as `MAX_E` does; `EXTRACT_BOUNDS_BITS` returns the stored value, as on
the CC128 word 0x401C007, which stores 63. -/
def Obligations.StoredExponentIsClampedOnDecode : Prop :=
  (∀ (F : Fmt) (x : BoundsBits) (cursor : Nat), F.maxE ≤ x.e →
    computeBaseTop F x cursor = computeBaseTop F { x with e := F.maxE } cursor) ∧
  (extractBoundsBits cc128 0x401C007).e = 63 ∧
  (∀ cursor, decodeBounds cc128 0x401C007 cursor = decodeBounds cc128 0x4018004 cursor)

/-- R182: a correction is the bound's comparison minus the cursor's; the boundary is `B3 - 1`, wrapping 0 to 7; a value equal to
the boundary is not in the upper window. -/
def Obligations.RegionComparisonIsThreeWay : Prop :=
  (∀ x a : Bool, (regionOf x a).toInt = (x.toNat : Int) - a.toNat) ∧
  (∀ b3 : Nat, b3 < 8 → regionBoundary b3 = (if b3 = 0 then 7 else b3 - 1)) ∧
  (∀ x r : Nat, (inUpperWindow x r = true ↔ x < r) ∧ inUpperWindow r r = false)

/-- R182, R183, R184: the decoded bounds, as integers: the cursor's window corrected by -1, 0 or +1 modulo `2^AW`, the mantissa
placed below it, and the top bit inverted when the bounds lie more than an address space apart. -/
def Obligations.DecodeReconstructsBounds : Prop :=
  ∀ (F : Fmt) (x : BoundsBits) (cursor e b3 t3 a3 r3 : Nat) (base top : Int),
    validFmt F = true → x.fits F = true → cursor < 2 ^ F.aw →
    e = min F.maxE x.e → b3 = x.b / 2 ^ (F.mw - 3) → t3 = x.t / 2 ^ (F.mw - 3) →
    a3 = cursor / 2 ^ (e + F.mw - 3) % 8 → r3 = (b3 + 7) % 8 →
    base = (((cursor / 2 ^ (e + F.mw) : Nat) : Int) + (if b3 < r3 then 1 else 0) - (if a3 < r3 then 1 else 0)) % 2 ^ F.aw
        * 2 ^ (e + F.mw) + x.b * 2 ^ e →
    top = ((((cursor / 2 ^ (e + F.mw) : Nat) : Int) + (if t3 < r3 then 1 else 0) - (if a3 < r3 then 1 else 0)) % 2 ^ F.aw
        * 2 ^ (e + F.mw) + x.t * 2 ^ e) % 2 ^ (F.aw + 1) →
    ((computeBaseTop F x cursor).base : Int) = base % 2 ^ F.aw ∧
    ((computeBaseTop F x cursor).top : Int)
      = (if e < F.maxE - 1 ∧ (top / 2 ^ (F.aw - 1) - base / 2 ^ (F.aw - 1) % 2) % 4 > 1
         then (top + 2 ^ F.aw) % 2 ^ (F.aw + 1) else top)

/-- R185, R181: `DECODE_BOUNDS` completes on every word and cursor with the reconstruction, for that cursor, of the intermediate
that `EXTRACT_BOUNDS_BITS` gives; it ignores the bits outside the bounds subfield, and moving the cursor shifts both bounds by
multiples of `2^(E'+MW)`. -/
def Obligations.DecodeDependsOnBoundsBitsAndCursor : Prop :=
  ∀ (s : State) (w cursor cursor' : Nat), validFmt s.fmt = true → cursor < 2 ^ s.fmt.aw → cursor' < 2 ^ s.fmt.aw →
    ∃ (x : BoundsBits) (b b' : Bounds),
      exec (.extractBoundsBits w) s = .next (s.answered (.boundsBits x)) ∧
      b = computeBaseTop s.fmt x cursor ∧
      exec (.decodeBounds w cursor) s = .next (s.answered (.bounds b)) ∧
      exec (.decodeBounds (w % 2 ^ s.fmt.ebtW) cursor) s = .next (s.answered (.bounds b)) ∧
      exec (.decodeBounds w cursor') s = .next (s.answered (.bounds b')) ∧
      (min s.fmt.maxE (extractBoundsBits s.fmt w).e + s.fmt.mw ≤ s.fmt.aw →
        b.base % 2 ^ (min s.fmt.maxE (extractBoundsBits s.fmt w).e + s.fmt.mw)
          = b'.base % 2 ^ (min s.fmt.maxE (extractBoundsBits s.fmt w).e + s.fmt.mw) ∧
        b.top % 2 ^ (min s.fmt.maxE (extractBoundsBits s.fmt w).e + s.fmt.mw)
          = b'.top % 2 ^ (min s.fmt.maxE (extractBoundsBits s.fmt w).e + s.fmt.mw))

/-- R187, R91: decoding is total: every word, cursor and tag gives results of their port widths and the tag that was given; and
some results break the invariant of the source, with `top < base` and with `top > 2^AW`. -/
def Obligations.DecodingIsTotal : Prop :=
  (∀ (s : State) (w cursor : Nat) (tag : Bool), validFmt s.fmt = true → w < 2 ^ s.fmt.aw → cursor < 2 ^ s.fmt.aw →
    ∃ (x : BoundsBits) (b : Bounds) (c d : DecodedCap),
      exec (.extractBoundsBits w) s = .next (s.answered (.boundsBits x)) ∧ x.fits s.fmt = true ∧
      exec (.decodeBounds w cursor) s = .next (s.answered (.bounds b)) ∧ b.fits s.fmt = true ∧
      exec (.decompressRaw w cursor tag) s = .next (s.answered (.cap c)) ∧ c.fits s.fmt = true ∧ c.tag = tag ∧
      exec (.decompressMem w cursor tag) s = .next (s.answered (.cap d)) ∧ d.fits s.fmt = true ∧ d.tag = tag) ∧
  decodeBounds cc128 0x7FFBFFB 0 = ⟨0xFFC0000000000000, 0x7FC0000000000000⟩ ∧
  (∃ w cursor, w < 2 ^ 64 ∧ cursor < 2 ^ 64 ∧ (decodeBounds cc128 w cursor).top > 2 ^ 64)

/-- R186: `DECOMPRESS_RAW` completes on every word, cursor and tag: the bounds are those of `DECODE_BOUNDS`, the address is the
cursor, the tag is passed through, and the other fields are the word's. -/
def Obligations.DecompressRawUnpacksWord : Prop :=
  ∀ (s : State) (w cursor : Nat) (tag : Bool),
    ∃ b : Bounds, exec (.decodeBounds w cursor) s = .next (s.answered (.bounds b)) ∧
      exec (.decompressRaw w cursor tag) s = .next (s.answered (.cap
        { address := cursor, base := b.base, top := b.top, perms := getf w s.fmt.hwperms, uperms := getf w s.fmt.uperms,
          otype := getf w s.fmt.otype, flags := getf w s.fmt.flags, reserved := getf w s.fmt.reserved, tag := tag }))

/-- R188: `DECOMPRESS_MEM` is the raw decompression of the masked word; the all-zero word gives the null capability with the
given cursor and tag, whatever the cursor. -/
def Obligations.DecompressMemUnmasksWord : Prop :=
  ∀ (s : State) (w cursor : Nat) (tag : Bool), validFmt s.fmt = true → cursor < 2 ^ s.fmt.aw →
    (∃ c : DecodedCap, exec (.decompressRaw (w ^^^ s.fmt.nullXorMask) cursor tag) s = .next (s.answered (.cap c)) ∧
      exec (.decompressMem w cursor tag) s = .next (s.answered (.cap c))) ∧
    exec (.decompressMem 0 cursor tag) s
      = .next (s.answered (.cap { nullCap s.fmt with address := cursor, tag := tag }))

/-- R189: decoding inverts encoding: with the base as cursor it returns the bounds exactly when the encoding is exact, and
with any cursor that the cursor-change test accepts it returns the same pair; else it returns the rounded bounds that
`SETBOUNDS` stores. -/
def Obligations.DecodeInvertsEncode : Prop :=
  ∀ (s : State) (base top : Nat), validFmt s.fmt = true → InDomain s.fmt base top →
    ∃ r : EbtResult, exec (.encodeBounds base top) s = .next (s.answered (.ebt r)) ∧
      (r.exact = true ↔ exec (.decodeBounds r.ebt base) s = .next (s.answered (.bounds ⟨base, top⟩))) ∧
      (∀ (isSealed : Bool) (cursor : Nat),
        exec (.isRepresentableNewAddr isSealed base (top - base) base cursor) s = .next (s.answered (.predicate true)) →
        exec (.decodeBounds r.ebt cursor) s = .next (s.answered (.bounds ⟨base, top⟩))) ∧
      (∀ c : DecodedCap, ∃ c' : DecodedCap, exec (.setBounds c base top) s = .next (s.answered (.capExact c' r.exact)) ∧
        exec (.decodeBounds r.ebt base) s = .next (s.answered (.bounds ⟨c'.base, c'.top⟩)))

/-- R182, R183 and the glossary's representable region: the cursors that decode an encoded pair to its represented bounds are
those of one `2^(E+MW)`-byte window that starts at the region boundary, modulo the address space; when the window is larger
than the space, every cursor does. -/
def Obligations.RepresentableWindow : Prop :=
  ∀ (F : Fmt) (base top cursor : Nat) (r : EbtResult) (m r3 : Nat), validFmt F = true → InDomain F base top →
    cursor < 2 ^ F.aw → computeEbt F base top = .ok r → m = (extractBoundsBits F r.ebt).e + F.mw →
    r3 = ((extractBoundsBits F r.ebt).b / 2 ^ (F.mw - 3) + 7) % 8 →
    (m ≤ F.aw → (decodeBounds F r.ebt cursor = decodeBounds F r.ebt base ↔
      (cursor + 2 ^ F.aw - r3 * 2 ^ (m - 3)) % 2 ^ F.aw / 2 ^ m
        = (base + 2 ^ F.aw - r3 * 2 ^ (m - 3)) % 2 ^ F.aw / 2 ^ m)) ∧
    (F.aw < m → decodeBounds F r.ebt cursor = decodeBounds F r.ebt base)

/-! ## The representability checker -/

/-- R210: `IS_REPRESENTABLE_EXACT` completes on its domain: it is 1 exactly when the encoding of the bounds, decoded with the
record's own address, gives both bounds back; outside the domain it faults with cause 1. -/
def Obligations.ExactnessTest : Prop :=
  ∀ (s : State) (c : DecodedCap),
    (InDomain s.fmt c.base c.top →
      ∃ (r : EbtResult) (b : Bounds), exec (.encodeBounds c.base c.top) s = .next (s.answered (.ebt r)) ∧
        exec (.decodeBounds r.ebt c.address) s = .next (s.answered (.bounds b)) ∧
        exec (.isRepresentableExact c) s
          = .next (s.answered (.predicate (decide (b.base = c.base ∧ b.top = c.top))))) ∧
    (c.base > c.top ∨ c.top > 2 ^ s.fmt.aw →
      exec (.isRepresentableExact c) s = .fault (.preconditionViolated .isRepresentableExact .bounds))

/-- R211: `IS_REPRESENTABLE_NEW_ADDR`. Out of bounds it faults with cause 1; when the old cursor does not decode the bounds, with
cause 3; else it completes and says whether the new cursor decodes them. It says 1 for the old cursor, for every new cursor
in `[base, top)`, and for every new cursor when the length is `2^AW`. -/
def Obligations.CursorChangeTest : Prop :=
  ∀ (s : State) (isSealed : Bool) (base length cursor newCursor : Nat), validFmt s.fmt = true →
    base < 2 ^ s.fmt.aw → cursor < 2 ^ s.fmt.aw → newCursor < 2 ^ s.fmt.aw →
    (base + length > 2 ^ s.fmt.aw →
      exec (.isRepresentableNewAddr isSealed base length cursor newCursor) s
        = .fault (.preconditionViolated .isRepresentableNewAddr .bounds)) ∧
    (base + length ≤ 2 ^ s.fmt.aw → ∃ r : EbtResult, computeEbt s.fmt base (base + length) = .ok r ∧
      (decodeBounds s.fmt r.ebt cursor ≠ ⟨base, base + length⟩ →
        exec (.isRepresentableNewAddr isSealed base length cursor newCursor) s
          = .fault (.preconditionViolated .isRepresentableNewAddr .notRepresentable)) ∧
      (decodeBounds s.fmt r.ebt cursor = ⟨base, base + length⟩ →
        ∃ y : Bool, exec (.isRepresentableNewAddr isSealed base length cursor newCursor) s
            = .next (s.answered (.predicate y)) ∧
          (y = true ↔ decodeBounds s.fmt r.ebt newCursor = ⟨base, base + length⟩) ∧
          (newCursor = cursor → y = true) ∧ (base ≤ newCursor → newCursor < base + length → y = true) ∧
          (length = 2 ^ s.fmt.aw → y = true)))

/-- R212: the sealed operand has no effect. -/
def Obligations.SealedHasNoEffect : Prop :=
  ∀ (s : State) (base length cursor newCursor : Nat),
    exec (.isRepresentableNewAddr true base length cursor newCursor) s
      = exec (.isRepresentableNewAddr false base length cursor newCursor) s

/-- R211, R221: on its domain the cursor-change test is the slow path: decompress with the old cursor, decompress with the new
one, and compare the bounds. -/
def Obligations.CursorChangeTestIsTheSlowPath : Prop :=
  ∀ (s : State) (isSealed tag : Bool) (c : DecodedCap) (cursor newCursor : Nat) (y : Bool), validFmt s.fmt = true →
    c.fits s.fmt = true → InDomain s.fmt c.base c.top →
    exec (.isRepresentableNewAddr isSealed c.base (c.top - c.base) cursor newCursor) s = .next (s.answered (.predicate y)) →
    ∃ (w : Nat) (old new : DecodedCap), exec (.compressRaw c) s = .next (s.answered (.word w)) ∧
      exec (.decompressRaw w cursor tag) s = .next (s.answered (.cap old)) ∧
      exec (.decompressRaw w newCursor tag) s = .next (s.answered (.cap new)) ∧
      old.base = c.base ∧ old.top = c.top ∧ (y = true ↔ new.base = old.base ∧ new.top = old.top)

/-- R213: `GET_REPRESENTABLE_LENGTH` completes for every length up to `2^AW`, with the length rounded up to its granule, which is
the smallest length not below it of which some region is exactly representable; above `2^AW` it faults with cause 2. -/
def Obligations.RepresentableLengthIsSmallest : Prop :=
  ∀ (s : State) (length : Nat), validFmt s.fmt = true →
    (length ≤ 2 ^ s.fmt.aw →
      ∃ (l : Nat) (r : EbtResult), exec (.getRepresentableLength length) s = .next (s.answered (.length l)) ∧
        computeEbt s.fmt 0 length = .ok r ∧ l = (length + 2 ^ r.g - 1) / 2 ^ r.g * 2 ^ r.g ∧
        length ≤ l ∧ l ≤ 2 ^ s.fmt.aw ∧
        (∃ (base : Nat) (x : EbtResult), base < 2 ^ s.fmt.aw ∧ computeEbt s.fmt base (base + l) = .ok x ∧ x.exact = true) ∧
        (∀ (l' base : Nat) (x : EbtResult), length ≤ l' → base < 2 ^ s.fmt.aw →
          computeEbt s.fmt base (base + l') = .ok x → x.exact = true → l ≤ l')) ∧
    (length > 2 ^ s.fmt.aw →
      exec (.getRepresentableLength length) s = .fault (.preconditionViolated .getRepresentableLength .length))

/-- R214, R215: the required alignment is `2^g` and the alignment mask `2^g - 1`, with `g` the granule exponent of the length, and
`2^g` fits its port; above `2^AW` both fault with cause 2. -/
def Obligations.AlignmentAndMask : Prop :=
  ∀ (s : State) (length : Nat), validFmt s.fmt = true →
    (length ≤ 2 ^ s.fmt.aw →
      ∃ r : EbtResult, exec (.encodeBounds 0 length) s = .next (s.answered (.ebt r)) ∧ r.g < s.fmt.aw ∧
        exec (.getRequiredAlignment length) s = .next (s.answered (.align (2 ^ r.g))) ∧
        exec (.getAlignmentMask length) s = .next (s.answered (.mask (2 ^ r.g - 1)))) ∧
    (length > 2 ^ s.fmt.aw →
      exec (.getRequiredAlignment length) s = .fault (.preconditionViolated .getRequiredAlignment .length) ∧
      exec (.getAlignmentMask length) s = .fault (.preconditionViolated .getAlignmentMask .length))

/-- R218: rounding a length is idempotent. -/
def Obligations.LengthRoundingIsIdempotent : Prop :=
  ∀ (s : State) (length : Nat), validFmt s.fmt = true → length ≤ 2 ^ s.fmt.aw →
    ∃ l : Nat, exec (.getRepresentableLength length) s = .next (s.answered (.length l)) ∧
      exec (.getRepresentableLength l) s = .next (s.answered (.length l))

/-- R219: a base that is a multiple of the required alignment of a length makes the region of the rounded length exact, for the
encoder and for `SETBOUNDS`. -/
def Obligations.AlignmentIsSufficient : Prop :=
  ∀ (s : State) (length base : Nat) (c : DecodedCap), validFmt s.fmt = true → length ≤ 2 ^ s.fmt.aw →
    ∃ l a : Nat, exec (.getRepresentableLength length) s = .next (s.answered (.length l)) ∧
      exec (.getRequiredAlignment length) s = .next (s.answered (.align a)) ∧
      (a ∣ base → base < 2 ^ s.fmt.aw → base + l ≤ 2 ^ s.fmt.aw →
        ∃ (r : EbtResult) (c' : DecodedCap), exec (.encodeBounds base (base + l)) s = .next (s.answered (.ebt r)) ∧
          r.exact = true ∧ exec (.setBounds c base (base + l)) s = .next (s.answered (.capExact c' true)))

/-- R217: widening never shrinks: the bounds that `SETBOUNDS` gives contain the request, and every cursor of the request. -/
def Obligations.WideningNeverShrinks : Prop :=
  ∀ (s : State) (c : DecodedCap) (reqBase reqTop : Nat), validFmt s.fmt = true → InDomain s.fmt reqBase reqTop →
    ∃ (c' : DecodedCap) (exact : Bool), exec (.setBounds c reqBase reqTop) s = .next (s.answered (.capExact c' exact)) ∧
      c'.base ≤ reqBase ∧ reqTop ≤ c'.top ∧
      ∀ cursor, reqBase ≤ cursor → cursor < reqTop → c'.base ≤ cursor ∧ cursor < c'.top

/-- R216: a record whose exactness test holds round-trips through compression with its own address as cursor; so does every
exact pair with its base as cursor. -/
def Obligations.ExactRecordsRoundTrip : Prop :=
  ∀ (s : State) (c : DecodedCap), validFmt s.fmt = true → c.fits s.fmt = true → InDomain s.fmt c.base c.top →
    ∃ (w : Nat) (r : EbtResult), exec (.compressRaw c) s = .next (s.answered (.word w)) ∧
      exec (.encodeBounds c.base c.top) s = .next (s.answered (.ebt r)) ∧
      (exec (.isRepresentableExact c) s = .next (s.answered (.predicate true)) →
        exec (.decodeBounds w c.address) s = .next (s.answered (.bounds ⟨c.base, c.top⟩))) ∧
      (r.exact = true → exec (.decodeBounds w c.base) s = .next (s.answered (.bounds ⟨c.base, c.top⟩)))

/-- R156, R186, R210: the whole record, not only its bounds, round-trips: compressing and decompressing a record whose exactness
test holds, with its own address and tag, gives the record, raw and mem. -/
def Obligations.WholeRecordRoundTrips : Prop :=
  ∀ (s : State) (c : DecodedCap), validFmt s.fmt = true → c.fits s.fmt = true →
    exec (.isRepresentableExact c) s = .next (s.answered (.predicate true)) →
    ∃ w m : Nat, exec (.compressRaw c) s = .next (s.answered (.word w)) ∧
      exec (.decompressRaw w c.address c.tag) s = .next (s.answered (.cap c)) ∧
      exec (.compressMem c) s = .next (s.answered (.word m)) ∧
      exec (.decompressMem m c.address c.tag) s = .next (s.answered (.cap c))

/-! ## The capability builder -/

/-- R240: `SETBOUNDS` completes on its domain, whatever the old bounds and the object type: the new bounds are what the new
encoding decodes to with the requested base, every other field is kept, and `exact` is the encoder's flag, which says that the
bounds are those requested; an empty request and the whole space are exact. Outside the domain it faults with cause 1. -/
def Obligations.SetBoundsResult : Prop :=
  ∀ (s : State) (c : DecodedCap) (reqBase reqTop : Nat), validFmt s.fmt = true →
    (InDomain s.fmt reqBase reqTop →
      ∃ (r : EbtResult) (b : Bounds),
        exec (.encodeBounds reqBase reqTop) s = .next (s.answered (.ebt r)) ∧
        exec (.decodeBounds r.ebt reqBase) s = .next (s.answered (.bounds b)) ∧
        exec (.setBounds c reqBase reqTop) s
          = .next (s.answered (.capExact { c with base := b.base, top := b.top } r.exact)) ∧
        (r.exact = true ↔ b = ⟨reqBase, reqTop⟩) ∧
        (reqBase = reqTop → r.exact = true) ∧ (reqBase = 0 → reqTop = 2 ^ s.fmt.aw → r.exact = true)) ∧
    (reqBase > reqTop ∨ reqTop > 2 ^ s.fmt.aw →
      exec (.setBounds c reqBase reqTop) s = .fault (.preconditionViolated .setBounds .bounds))

/-- R240: compressing the widened record encodes the bounds it holds: the bounds subfield is the one of the request's encoding,
so encoding is stable after one rounding. The exactness test of the widened record then asks only whether its address decodes
those bounds. -/
def Obligations.WidenedBoundsReencodeToTheSameWord : Prop :=
  ∀ (s : State) (c : DecodedCap) (reqBase reqTop : Nat), validFmt s.fmt = true → c.fits s.fmt = true →
    InDomain s.fmt reqBase reqTop →
    ∃ (c' : DecodedCap) (exact : Bool) (r r' : EbtResult) (w : Nat),
      exec (.setBounds c reqBase reqTop) s = .next (s.answered (.capExact c' exact)) ∧
      exec (.encodeBounds reqBase reqTop) s = .next (s.answered (.ebt r)) ∧
      exec (.encodeBounds c'.base c'.top) s = .next (s.answered (.ebt r')) ∧ r'.ebt = r.ebt ∧ r'.exact = true ∧
      exec (.compressRaw c') s = .next (s.answered (.word w)) ∧ w % 2 ^ s.fmt.ebtW = r.ebt ∧
      exec (.isRepresentableExact c') s
        = .next (s.answered (.predicate (decide (decodeBounds s.fmt w c.address = ⟨c'.base, c'.top⟩))))

/-- R241: `MAKE_MAX_PERMS_CAP` completes when the bounds are exact, with every permission bit set, the object type unsealed, flags
and reserved 0, tag 1, the given cursor as address and exactly the requested bounds; inexact bounds fault with cause 4 and
bounds outside the domain with cause 1, whichever the cursor. -/
def Obligations.MaxPermsCapResult : Prop :=
  ∀ (s : State) (base cursor top : Nat), validFmt s.fmt = true →
    (InDomain s.fmt base top → ∃ r : EbtResult, computeEbt s.fmt base top = .ok r ∧
      (r.exact = true → exec (.makeMaxPermsCap base cursor top) s = .next (s.answered (.cap
        { address := cursor, base := base, top := top, perms := 2 ^ s.fmt.hwperms.width - 1,
          uperms := 2 ^ s.fmt.uperms.width - 1, otype := 2 ^ s.fmt.otype.width - 1, flags := 0, reserved := 0,
          tag := true }))) ∧
      (r.exact = false → exec (.makeMaxPermsCap base cursor top) s
        = .fault (.preconditionViolated .makeMaxPermsCap .inexactBounds))) ∧
    (base > top ∨ top > 2 ^ s.fmt.aw → exec (.makeMaxPermsCap base cursor top) s
      = .fault (.preconditionViolated .makeMaxPermsCap .bounds))
end

