-- ==== Sys2Proof/Laws/State.lean ====
section
/-! SUPPORT. One lemma per field per update of the state, so that no later proof unfolds a record update. -/

namespace Sys2Proof.Machine

@[simp] theorem Interface.under_fmt (x : Interface) (F : Fmt) : (x.under F).fmt = F := rfl

@[simp] theorem Interface.under_toInterface (x : Interface) (F : Fmt) : (x.under F).toInterface = x := rfl

@[simp] theorem State.toInterface_under (s : State) : s.toInterface.under s.fmt = s := rfl

@[simp] theorem Interface.respond_pending (x : Interface) (r : Response) : (x.respond r).pending = x.pending := rfl

@[simp] theorem Interface.respond_responses (x : Interface) (r : Response) :
    (x.respond r).responses = x.responses ++ [r] := rfl

@[simp] theorem State.respond_toInterface (s : State) (r : Response) :
    (s.respond r).toInterface = s.toInterface.respond r := rfl

/-- Responding under a descriptor is responding, under it. -/
theorem Interface.under_respond (x : Interface) (F : Fmt) (r : Response) : (x.under F).respond r = (x.respond r).under F := rfl

@[simp] theorem State.respond_fmt (s : State) (r : Response) : (s.respond r).fmt = s.fmt := rfl

@[simp] theorem State.respond_pending (s : State) (r : Response) : (s.respond r).pending = s.pending := rfl

@[simp] theorem State.respond_responses (s : State) (r : Response) : (s.respond r).responses = s.responses ++ [r] := rfl

@[simp] theorem State.answered_fmt (s : State) (r : Results) : (s.answered r).fmt = s.fmt := rfl

@[simp] theorem State.answered_pending (s : State) (r : Results) : (s.answered r).pending = s.pending := rfl

@[simp] theorem State.answered_responses (s : State) (r : Results) :
    (s.answered r).responses = s.responses ++ [.ok r] := rfl

@[simp] theorem State.withFetchWord_fmt (s : State) (nbits w : Nat) : (s.withFetchWord nbits w).fmt = s.fmt := rfl

@[simp] theorem State.withFetchWord_pending (s : State) (nbits w : Nat) :
    (s.withFetchWord nbits w).pending = tableRequest nbits w :: s.pending := rfl

@[simp] theorem State.withFetchWord_responses (s : State) (nbits w : Nat) :
    (s.withFetchWord nbits w).responses = s.responses := rfl

@[simp] theorem State.fresh_fmt (F : Fmt) : (State.fresh F).fmt = F := rfl

@[simp] theorem State.fresh_pending (F : Fmt) : (State.fresh F).pending = [] := rfl

@[simp] theorem State.fresh_responses (F : Fmt) : (State.fresh F).responses = [] := rfl

/-- Responding with results is the statements' `answered`. -/
theorem State.respond_ok (s : State) (r : Results) : s.respond (.ok r) = s.answered r := rfl

end Sys2Proof.Machine
end

