-- ==== Sys2Proof/Laws/Fmt.lean ====
section
/-! SUPPORT. What a valid descriptor gives (00_scope.md R13), and that the two reference descriptors are valid. -/

namespace Sys2Proof.Machine

theorem validFmt_cc128 : validFmt cc128 = true := by decide

theorem validFmt_cc64 : validFmt cc64 = true := by decide

/-- The arithmetic constraints of a valid descriptor, as one structure whose fields proofs cite. -/
structure FmtFacts (F : Fmt) : Prop where
  mw_le_aw : F.mw ≤ F.aw
  el_eq_eh : F.el = F.eh
  el_add_eh : F.el + F.eh = F.expW
  el_lt : F.el + 2 < F.mw
  eh_lt : F.eh + 2 < F.mw
  maxE_eq : F.maxE = F.aw - F.mw + 2
  maxE_le : F.maxE ≤ 2 ^ F.expW - 1
  widths : F.uperms.width + F.hwperms.width + F.reserved.width + F.flags.width + F.otype.width + F.ebtW = F.aw
  layout : F.layoutOk = true
  b_eq : F.b = ⟨0, F.mw⟩
  t_eq : F.t = ⟨F.mw, F.mw - 2⟩
  ie_eq : F.ie = ⟨2 * F.mw - 2, 1⟩
  lw_eq : F.lw = F.aw + 1
  capBits_eq : F.capBits = 2 * F.aw
  nullMask : compressRaw F (nullCap F) = .ok F.nullXorMask

theorem fmtFacts {F : Fmt} (h : validFmt F = true) : FmtFacts F := by
  have hn : nullMaskOk F = true := by
    unfold validFmt at h
    exact (Bool.and_eq_true _ _ ▸ h).2
  have hs : F.staticOk = true := by
    unfold validFmt at h
    exact (Bool.and_eq_true _ _ ▸ h).1
  have hmask : compressRaw F (nullCap F) = .ok F.nullXorMask := by
    unfold nullMaskOk at hn
    cases hc : compressRaw F (nullCap F) with
    | error c => simp [hc] at hn
    | ok w => simp [hc] at hn; rw [hn]
  simp only [Fmt.staticOk, Fmt.ebtLayoutOk, Bool.and_eq_true, decide_eq_true_eq] at hs
  obtain ⟨⟨⟨⟨⟨⟨⟨⟨h1, h2, h3⟩, h4, h5⟩, h6⟩, h7⟩, h8⟩, h9⟩, ⟨h10, h11⟩, h12⟩, h13, h14⟩ := hs
  exact ⟨h1, h2, h3, by omega, by omega, h6, h7, h8, h9, h10, h11, h12, h13, h14, hmask⟩

/-- The exponent part is never empty: `EL` is at least 1. -/
theorem FmtFacts.el_pos {F : Fmt} (h : FmtFacts F) : 0 < F.el := by
  rcases Nat.eq_zero_or_pos F.el with h0 | h0
  · have hw : F.expW = 0 := by have := h.el_add_eh; have := h.el_eq_eh; omega
    have := h.maxE_le
    have := h.maxE_eq
    rw [hw] at *
    simp at *
    omega
  · exact h0

/-- Two different bit fields of a valid word have no bit in common, or one has none. -/
theorem FmtFacts.fields_disjoint {F : Fmt} (h : FmtFacts F) {f g : Field} (hf : f ∈ F.fields) (hg : g ∈ F.fields)
    (hne : f ≠ g) : f.width = 0 ∨ g.width = 0 ∨ f.lo + f.width ≤ g.lo ∨ g.lo + g.width ≤ f.lo := by
  have hl : Fmt.pairwiseDisjoint F.fields = true := by
    have := h.layout
    simp only [Fmt.layoutOk, Bool.and_eq_true] at this
    exact this.1.1
  have key : ∀ l : List Field, Fmt.pairwiseDisjoint l = true → f ∈ l → g ∈ l →
      f.disjoint g = true ∨ g.disjoint f = true := by
    intro l
    induction l with
    | nil => intro _ hf; simp at hf
    | cons a l ih =>
      intro hp hfa hga
      simp only [Fmt.pairwiseDisjoint, Bool.and_eq_true, List.all_eq_true] at hp
      rcases List.mem_cons.mp hfa with rfl | hfl
      · rcases List.mem_cons.mp hga with rfl | hgl
        · exact absurd rfl hne
        · exact .inl (hp.1 g hgl)
      · rcases List.mem_cons.mp hga with rfl | hgl
        · exact .inr (hp.1 f hfl)
        · exact ih hp.2 hfl hgl
  rcases key _ hl hf hg with hd | hd <;>
    simp only [Field.disjoint, Bool.or_eq_true, decide_eq_true_eq] at hd <;> omega

/-- A bit field of a valid word lies inside the word. -/
theorem FmtFacts.field_in_word {F : Fmt} (h : FmtFacts F) {f : Field} (hf : f ∈ F.fields) :
    f.lo + f.width ≤ F.aw := by
  have := h.layout
  simp only [Fmt.layoutOk, Bool.and_eq_true, List.all_eq_true, decide_eq_true_eq] at this
  exact this.1.2 f hf

end Sys2Proof.Machine
end

