-- ==== Sys2Proof/Laws/Ops.lean ====
section
/-! SUPPORT. What the shared operations do, said once. -/

namespace Sys2Proof.Machine

/-- Results become one response more. -/
theorem answer_ok (op : Op) (s : State) (r : Results) : answer op s (.ok r) = .next (s.answered r) := rfl

/-- A cause becomes the model fault of the operation. -/
theorem answer_error (op : Op) (s : State) (c : Cause) :
    answer op s (.error c) = .fault (.preconditionViolated op c) := rfl

/-- A next state comes from results, and is the state with one response more. -/
theorem answer_next {op : Op} {s t : State} {x : Except Cause Results} (h : answer op s x = .next t) :
    ∃ r, x = .ok r ∧ t = s.answered r := by
  cases x with
  | ok r => exact ⟨r, rfl, by simpa [answer_ok] using h.symm⟩
  | error c => simp [answer_error] at h

/-- A fault comes from a cause and names the operation. -/
theorem answer_fault {op : Op} {s : State} {x : Except Cause Results} {f : Fault} (h : answer op s x = .fault f) :
    ∃ c, x = .error c ∧ f = .preconditionViolated op c := by
  cases x with
  | ok r => simp [answer_ok] at h
  | error c => exact ⟨c, rfl, by simpa [answer_error] using h.symm⟩

/-- A next state of `answer` determines its results. -/
theorem answer_eq_next_iff {op : Op} {s : State} {x : Except Cause Results} {r : Results} :
    answer op s x = .next (s.answered r) ↔ x = .ok r := by
  constructor
  · intro h
    obtain ⟨r', hx, ht⟩ := answer_next h
    have : s.responses ++ [Response.ok r] = s.responses ++ [Response.ok r'] := congrArg (fun u : State => u.responses) ht
    simp at this
    rw [hx, this]
  · rintro rfl
    rfl

theorem requireBounds_eq (F : Fmt) (base top : Nat) :
    requireBounds F base top = if base ≤ top ∧ top ≤ 2 ^ F.aw then .ok () else .error .bounds := by
  simp only [requireBounds, boundsOk]
  by_cases h : base ≤ top ∧ top ≤ 2 ^ F.aw
  · simp [h]
  · rw [if_neg h]
    have : (decide (base ≤ top) && decide (top ≤ 2 ^ F.aw)) = false := by
      rw [Bool.and_eq_false_iff]
      simp only [decide_eq_false_iff_not]
      omega
    simp [this]

theorem requireLength_eq (F : Fmt) (length : Nat) :
    requireLength F length = if length ≤ 2 ^ F.aw then .ok () else .error .length := by
  simp only [requireLength, lengthOk]
  by_cases h : length ≤ 2 ^ F.aw <;> simp [h]

/-- The encoder on its domain. -/
theorem computeEbt_ok {F : Fmt} {base top : Nat} (h : base ≤ top) (h' : top ≤ 2 ^ F.aw) :
    computeEbt F base top = .ok (ebtOf F base top) := by
  simp [computeEbt, requireBounds_eq, h, h', bind, Except.bind, pure, Except.pure]

/-- The encoder outside its domain. -/
theorem computeEbt_error {F : Fmt} {base top : Nat} (h : ¬ (base ≤ top ∧ top ≤ 2 ^ F.aw)) :
    computeEbt F base top = .error .bounds := by
  rw [computeEbt, requireBounds_eq, if_neg h]
  rfl

/-- All that `computeEbt` can do. -/
theorem computeEbt_cases (F : Fmt) (base top : Nat) :
    (base ≤ top ∧ top ≤ 2 ^ F.aw ∧ computeEbt F base top = .ok (ebtOf F base top)) ∨
    (¬ (base ≤ top ∧ top ≤ 2 ^ F.aw) ∧ computeEbt F base top = .error .bounds) := by
  by_cases h : base ≤ top ∧ top ≤ 2 ^ F.aw
  · exact .inl ⟨h.1, h.2, computeEbt_ok h.1 h.2⟩
  · exact .inr ⟨h, computeEbt_error h⟩

/-- All that `granuleOf` can do. -/
theorem granuleOf_cases (F : Fmt) (length : Nat) :
    (length ≤ 2 ^ F.aw ∧ granuleOf F length = .ok (ebtOf F 0 length).g) ∨
    (¬ length ≤ 2 ^ F.aw ∧ granuleOf F length = .error .length) := by
  by_cases h : length ≤ 2 ^ F.aw
  · exact .inl ⟨h, by simp [granuleOf, requireLength_eq, h, bind, Except.bind, pure, Except.pure]⟩
  · refine .inr ⟨h, ?_⟩
    rw [granuleOf, requireLength_eq, if_neg h]
    rfl

/-- A field's value has the field's width. -/
theorem getf_lt (w : Nat) (f : Field) : getf w f < 2 ^ f.width := Nat.mod_lt _ (Nat.two_pow_pos _)

/-- A field's value as division and remainder. -/
theorem getf_eq (w : Nat) (f : Field) : getf w f = w / 2 ^ f.lo % 2 ^ f.width := by
  rw [getf, Nat.shiftRight_eq_div_pow]

/-- Rounding up as division and multiplication. -/
theorem roundUp_eq (g x : Nat) : roundUp g x = (x + 2 ^ g - 1) / 2 ^ g * 2 ^ g := by
  rw [roundUp, Nat.shiftRight_eq_div_pow, Nat.shiftLeft_eq]

theorem trunc_lt (n v : Nat) : trunc n v < 2 ^ n := Nat.mod_lt _ (Nat.two_pow_pos _)

/-- A concatenation is a sum when the low part fits its width. -/
theorem cat_eq {hi w lo : Nat} (h : lo < 2 ^ w) : cat hi w lo = hi * 2 ^ w + lo := by
  rw [cat, Nat.shiftLeft_eq, Nat.mul_comm, ← Nat.two_pow_add_eq_or_of_lt h]

theorem subMod_lt (w x y : Nat) : subMod w x y < 2 ^ w := Nat.mod_lt _ (Nat.two_pow_pos _)

/-- The mask, twice, is nothing. -/
theorem maskWord_maskWord (F : Fmt) (w : Nat) : maskWord F (maskWord F w) = w := by
  simp [maskWord]

end Sys2Proof.Machine
end

