-- ==== Sys2Proof/Laws/Encoder.lean ====
section
/-!
SUPPORT. What the encoder computes (41_bounds_encoder.md R150 to R155), said once in plain arithmetic: the length class of
the exponent, and the mantissas as base rounded down and top rounded up at the final granule.
-/

namespace Sys2Proof.Machine

theorem log2_bounds {x : Nat} (h : x ≠ 0) : 2 ^ msb x ≤ x ∧ x < 2 ^ (msb x + 1) :=
  ⟨Nat.log2_self_le h, Nat.lt_log2_self⟩

/-- The class of a length by its exponent: a length with a non-zero exponent `E` lies in `[2^(E+MW-2), 2^(E+MW-1))`. -/
theorem getExponent_pos_bounds {F : Fmt} (hf : FmtFacts F) {L : Nat} (h : getExponent F L ≠ 0) :
    2 ^ (getExponent F L + (F.mw - 2)) ≤ L ∧ L < 2 ^ (getExponent F L + (F.mw - 1)) := by
  have hmw := hf.el_lt
  by_cases hz : L >>> (F.mw - 1) = 0
  · exact absurd (by simp [getExponent, hz]) h
  · have he : getExponent F L = msb (L >>> (F.mw - 1)) + 1 := by simp [getExponent, hz]
    obtain ⟨hlo, hhi⟩ := log2_bounds hz
    rw [Nat.shiftRight_eq_div_pow] at hlo hhi he
    have hp : 0 < 2 ^ (F.mw - 1) := Nat.two_pow_pos _
    constructor
    · have h1 := (Nat.le_div_iff_mul_le hp).mp hlo
      rw [← Nat.pow_add] at h1
      rw [he, show msb (L / 2 ^ (F.mw - 1)) + 1 + (F.mw - 2) = msb (L / 2 ^ (F.mw - 1)) + (F.mw - 1) by omega]
      exact h1
    · have h2 := (Nat.div_lt_iff_lt_mul hp).mp hhi
      rw [← Nat.pow_add] at h2
      rw [he]
      exact h2

/-- A zero exponent means a length below `2^(MW-1)`. -/
theorem getExponent_zero_bound {F : Fmt} {L : Nat} (h : getExponent F L = 0) : L < 2 ^ (F.mw - 1) := by
  by_cases hz : L >>> (F.mw - 1) = 0
  · rw [Nat.shiftRight_eq_div_pow] at hz
    rcases Nat.div_eq_zero_iff.mp hz with h0 | h0
    · exact absurd h0 (Nat.two_pow_pos _).ne'
    · exact h0
  · simp [getExponent, hz] at h

/-- Every length in the internal-exponent form has its top mantissa bits `01` at its exponent. -/
theorem internal_length_bounds {F : Fmt} (hf : FmtFacts F) {L : Nat} (h : usesInternalExponent F L = true) :
    2 ^ (getExponent F L + (F.mw - 2)) ≤ L ∧ L < 2 ^ (getExponent F L + (F.mw - 1)) := by
  by_cases h0 : getExponent F L = 0
  · have hbit : L.testBit (F.mw - 2) = true := by simpa [usesInternalExponent, h0, bitAt] using h
    rw [h0]
    simp only [Nat.zero_add]
    exact ⟨Nat.ge_two_pow_of_testBit hbit, getExponent_zero_bound h0⟩
  · exact getExponent_pos_bounds hf h0

/-- A length in the other form is below `2^(MW-2)`. -/
theorem exponentZero_length_bound {F : Fmt} (hf : FmtFacts F) {L : Nat} (h : usesInternalExponent F L = false) :
    L < 2 ^ (F.mw - 2) := by
  have hmw := hf.el_lt
  simp only [usesInternalExponent, bitAt, Bool.or_eq_false_iff, decide_eq_false_iff_not, not_not] at h
  have hlt := getExponent_zero_bound h.1
  by_contra hge
  have : L.testBit (F.mw - 2) = true := by
    have h1 : L / 2 ^ (F.mw - 2) = 1 := by
      apply Nat.div_eq_of_lt_le
      · omega
      · have : 2 ^ (F.mw - 1) = 2 * 2 ^ (F.mw - 2) := by rw [← Nat.pow_succ']; congr 1; omega
        omega
    rw [Nat.testBit_eq_decide_div_mod_eq, h1]
    rfl
  rw [h.2] at this
  exact absurd this (by decide)

/-- Rounded-up division as the encoder does it: the quotient, plus one when bits were lost. -/
theorem ceil_eq_div_add_lost (x k : Nat) (hk : 0 < k) :
    (x + k - 1) / k = x / k + (decide (x % k ≠ 0)).toNat := by
  have hdm := Nat.div_add_mod x k
  have hr := Nat.mod_lt x hk
  by_cases h0 : x % k = 0
  · simp only [h0, ne_eq, not_true_eq_false, decide_false, Bool.toNat_false, Nat.add_zero]
    apply Nat.div_eq_of_lt_le
    · rw [Nat.mul_comm]; omega
    · rw [Nat.mul_comm, Nat.mul_succ]; omega
  · simp only [ne_eq, h0, not_false_eq_true, decide_true, Bool.toNat_true]
    apply Nat.div_eq_of_lt_le
    · rw [Nat.mul_comm, Nat.mul_succ]; omega
    · rw [Nat.mul_comm, Nat.mul_succ, Nat.mul_succ]; omega

/-- The bottom mantissa is base rounded down, modulo its width. -/
theorem bottomMantissa_eq (F : Fmt) (k base : Nat) : bottomMantissa F k base = base / 2 ^ k % 2 ^ F.bIeW := by
  rw [bottomMantissa, trunc, Nat.shiftRight_eq_div_pow]

/-- The top mantissa, told whether bits were lost, is top rounded up, modulo its width. -/
theorem topMantissa_eq (F : Fmt) (k top : Nat) :
    topMantissa F k top (lostBelow k top) = (top + 2 ^ k - 1) / 2 ^ k % 2 ^ F.bIeW := by
  rw [topMantissa, trunc, Nat.shiftRight_eq_div_pow, ceil_eq_div_add_lost _ _ (Nat.two_pow_pos _), lostBelow]

/-- A difference of mantissas modulo their width is the difference of the unreduced numbers, when that is in range. -/
theorem subMod_of_mod (w x y : Nat) (h : y ≤ x) (h' : x - y < 2 ^ w) :
    subMod w (x % 2 ^ w) (y % 2 ^ w) = x - y := by
  have hp : 0 < 2 ^ w := Nat.two_pow_pos w
  rw [subMod, Nat.mod_mod]
  have hy := Nat.mod_lt y hp
  have hxd := Nat.div_add_mod x (2 ^ w)
  have hyd := Nat.div_add_mod y (2 ^ w)
  have key : x % 2 ^ w + (2 ^ w - y % 2 ^ w) + 2 ^ w * (x / 2 ^ w) = x - y + 2 ^ w * (1 + y / 2 ^ w) := by
    rw [Nat.mul_add, Nat.mul_one]
    omega
  have := congrArg (· % 2 ^ w) key
  simp only [Nat.add_mul_mod_self_left] at this
  rw [this, Nat.mod_eq_of_lt h']

/-- The exponent the form stores (R150, R152): that of the length, and one more exactly when the length rounded outward at that
exponent overflows the mantissa. -/
def storedExponent (F : Fmt) (base top : Nat) : Nat :=
  let E := getExponent F (top - base)
  if base / 2 ^ (E + F.el) + 2 ^ (F.bIeW - 1) ≤ (top + 2 ^ (E + F.el) - 1) / 2 ^ (E + F.el) then E + 1 else E

/-- What the form holds for its final exponent: base rounded down and top rounded up at granule `2^g`. -/
structure InternalSpec (F : Fmt) (base top : Nat) (r : EbtResult) (e : Nat) : Prop where
  e_le : e ≤ F.maxE
  g_eq : r.g = e + F.el
  ebt_eq : r.ebt = place F true
    (cat (trunc (F.mw - 2 - F.el) ((top + 2 ^ r.g - 1) / 2 ^ r.g % 2 ^ F.bIeW)) F.eh (slice (F.expW - 1) F.el e))
    (cat (base / 2 ^ r.g % 2 ^ F.bIeW) F.el (trunc F.el e))
  exact_eq : r.exact = decide (base % 2 ^ r.g = 0 ∧ top % 2 ^ r.g = 0)
  len_ge : base / 2 ^ r.g + 2 ^ (F.bIeW - 2) ≤ (top + 2 ^ r.g - 1) / 2 ^ r.g
  len_lt : (top + 2 ^ r.g - 1) / 2 ^ r.g < base / 2 ^ r.g + 2 ^ (F.bIeW - 1)

theorem exactFlag_lost (k base top : Nat) :
    exactFlag (lostBelow k base) (lostBelow k top) = decide (base % 2 ^ k = 0 ∧ top % 2 ^ k = 0) := by
  by_cases h1 : base % 2 ^ k = 0 <;> by_cases h2 : top % 2 ^ k = 0 <;> simp [exactFlag, lostBelow, h1, h2]

/-- Bits are lost below `2^(k+1)` when they are lost below `2^k` or the quotient is odd. -/
theorem lostBelow_succ (k v : Nat) : lostBelow (k + 1) v = (lostBelow k v || bitAt 0 (v / 2 ^ k)) := by
  have h : v % 2 ^ (k + 1) = v % 2 ^ k + 2 ^ k * (v / 2 ^ k % 2) := by
    rw [Nat.pow_succ, Nat.mod_mul]
  have hp : 0 < 2 ^ k := Nat.two_pow_pos k
  simp only [lostBelow, bitAt, Nat.testBit_zero, h]
  rcases Nat.mod_two_eq_zero_or_one (v / 2 ^ k) with h2 | h2 <;> rw [h2] <;> by_cases h0 : v % 2 ^ k = 0 <;>
    simp [h0]

theorem bitAt_zero_mod {w x : Nat} (hw : 0 < w) : bitAt 0 (x % 2 ^ w) = bitAt 0 x := by
  simp [bitAt, hw]

/-- The increment's own test of the rounded top: lost bits below the next granule. -/
theorem lostTop_succ (k top : Nat) :
    (lostBelow k top || bitAt 0 ((top + 2 ^ k - 1) / 2 ^ k)) = lostBelow (k + 1) top := by
  rw [lostBelow_succ]
  cases h : lostBelow k top with
  | true => simp
  | false =>
    have : top % 2 ^ k = 0 := by simpa [lostBelow] using h
    rw [ceil_eq_div_add_lost _ _ (Nat.two_pow_pos _), this]
    simp

/-- What the internal-exponent form computes (R152): the fields of `InternalSpec` for the stored exponent. -/
theorem ebtInternal_spec {F : Fmt} (hf : FmtFacts F) {base top : Nat} (hbt : base ≤ top) (htop : top ≤ 2 ^ F.aw)
    (hie : usesInternalExponent F (top - base) = true) :
    InternalSpec F base top (ebtInternal F base top (getExponent F (top - base))) (storedExponent F base top) := by
  unfold storedExponent
  obtain ⟨hlo, hhi⟩ := internal_length_bounds hf hie
  generalize hE : getExponent F (top - base) = E at *
  have hel := hf.el_lt
  have hmw := hf.mw_le_aw
  have hmax := hf.maxE_eq
  have hW : F.bIeW = F.mw - F.el := rfl
  generalize hw : F.bIeW = W at *
  have hW3 : 3 ≤ W := by omega
  -- the widths as multiples of the granule
  have hK : 0 < 2 ^ (E + F.el) := Nat.two_pow_pos _
  have hlo' : 2 ^ (W - 2) * 2 ^ (E + F.el) ≤ top - base := by
    rw [← Nat.pow_add]; convert hlo using 2; omega
  have hhi' : top - base < 2 ^ (W - 1) * 2 ^ (E + F.el) := by
    rw [← Nat.pow_add]; convert hhi using 2; omega
  have hP : 2 ^ (W - 1) = 2 * 2 ^ (W - 2) := by rw [← Nat.pow_succ']; congr 1; omega
  have hP2 : 2 ^ W = 2 * 2 ^ (W - 1) := by rw [← Nat.pow_succ']; congr 1; omega
  have hP0 : 2 ≤ 2 ^ (W - 2) := by
    calc 2 = 2 ^ 1 := rfl
      _ ≤ 2 ^ (W - 2) := Nat.pow_le_pow_right (by decide) (by omega)
  -- E at its maximum only for the whole space
  have hEmax : E ≤ F.maxE := by
    by_contra hgt
    have h1 : 2 ^ (F.aw + 1) ≤ 2 ^ (E + (F.mw - 2)) := Nat.pow_le_pow_right (by decide) (by omega)
    have h2 : 2 ^ (F.aw + 1) = 2 * 2 ^ F.aw := Nat.pow_succ'
    have h3 := Nat.two_pow_pos F.aw
    omega
  have hwhole : E = F.maxE → base = 0 ∧ top = 2 ^ F.aw := by
    intro h
    have h1 : E + (F.mw - 2) = F.aw := by omega
    rw [h1] at hlo
    omega
  set K := 2 ^ (E + F.el) with hKdef
  -- floor and ceiling at the first granule
  set fb := base / K with hfb
  set ct := (top + K - 1) / K with hct
  have hfb1 : K * fb ≤ base := Nat.mul_div_le base K
  have hfb2 : base < K * fb + K := Nat.lt_mul_div_succ base hK
  have hct1 : top ≤ K * ct := by
    have := Nat.lt_mul_div_succ (top + K - 1) hK
    rw [← hct, Nat.mul_succ] at this
    omega
  have hct2 : K * ct < top + K := by
    have := Nat.mul_div_le (top + K - 1) K
    rw [← hct] at this
    omega
  have hge : fb + 2 ^ (W - 2) ≤ ct := by
    have : K * (fb + 2 ^ (W - 2)) ≤ K * ct := by
      rw [Nat.mul_add, Nat.mul_comm K (2 ^ (W - 2))]; omega
    exact Nat.le_of_mul_le_mul_left this hK
  have hle : ct ≤ fb + 2 ^ (W - 1) + 1 := by
    have : K * ct < K * (fb + 2 ^ (W - 1) + 2) := by
      rw [Nat.mul_add, Nat.mul_add, Nat.mul_comm K (2 ^ (W - 1))]; omega
    have := Nat.lt_of_mul_lt_mul_left this
    omega
  have hb : bottomMantissa F (E + F.el) base = fb % 2 ^ W := by rw [bottomMantissa_eq, hw]
  have ht : topMantissa F (E + F.el) top (lostBelow (E + F.el) top) = ct % 2 ^ W := by
    rw [topMantissa_eq, hw]
  have hlen : subMod W (ct % 2 ^ W) (fb % 2 ^ W) = ct - fb := subMod_of_mod _ _ _ (by omega) (by omega)
  by_cases hov : ct < fb + 2 ^ (W - 1)
  · -- no increment
    have hbit : bitAt (W - 1) (ct - fb) = false := Nat.testBit_lt_two_pow (by omega)
    have hr : ebtInternal F base top E
        = ebtInternalExponent F E (fb % 2 ^ W) (ct % 2 ^ W) (lostBelow (E + F.el) base) (lostBelow (E + F.el) top) := by
      simp only [ebtInternal, hb, ht, hw, hlen, hbit]
      simp
    rw [hr, if_neg (Nat.not_le.mpr hov)]
    exact
      { e_le := hEmax
        g_eq := rfl
        ebt_eq := by simp only [ebtInternalExponent, hw]; rfl
        exact_eq := exactFlag_lost _ _ _
        len_ge := by rw [hw]; exact hge
        len_lt := by rw [hw]; exact hov }
  · -- one exponent increment
    have hbit : bitAt (W - 1) (ct - fb) = true := by
      have h1 : (ct - fb) / 2 ^ (W - 1) = 1 := by
        apply Nat.div_eq_of_lt_le <;> omega
      rw [bitAt, Nat.testBit_eq_decide_div_mod_eq, h1]
      rfl
    have hlt : E < F.maxE := by
      rcases Nat.lt_or_eq_of_le hEmax with h | h
      · exact h
      · exfalso
        obtain ⟨rfl, h2⟩ := hwhole h
        have h3 : top = K * 2 ^ (W - 2) := by
          rw [h2, hKdef, ← Nat.pow_add]; congr 1; omega
        have h4 : ct < 2 ^ (W - 2) + 1 := by
          apply Nat.lt_of_mul_lt_mul_left (a := K)
          rw [Nat.mul_add]
          omega
        have h5 : fb = 0 := by rw [hfb]; exact Nat.zero_div K
        omega
    have hk1 : E + F.el + 1 = E + 1 + F.el := by omega
    have hfb' : base / 2 ^ (E + 1 + F.el) = fb / 2 := by
      rw [← hk1, Nat.pow_succ, ← Nat.div_div_eq_div_mul]
    have hct' : (top + 2 ^ (E + 1 + F.el) - 1) / 2 ^ (E + 1 + F.el) = (ct + 1) / 2 := by
      rw [← hk1, Nat.pow_succ, ← hKdef]
      apply Nat.div_eq_of_lt_le
      · rcases Nat.mod_two_eq_zero_or_one ct with h | h
        · have : (ct + 1) / 2 * (K * 2) = K * ct := by
            rw [show (ct + 1) / 2 = ct / 2 by omega, Nat.mul_comm K 2, ← Nat.mul_assoc,
              Nat.div_mul_cancel (Nat.dvd_of_mod_eq_zero h), Nat.mul_comm]
          omega
        · have : (ct + 1) / 2 * (K * 2) = K * ct + K := by
            rw [Nat.mul_comm K 2, ← Nat.mul_assoc, Nat.div_mul_cancel (by omega), Nat.mul_comm, Nat.mul_add, Nat.mul_one]
          omega
      · rcases Nat.mod_two_eq_zero_or_one ct with h | h
        · have : ((ct + 1) / 2 + 1) * (K * 2) = K * ct + 2 * K := by
            rw [show (ct + 1) / 2 = ct / 2 by omega, Nat.add_mul, Nat.mul_comm K 2, ← Nat.mul_assoc,
              Nat.div_mul_cancel (Nat.dvd_of_mod_eq_zero h), Nat.mul_comm ct K, Nat.one_mul]
          omega
        · have : ((ct + 1) / 2 + 1) * (K * 2) = K * ct + K + 2 * K := by
            rw [Nat.add_mul, Nat.mul_comm K 2, ← Nat.mul_assoc, Nat.div_mul_cancel (by omega), Nat.mul_comm (ct + 1) K,
              Nat.mul_add, Nat.mul_one, Nat.one_mul]
          omega
    have hlostB : (lostBelow (E + F.el) base || bitAt 0 (fb % 2 ^ W)) = lostBelow (E + 1 + F.el) base := by
      rw [bitAt_zero_mod (by omega), ← hk1, lostBelow_succ]
    have hlostT : (lostBelow (E + F.el) top || bitAt 0 (ct % 2 ^ W)) = lostBelow (E + 1 + F.el) top := by
      rw [bitAt_zero_mod (by omega), ← hk1, ← lostTop_succ]
    have hr : ebtInternal F base top E
        = ebtInternalExponent F (E + 1) (base / 2 ^ (E + 1 + F.el) % 2 ^ W)
            ((top + 2 ^ (E + 1 + F.el) - 1) / 2 ^ (E + 1 + F.el) % 2 ^ W)
            (lostBelow (E + 1 + F.el) base) (lostBelow (E + 1 + F.el) top) := by
      simp only [ebtInternal, hb, ht, hw, hlen, hbit, hlostB, hlostT, hk1]
      rw [bottomMantissa_eq, topMantissa_eq, hw]
      simp
    rw [hr, if_pos (Nat.not_lt.mp hov)]
    exact
      { e_le := hlt
        g_eq := rfl
        ebt_eq := by simp only [ebtInternalExponent, hw]
        exact_eq := exactFlag_lost _ _ _
        len_ge := by simp only [ebtInternalExponent, hw, hfb', hct']; omega
        len_lt := by simp only [ebtInternalExponent, hw, hfb', hct']; omega }

/-! ### Reading the fields of a placed subfield back -/

theorem place_eq {F : Fmt} (hf : FmtFacts F) (ie : Bool) {tf bf : Nat} (ht : tf < 2 ^ (F.mw - 2)) (hb : bf < 2 ^ F.mw) :
    place F ie tf bf = ie.toNat * 2 ^ (2 * F.mw - 2) + tf * 2 ^ F.mw + bf := by
  have hmw := hf.el_lt
  have h1 : 2 * F.mw - 2 = F.mw + (F.mw - 2) := by omega
  have hlow : tf * 2 ^ F.mw + bf < 2 ^ (2 * F.mw - 2) := by
    rw [h1, Nat.pow_add]
    have : (tf + 1) * 2 ^ F.mw ≤ 2 ^ (F.mw - 2) * 2 ^ F.mw := Nat.mul_le_mul_right _ ht
    rw [Nat.add_mul, Nat.one_mul, Nat.mul_comm (2 ^ (F.mw - 2))] at this
    omega
  have h2 : (tf <<< F.mw) ||| bf = tf * 2 ^ F.mw + bf := by
    rw [Nat.shiftLeft_eq, Nat.mul_comm, ← Nat.two_pow_add_eq_or_of_lt hb]
  rw [place, Nat.lor_assoc, h2, Nat.shiftLeft_eq, Nat.mul_comm ie.toNat, ← Nat.two_pow_add_eq_or_of_lt hlow,
    ← Nat.add_assoc]

theorem getf_b_place {F : Fmt} (hf : FmtFacts F) (ie : Bool) {tf bf : Nat} (ht : tf < 2 ^ (F.mw - 2)) (hb : bf < 2 ^ F.mw) :
    getf (place F ie tf bf) F.b = bf := by
  have hmw := hf.el_lt
  rw [getf_eq, place_eq hf ie ht hb, hf.b_eq]
  have h1 : 2 * F.mw - 2 = F.mw + (F.mw - 2) := by omega
  simp only [Nat.pow_zero, Nat.div_one]
  rw [h1, Nat.pow_add, show ie.toNat * (2 ^ F.mw * 2 ^ (F.mw - 2)) + tf * 2 ^ F.mw + bf
    = bf + 2 ^ F.mw * (ie.toNat * 2 ^ (F.mw - 2) + tf) by ring, Nat.add_mul_mod_self_left, Nat.mod_eq_of_lt hb]

theorem getf_t_place {F : Fmt} (hf : FmtFacts F) (ie : Bool) {tf bf : Nat} (ht : tf < 2 ^ (F.mw - 2)) (hb : bf < 2 ^ F.mw) :
    getf (place F ie tf bf) F.t = tf := by
  have hmw := hf.el_lt
  rw [getf_eq, place_eq hf ie ht hb, hf.t_eq]
  have h1 : 2 * F.mw - 2 = F.mw + (F.mw - 2) := by omega
  simp only
  rw [h1, Nat.pow_add, show ie.toNat * (2 ^ F.mw * 2 ^ (F.mw - 2)) + tf * 2 ^ F.mw + bf
    = bf + 2 ^ F.mw * (tf + 2 ^ (F.mw - 2) * ie.toNat) by ring, Nat.add_mul_div_left _ _ (Nat.two_pow_pos _),
    Nat.div_eq_of_lt hb, Nat.zero_add, Nat.add_mul_mod_self_left, Nat.mod_eq_of_lt ht]

theorem getf_ie_place {F : Fmt} (hf : FmtFacts F) (ie : Bool) {tf bf : Nat} (ht : tf < 2 ^ (F.mw - 2)) (hb : bf < 2 ^ F.mw) :
    getf (place F ie tf bf) F.ie = ie.toNat := by
  have hmw := hf.el_lt
  rw [getf_eq, place_eq hf ie ht hb, hf.ie_eq]
  have h1 : 2 * F.mw - 2 = F.mw + (F.mw - 2) := by omega
  have hlow : tf * 2 ^ F.mw + bf < 2 ^ (2 * F.mw - 2) := by
    rw [h1, Nat.pow_add]
    have : (tf + 1) * 2 ^ F.mw ≤ 2 ^ (F.mw - 2) * 2 ^ F.mw := Nat.mul_le_mul_right _ ht
    rw [Nat.add_mul, Nat.one_mul, Nat.mul_comm (2 ^ (F.mw - 2))] at this
    omega
  simp only
  rw [Nat.add_assoc, Nat.add_comm, Nat.add_mul_div_right _ _ (Nat.two_pow_pos _), Nat.div_eq_of_lt hlow, Nat.zero_add,
    Nat.pow_one]
  cases ie <;> rfl

end Sys2Proof.Machine
end

