-- ==== Sys2Proof/Laws/Exec.lean ====
section
/-! SUPPORT. Every meaning is the same shared operation applied to a pure result: what `exec` can do, said once. -/

namespace Sys2Proof.Machine

/-- The results or the cause of an instruction, as a function of the descriptor and the instruction alone. -/
def resultOf (F : Fmt) : Instr → Except Cause Results
  | .compressRaw cap => (compressRaw F cap).map .word
  | .decompressRaw word cursor tag => .ok (.cap (decompressRaw F word cursor tag))
  | .compressMem cap => (compressMem F cap).map .word
  | .decompressMem word cursor tag => .ok (.cap (decompressMem F word cursor tag))
  | .encodeBounds base top => (computeEbt F base top).map .ebt
  | .decodeBounds word cursor => .ok (.bounds (decodeBounds F word cursor))
  | .extractBoundsBits word => .ok (.boundsBits (extractBoundsBits F word))
  | .getPerms word => .ok (.perms (getf word F.hwperms))
  | .setPerms word perms => .ok (.word (setf word F.hwperms perms))
  | .getUperms word => .ok (.uperms (getf word F.uperms))
  | .setUperms word uperms => .ok (.word (setf word F.uperms uperms))
  | .getOtype word => .ok (.otype (getf word F.otype))
  | .setOtype word otype => .ok (.word (setf word F.otype otype))
  | .getFlags word => .ok (.flags (getf word F.flags))
  | .setFlags word flags => .ok (.word (setf word F.flags flags))
  | .getReserved word => .ok (.reserved (getf word F.reserved))
  | .setReserved word reserved => .ok (.word (setf word F.reserved reserved))
  | .isRepresentableExact cap => (representableExact F cap).map .predicate
  | .isRepresentableNewAddr _ base length cursor newCursor =>
    (representableNewAddr F base length cursor newCursor).map .predicate
  | .getRepresentableLength length => (granuleOf F length).map fun g => .length (roundUp g length)
  | .getRequiredAlignment length => (granuleOf F length).map fun g => .align (2 ^ g)
  | .getAlignmentMask length => (granuleOf F length).map fun g => .mask (ones g)
  | .setBounds cap reqBase reqTop => (setBounds F cap reqBase reqTop).map fun x => .capExact x.1 x.2
  | .makeMaxPermsCap base cursor top => (maxPermsCap F base cursor top).map .cap

/-- A `do` block that only wraps the result is a `map`. -/
theorem except_bind_pure {α β : Type} (x : Except Cause α) (f : α → β) :
    (do let a ← x; pure (f a)) = x.map f := by
  cases x <;> rfl

/-- Every instruction answers with its pure result, under its own operation. -/
theorem exec_eq_answer (i : Instr) (s : State) : exec i s = answer i.op s (resultOf s.fmt i) := by
  cases i <;>
    simp only [exec, resultOf, Instr.op, execCompressRaw, execDecompressRaw, execCompressMem, execDecompressMem,
      execEncodeBounds, execDecodeBounds, execExtractBoundsBits, execGetPerms, execSetPerms, execGetUperms,
      execSetUperms, execGetOtype, execSetOtype, execGetFlags, execSetFlags, execGetReserved, execSetReserved,
      execIsRepresentableExact, execIsRepresentableNewAddr, execGetRepresentableLength, execGetRequiredAlignment,
      execGetAlignmentMask, execSetBounds, execMakeMaxPermsCap, except_bind_pure]

/-- An instruction answers given results exactly when its pure result is those. -/
theorem exec_eq_next_iff {i : Instr} {s : State} {r : Results} :
    exec i s = .next (s.answered r) ↔ resultOf s.fmt i = .ok r := by
  rw [exec_eq_answer, answer_eq_next_iff]

/-- No instruction is refused. -/
theorem exec_ne_refused (i : Instr) (s : State) (r : Refusal) : exec i s ≠ .refused r := by
  rw [exec_eq_answer]
  cases resultOf s.fmt i <;> simp [answer, raise]

end Sys2Proof.Machine
end

