-- ==== Sys2Proof/Laws/Step.lean ====
section
/-! SUPPORT. What a step can do, said once: under a descriptor on the interface, and for a state. -/

namespace Sys2Proof.Machine

@[simp] theorem dropFmt_next (t : State) : dropFmt (.next t) = .next t.toInterface := rfl

@[simp] theorem dropFmt_fault (f : Fault) : dropFmt (.fault f) = .fault f := rfl

@[simp] theorem dropFmt_refused (r : Refusal) : dropFmt (.refused r) = .refused r := rfl

@[simp] theorem withFmt_next (F : Fmt) (x : Interface) : withFmt F (.next x) = .next (x.under F) := rfl

@[simp] theorem withFmt_fault (F : Fmt) (f : Fault) : withFmt F (.fault f) = .fault f := rfl

@[simp] theorem withFmt_refused (F : Fmt) (r : Refusal) : withFmt F (.refused r) = .refused r := rfl

/-- All that an instruction can do under a descriptor: answer its pure result, or raise its cause. -/
theorem execUnder_cases (F : Fmt) (i : Instr) (x : Interface) :
    (∃ r, resultOf F i = .ok r ∧ execUnder F i x = .next (x.respond (.ok r))) ∨
    (∃ c, resultOf F i = .error c ∧ execUnder F i x = .fault (.preconditionViolated i.op c)) := by
  rw [execUnder, exec_eq_answer, Interface.under_fmt]
  cases resultOf F i with
  | ok r => exact .inl ⟨r, rfl, rfl⟩
  | error c => exact .inr ⟨c, rfl, rfl⟩

theorem fetch_nil {x : Interface} (h : x.pending = []) : fetch x = none := by
  simp [fetch, h]

theorem fetch_cons {x : Interface} {r : Request} {rest : List Request} (h : x.pending = r :: rest) :
    fetch x = some (r, { x with pending := rest }) := by
  simp [fetch, h]

/-- With nothing pending a step changes nothing. -/
theorem stepUnder_idle {F : Fmt} {x : Interface} (hv : validFmt F = true) (h : x.pending = []) : stepUnder F x = .next x := by
  simp [stepUnder, hv, fetch_nil h]

/-- A step delivers the outcome of the oldest request. -/
theorem stepUnder_pending {F : Fmt} {x : Interface} {r : Request} {rest : List Request} (hv : validFmt F = true)
    (h : x.pending = r :: rest) :
    stepUnder F x = deliver { x with pending := rest } (evaluate F r { x with pending := rest }) := by
  simp [stepUnder, hv, fetch_cons h]

/-- Without a valid descriptor there is no step. -/
theorem stepUnder_invalid {F : Fmt} (hv : validFmt F = false) (x : Interface) :
    stepUnder F x = .refused .invalidDescriptor := by
  simp [stepUnder, hv]

theorem step_idle {s : State} (hv : validFmt s.fmt = true) (h : s.pending = []) : step s = .next s := by
  rw [step, stepUnder_idle hv h]
  rfl

theorem step_pending {s : State} {r : Request} {rest : List Request} (hv : validFmt s.fmt = true)
    (h : s.pending = r :: rest) :
    step s = withFmt s.fmt (deliver { s.toInterface with pending := rest }
      (evaluate s.fmt r { s.toInterface with pending := rest })) := by
  rw [step, stepUnder_pending hv h]

/-- Only a valid descriptor runs. -/
theorem step_next_valid {s t : State} (h : step s = .next t) : validFmt s.fmt = true := by
  by_contra hv
  simp [step, stepUnder, hv] at h

/-- All that evaluating a request can do: its instruction runs, an unassigned op is refused, or a wide operand is
rejected. -/
theorem evaluate_cases (F : Fmt) (r : Request) (x : Interface) :
    (∃ i, decode r = .ok i ∧ i.wf F = true ∧ evaluate F r x = execUnder F i x) ∨
    (∃ i, decode r = .ok i ∧ i.wf F = false ∧ evaluate F r x = .refused (.operandTooWide i.op)) ∨
    (opOfCode r.op = none ∧ evaluate F r x = .refused (.unassignedOp r.op)) := by
  cases ho : opOfCode r.op with
  | none => exact .inr (.inr ⟨rfl, by simp [evaluate, acceptRequest, decode, ho]⟩)
  | some o =>
    have hd : decode r = .ok (o.withOperands r.operands) := by simp [decode, ho]
    cases hw : (o.withOperands r.operands).wf F with
    | true => exact .inl ⟨_, hd, hw, by simp [evaluate, acceptRequest, hd, hw]⟩
    | false => exact .inr (.inl ⟨_, hd, hw, by simp [evaluate, acceptRequest, hd, hw]⟩)

end Sys2Proof.Machine
end

