-- ==== Sys2Proof/Laws/PerInstr.lean ====
section
/-!
SUPPORT. Statements about every instruction as syntax, one lemma per constructor. Family `Ports`: the instruction's
request carries its own op code, which no other operation has, and its operands come back from the ports it set.
-/

namespace Sys2Proof.Laws.Ports

/-- What the request of an instruction carries (30_encoding.md R100, R101). -/
def Statement (i : Instr) : Prop :=
  (encode i).op = i.op.code ∧ opOfCode (encode i).op = some i.op ∧ i.op.withOperands (encode i).operands = i

theorem compressRaw (cap : DecodedCap) : Statement (.compressRaw cap) := ⟨rfl, rfl, rfl⟩

theorem decompressRaw (word cursor : Nat) (tag : Bool) : Statement (.decompressRaw word cursor tag) := ⟨rfl, rfl, rfl⟩

theorem compressMem (cap : DecodedCap) : Statement (.compressMem cap) := ⟨rfl, rfl, rfl⟩

theorem decompressMem (word cursor : Nat) (tag : Bool) : Statement (.decompressMem word cursor tag) := ⟨rfl, rfl, rfl⟩

theorem encodeBounds (base top : Nat) : Statement (.encodeBounds base top) := ⟨rfl, rfl, rfl⟩

theorem decodeBounds (word cursor : Nat) : Statement (.decodeBounds word cursor) := ⟨rfl, rfl, rfl⟩

theorem extractBoundsBits (word : Nat) : Statement (.extractBoundsBits word) := ⟨rfl, rfl, rfl⟩

theorem getPerms (word : Nat) : Statement (.getPerms word) := ⟨rfl, rfl, rfl⟩

theorem setPerms (word perms : Nat) : Statement (.setPerms word perms) := ⟨rfl, rfl, rfl⟩

theorem getUperms (word : Nat) : Statement (.getUperms word) := ⟨rfl, rfl, rfl⟩

theorem setUperms (word uperms : Nat) : Statement (.setUperms word uperms) := ⟨rfl, rfl, rfl⟩

theorem getOtype (word : Nat) : Statement (.getOtype word) := ⟨rfl, rfl, rfl⟩

theorem setOtype (word otype : Nat) : Statement (.setOtype word otype) := ⟨rfl, rfl, rfl⟩

theorem getFlags (word : Nat) : Statement (.getFlags word) := ⟨rfl, rfl, rfl⟩

theorem setFlags (word flags : Nat) : Statement (.setFlags word flags) := ⟨rfl, rfl, rfl⟩

theorem getReserved (word : Nat) : Statement (.getReserved word) := ⟨rfl, rfl, rfl⟩

theorem setReserved (word reserved : Nat) : Statement (.setReserved word reserved) := ⟨rfl, rfl, rfl⟩

theorem isRepresentableExact (cap : DecodedCap) : Statement (.isRepresentableExact cap) := ⟨rfl, rfl, rfl⟩

theorem isRepresentableNewAddr (isSealed : Bool) (base length cursor newCursor : Nat) :
    Statement (.isRepresentableNewAddr isSealed base length cursor newCursor) := ⟨rfl, rfl, rfl⟩

theorem getRepresentableLength (length : Nat) : Statement (.getRepresentableLength length) := ⟨rfl, rfl, rfl⟩

theorem getRequiredAlignment (length : Nat) : Statement (.getRequiredAlignment length) := ⟨rfl, rfl, rfl⟩

theorem getAlignmentMask (length : Nat) : Statement (.getAlignmentMask length) := ⟨rfl, rfl, rfl⟩

theorem setBounds (cap : DecodedCap) (reqBase reqTop : Nat) : Statement (.setBounds cap reqBase reqTop) := ⟨rfl, rfl, rfl⟩

theorem makeMaxPermsCap (base cursor top : Nat) : Statement (.makeMaxPermsCap base cursor top) := ⟨rfl, rfl, rfl⟩

end Sys2Proof.Laws.Ports
end

