-- ==== Sys2Proof/Tests/Slice0.lean ====
section
/-!
SUPPORT. The model's own tests. Op words are written out bit by bit from 30_encoding.md R101; every expected result is from the
spec: the worked examples of its rules and the tables of 95_test_vectors.md. The last section gives, for each statement with
hypotheses, a concrete case that meets them together.
-/

namespace Sys2Proof.Tests

open Sys2Proof.Machine

/-- The response to one request on a fresh block. -/
def reply (F : Fmt) (i : Instr) : Option Response :=
  match step { State.fresh F with pending := [encode i] } with
  | .next s => s.responses.getLast?
  | .fault _ => none
  | .refused _ => none

/-- A record with the given bounds and address and no permissions. -/
def boundsOnly (address base top : Nat) : DecodedCap := ⟨address, base, top, 0, 0, 0, 0, 0, false⟩

/-- The CC128 record of 44_builder.md R240's examples. -/
def fullCap : DecodedCap := ⟨0x1000, 0, 2 ^ 64, 0xFFF, 0xF, 0x3FFFF, 0, 0, true⟩

/-! ## Decoding: the op word of every row -/

theorem test_decode_compressRaw (p : Operands) :
    decode ⟨0b00000#5, p⟩ = .ok (.compressRaw p.cap) := rfl

theorem test_decode_decompressRaw (p : Operands) :
    decode ⟨0b00001#5, p⟩ = .ok (.decompressRaw p.word p.cursor p.tag) := rfl

theorem test_decode_compressMem (p : Operands) :
    decode ⟨0b00010#5, p⟩ = .ok (.compressMem p.cap) := rfl

theorem test_decode_decompressMem (p : Operands) :
    decode ⟨0b00011#5, p⟩ = .ok (.decompressMem p.word p.cursor p.tag) := rfl

theorem test_decode_encodeBounds (p : Operands) :
    decode ⟨0b00100#5, p⟩ = .ok (.encodeBounds p.base p.top) := rfl

theorem test_decode_decodeBounds (p : Operands) :
    decode ⟨0b00101#5, p⟩ = .ok (.decodeBounds p.word p.cursor) := rfl

theorem test_decode_extractBoundsBits (p : Operands) :
    decode ⟨0b00110#5, p⟩ = .ok (.extractBoundsBits p.word) := rfl

theorem test_decode_getPerms (p : Operands) :
    decode ⟨0b01000#5, p⟩ = .ok (.getPerms p.word) := rfl

theorem test_decode_setPerms (p : Operands) :
    decode ⟨0b01001#5, p⟩ = .ok (.setPerms p.word p.perms) := rfl

theorem test_decode_getUperms (p : Operands) :
    decode ⟨0b01010#5, p⟩ = .ok (.getUperms p.word) := rfl

theorem test_decode_setUperms (p : Operands) :
    decode ⟨0b01011#5, p⟩ = .ok (.setUperms p.word p.uperms) := rfl

theorem test_decode_getOtype (p : Operands) :
    decode ⟨0b01100#5, p⟩ = .ok (.getOtype p.word) := rfl

theorem test_decode_setOtype (p : Operands) :
    decode ⟨0b01101#5, p⟩ = .ok (.setOtype p.word p.otype) := rfl

theorem test_decode_getFlags (p : Operands) :
    decode ⟨0b01110#5, p⟩ = .ok (.getFlags p.word) := rfl

theorem test_decode_setFlags (p : Operands) :
    decode ⟨0b01111#5, p⟩ = .ok (.setFlags p.word p.flags) := rfl

theorem test_decode_getReserved (p : Operands) :
    decode ⟨0b10000#5, p⟩ = .ok (.getReserved p.word) := rfl

theorem test_decode_setReserved (p : Operands) :
    decode ⟨0b10001#5, p⟩ = .ok (.setReserved p.word p.reserved) := rfl

theorem test_decode_isRepresentableExact (p : Operands) :
    decode ⟨0b10010#5, p⟩ = .ok (.isRepresentableExact p.cap) := rfl

theorem test_decode_isRepresentableNewAddr (p : Operands) :
    decode ⟨0b10011#5, p⟩ = .ok (.isRepresentableNewAddr p.isSealed p.base p.length p.cursor p.newCursor) := rfl

theorem test_decode_getRepresentableLength (p : Operands) :
    decode ⟨0b10100#5, p⟩ = .ok (.getRepresentableLength p.length) := rfl

theorem test_decode_getRequiredAlignment (p : Operands) :
    decode ⟨0b10101#5, p⟩ = .ok (.getRequiredAlignment p.length) := rfl

theorem test_decode_getAlignmentMask (p : Operands) :
    decode ⟨0b10110#5, p⟩ = .ok (.getAlignmentMask p.length) := rfl

theorem test_decode_setBounds (p : Operands) :
    decode ⟨0b10111#5, p⟩ = .ok (.setBounds p.cap p.reqBase p.reqTop) := rfl

theorem test_decode_makeMaxPermsCap (p : Operands) :
    decode ⟨0b11000#5, p⟩ = .ok (.makeMaxPermsCap p.base p.cursor p.top) := rfl

/-- R102: the unassigned codes. -/
theorem test_decode_unassigned :
    [0b00111#5, 0b11001#5, 0b11010#5, 0b11011#5, 0b11100#5, 0b11101#5, 0b11110#5, 0b11111#5].all
      (fun c => (opOfCode c).isNone) = true := by decide

/-! ## Well-formedness: each check refuses an operand one bit too wide -/

theorem test_wf_decodedCap :
    DecodedCap.fits cc128 fullCap = true ∧
    DecodedCap.fits cc128 { fullCap with address := 2 ^ 64 } = false ∧
    DecodedCap.fits cc128 { fullCap with base := 2 ^ 64 } = false ∧
    DecodedCap.fits cc128 { fullCap with top := 2 ^ 65 } = false ∧
    DecodedCap.fits cc128 { fullCap with perms := 2 ^ 12 } = false ∧
    DecodedCap.fits cc128 { fullCap with uperms := 2 ^ 4 } = false ∧
    DecodedCap.fits cc128 { fullCap with otype := 2 ^ 18 } = false ∧
    DecodedCap.fits cc128 { fullCap with flags := 2 } = false ∧
    DecodedCap.fits cc128 { fullCap with reserved := 4 } = false ∧
    DecodedCap.fits cc64 { DecodedCap.zero with uperms := 1 } = false := by decide

theorem test_wf_compressRaw :
    Instr.wf cc128 (.compressRaw fullCap) = true ∧
    Instr.wf cc128 (.compressRaw { fullCap with flags := 2 }) = false := by decide

theorem test_wf_decompressRaw :
    Instr.wf cc128 (.decompressRaw 0 0 true) = true ∧
    Instr.wf cc128 (.decompressRaw (2 ^ 64) 0 true) = false ∧
    Instr.wf cc128 (.decompressRaw 0 (2 ^ 64) true) = false := by decide

theorem test_wf_compressMem :
    Instr.wf cc128 (.compressMem fullCap) = true ∧
    Instr.wf cc128 (.compressMem { fullCap with flags := 2 }) = false := by decide

theorem test_wf_decompressMem :
    Instr.wf cc128 (.decompressMem 0 0 true) = true ∧
    Instr.wf cc128 (.decompressMem (2 ^ 64) 0 true) = false ∧
    Instr.wf cc128 (.decompressMem 0 (2 ^ 64) true) = false := by decide

theorem test_wf_encodeBounds :
    Instr.wf cc128 (.encodeBounds 0 0) = true ∧
    Instr.wf cc128 (.encodeBounds (2 ^ 64) 0) = false ∧
    Instr.wf cc128 (.encodeBounds 0 (2 ^ 65)) = false := by decide

theorem test_wf_decodeBounds :
    Instr.wf cc128 (.decodeBounds 0 0) = true ∧
    Instr.wf cc128 (.decodeBounds (2 ^ 64) 0) = false ∧
    Instr.wf cc128 (.decodeBounds 0 (2 ^ 64)) = false := by decide

theorem test_wf_extractBoundsBits :
    Instr.wf cc128 (.extractBoundsBits 0) = true ∧
    Instr.wf cc128 (.extractBoundsBits (2 ^ 64)) = false := by decide

theorem test_wf_getPerms :
    Instr.wf cc128 (.getPerms 0) = true ∧
    Instr.wf cc128 (.getPerms (2 ^ 64)) = false := by decide

theorem test_wf_setPerms :
    Instr.wf cc128 (.setPerms 0 0) = true ∧
    Instr.wf cc128 (.setPerms (2 ^ 64) 0) = false ∧
    Instr.wf cc128 (.setPerms 0 (2 ^ 12)) = false := by decide

theorem test_wf_getUperms :
    Instr.wf cc128 (.getUperms 0) = true ∧
    Instr.wf cc128 (.getUperms (2 ^ 64)) = false := by decide

theorem test_wf_setUperms :
    Instr.wf cc128 (.setUperms 0 0) = true ∧
    Instr.wf cc128 (.setUperms (2 ^ 64) 0) = false ∧
    Instr.wf cc128 (.setUperms 0 (2 ^ 4)) = false := by decide

theorem test_wf_getOtype :
    Instr.wf cc128 (.getOtype 0) = true ∧
    Instr.wf cc128 (.getOtype (2 ^ 64)) = false := by decide

theorem test_wf_setOtype :
    Instr.wf cc128 (.setOtype 0 0) = true ∧
    Instr.wf cc128 (.setOtype (2 ^ 64) 0) = false ∧
    Instr.wf cc128 (.setOtype 0 (2 ^ 18)) = false := by decide

theorem test_wf_getFlags :
    Instr.wf cc128 (.getFlags 0) = true ∧
    Instr.wf cc128 (.getFlags (2 ^ 64)) = false := by decide

theorem test_wf_setFlags :
    Instr.wf cc128 (.setFlags 0 0) = true ∧
    Instr.wf cc128 (.setFlags (2 ^ 64) 0) = false ∧
    Instr.wf cc128 (.setFlags 0 (2 ^ 1)) = false := by decide

theorem test_wf_getReserved :
    Instr.wf cc128 (.getReserved 0) = true ∧
    Instr.wf cc128 (.getReserved (2 ^ 64)) = false := by decide

theorem test_wf_setReserved :
    Instr.wf cc128 (.setReserved 0 0) = true ∧
    Instr.wf cc128 (.setReserved (2 ^ 64) 0) = false ∧
    Instr.wf cc128 (.setReserved 0 (2 ^ 2)) = false := by decide

theorem test_wf_isRepresentableExact :
    Instr.wf cc128 (.isRepresentableExact fullCap) = true ∧
    Instr.wf cc128 (.isRepresentableExact { fullCap with flags := 2 }) = false := by decide

theorem test_wf_isRepresentableNewAddr :
    Instr.wf cc128 (.isRepresentableNewAddr true 0 0 0 0) = true ∧
    Instr.wf cc128 (.isRepresentableNewAddr true (2 ^ 64) 0 0 0) = false ∧
    Instr.wf cc128 (.isRepresentableNewAddr true 0 (2 ^ 65) 0 0) = false ∧
    Instr.wf cc128 (.isRepresentableNewAddr true 0 0 (2 ^ 64) 0) = false ∧
    Instr.wf cc128 (.isRepresentableNewAddr true 0 0 0 (2 ^ 64)) = false := by decide

theorem test_wf_getRepresentableLength :
    Instr.wf cc128 (.getRepresentableLength 0) = true ∧
    Instr.wf cc128 (.getRepresentableLength (2 ^ 65)) = false := by decide

theorem test_wf_getRequiredAlignment :
    Instr.wf cc128 (.getRequiredAlignment 0) = true ∧
    Instr.wf cc128 (.getRequiredAlignment (2 ^ 65)) = false := by decide

theorem test_wf_getAlignmentMask :
    Instr.wf cc128 (.getAlignmentMask 0) = true ∧
    Instr.wf cc128 (.getAlignmentMask (2 ^ 65)) = false := by decide

theorem test_wf_setBounds :
    Instr.wf cc128 (.setBounds fullCap 0 0) = true ∧
    Instr.wf cc128 (.setBounds { fullCap with flags := 2 } 0 0) = false ∧
    Instr.wf cc128 (.setBounds fullCap (2 ^ 64) 0) = false ∧
    Instr.wf cc128 (.setBounds fullCap 0 (2 ^ 65)) = false := by decide

theorem test_wf_makeMaxPermsCap :
    Instr.wf cc128 (.makeMaxPermsCap 0 0 0) = true ∧
    Instr.wf cc128 (.makeMaxPermsCap (2 ^ 64) 0 0) = false ∧
    Instr.wf cc128 (.makeMaxPermsCap 0 (2 ^ 64) 0) = false ∧
    Instr.wf cc128 (.makeMaxPermsCap 0 0 (2 ^ 65)) = false := by decide

/-! ## One step per test, expected results from the spec -/

/-- R156's example. -/
theorem test_compressRaw : reply cc128 (.compressRaw ⟨0, 0, 0x10000, 0xFFF, 0xF, 0x3FFFF, 0, 0, true⟩) = some (.ok (.word 0xFFFF1FFFFC000004)) := by decide

/-- 95_test_vectors.md 2.6: the bounds of a decode result with top below base. -/
theorem test_compressRaw_inverted : reply cc128 (.compressRaw (boundsOnly 0 0xFFC0000000000000 0x7FC0000000000000)) = some (.fault .compressRaw .bounds) := by decide

/-- 95_test_vectors.md 2.3. -/
theorem test_decompressRaw : reply cc128 (.decompressRaw 0xFFFF1FFFFC000004 0x8000 true) = some (.ok (.cap ⟨0x8000, 0, 0x10000, 0xFFF, 0xF, 0x3FFFF, 0, 0, true⟩)) := by decide

/-- R186's example: a zero-length record sealed with object type 0. -/
theorem test_decompressRaw_zero : reply cc128 (.decompressRaw 0 0 false) = some (.ok (.cap ⟨0, 0, 0, 0, 0, 0, 0, 0, false⟩)) := by decide

/-- R157's example. -/
theorem test_compressMem : reply cc128 (.compressMem ⟨0, 0, 0x10000, 0xFFF, 0xF, 0x3FFFF, 0, 0, true⟩) = some (.ok (.word 0xFFFF000000018000)) := by decide

/-- R160: the CC64 null capability. -/
theorem test_compressMem_null : reply cc64 (.compressMem ⟨0, 0, 2 ^ 32, 0, 0, 0xF, 0, 0, false⟩) = some (.ok (.word 0)) := by decide

/-- R188's example. -/
theorem test_decompressMem_zero : reply cc128 (.decompressMem 0 0 false) = some (.ok (.cap ⟨0, 0, 2 ^ 64, 0, 0, 0x3FFFF, 0, 0, false⟩)) := by decide

/-- 95_test_vectors.md 2.3. -/
theorem test_decompressMem_cc64 : reply cc64 (.decompressMem 0 0x1234 true) = some (.ok (.cap ⟨0x1234, 0, 2 ^ 32, 0, 0, 0xF, 0, 0, true⟩)) := by decide

/-- R159's example: rounding that forces an exponent increment. -/
theorem test_encodeBounds_increment : reply cc128 (.encodeBounds 0x1001 0x3000) = some (.ok (.ebt ⟨0x6000801, false, 4⟩)) := by decide

/-- 95_test_vectors.md 2.2. -/
theorem test_encodeBounds_cc64 : reply cc64 (.encodeBounds 0x12345 0x23456) = some (.ok (.ebt ⟨0x514A, false, 13⟩)) := by decide

/-- R185's example: the window behind, with the top-bit correction. -/
theorem test_decodeBounds_behind : reply cc128 (.decodeBounds 0x4001000 0) = some (.ok (.bounds ⟨0xFFFFFFFFFFFFD000, 0xFFFFFFFFFFFFE000⟩)) := by decide

/-- 95_test_vectors.md 2.3: top 2^64 from a cursor in the wrapped window. -/
theorem test_decodeBounds_topBit : reply cc128 (.decodeBounds 0x4003000 0x800) = some (.ok (.bounds ⟨0xFFFFFFFFFFFFF000, 2 ^ 64⟩)) := by decide

/-- R180's example: the top bits of T wrap. -/
theorem test_extractBoundsBits_wrap : reply cc128 (.extractBoundsBits 0x403F00) = some (.ok (.boundsBits ⟨false, 0, 0x3F00, 0x100⟩)) := by decide

/-- 95_test_vectors.md 2.3: the stored exponent 63 is not clamped. -/
theorem test_extractBoundsBits_unclamped : reply cc128 (.extractBoundsBits 0x401C007) = some (.ok (.boundsBits ⟨true, 63, 0, 0x1000⟩)) := by decide

/-- R124's example. -/
theorem test_getPerms : reply cc128 (.getPerms 0xFFFF1FFFFC000004) = some (.ok (.perms 0xFFF)) := by decide

/-- R125's example. -/
theorem test_setPerms : reply cc128 (.setPerms 0xFFFF1FFFFC000004 0x0F0) = some (.ok (.word 0xF0F01FFFFC000004)) := by decide

/-- 95_test_vectors.md 2.1. -/
theorem test_setPerms_cc64 : reply cc64 (.setPerms 0xFFF7C102 0x001) = some (.ok (.word 0x0017C102)) := by decide

/-- R126's example. -/
theorem test_getUperms : reply cc128 (.getUperms 0xFFFF1FFFFC000004) = some (.ok (.uperms 0xF)) := by decide

/-- 95_test_vectors.md 2.1: a field of width 0. -/
theorem test_getUperms_cc64 : reply cc64 (.getUperms 0xFFFFFFFF) = some (.ok (.uperms 0)) := by decide

/-- R127's example. -/
theorem test_setUperms : reply cc128 (.setUperms 0xFFFF1FFFFC000004 0) = some (.ok (.word 0x0FFF1FFFFC000004)) := by decide

/-- 95_test_vectors.md 2.1: a width-0 operand. -/
theorem test_setUperms_cc64 : reply cc64 (.setUperms 0x12345678 0) = some (.ok (.word 0x12345678)) := by decide

/-- R128's example. -/
theorem test_getOtype : reply cc128 (.getOtype 0x00001FFFFC018004) = some (.ok (.otype 0x3FFFF)) := by decide

/-- R129's example. -/
theorem test_setOtype : reply cc128 (.setOtype 0 5) = some (.ok (.word 0x0000000028000000)) := by decide

/-- R129's CC64 example. -/
theorem test_setOtype_cc64 : reply cc64 (.setOtype 0xFFF7C102 0xE) = some (.ok (.word 0xFFF74102)) := by decide

/-- R130's example. -/
theorem test_getFlags : reply cc128 (.getFlags 0x00003FFFFC018004) = some (.ok (.flags 1)) := by decide

/-- R131's CC64 example. -/
theorem test_setFlags : reply cc64 (.setFlags 0 1) = some (.ok (.word 0x00080000)) := by decide

/-- R132's example. -/
theorem test_getReserved : reply cc128 (.getReserved 0x0000C00000000000) = some (.ok (.reserved 3)) := by decide

/-- R133's example. -/
theorem test_setReserved : reply cc128 (.setReserved 0x00001FFFFC018004 2) = some (.ok (.word 0x00009FFFFC018004)) := by decide

/-- R210's example: the last cursor of the window. -/
theorem test_isRepresentableExact_edge : reply cc128 (.isRepresentableExact (boundsOnly 0x47FF 0x1000 0x2000)) = some (.ok (.predicate true)) := by decide

/-- 90_conflicts.md C11. -/
theorem test_isRepresentableExact_outside : reply cc128 (.isRepresentableExact (boundsOnly 0x5000 0x1000 0x2000)) = some (.ok (.predicate false)) := by decide

/-- R211's example. -/
theorem test_isRepresentableNewAddr_outside : reply cc128 (.isRepresentableNewAddr true 0x1000 0x1000 0x1000 0x4800) = some (.ok (.predicate false)) := by decide

/-- 95_test_vectors.md 2.4: the old cursor does not decode the bounds. -/
theorem test_isRepresentableNewAddr_fault : reply cc128 (.isRepresentableNewAddr false 0x1000 0x1000 0 0x1000) = some (.fault .isRepresentableNewAddr .notRepresentable) := by decide

/-- R213's example. -/
theorem test_getRepresentableLength : reply cc128 (.getRepresentableLength 0x12345) = some (.ok (.length 0x12380)) := by decide

/-- R213's CC64 example. -/
theorem test_getRepresentableLength_cc64 : reply cc64 (.getRepresentableLength 0x12345) = some (.ok (.length 0x14000)) := by decide

/-- R214's example. -/
theorem test_getRequiredAlignment : reply cc128 (.getRequiredAlignment (2 ^ 64)) = some (.ok (.align (2 ^ 55))) := by decide

/-- R215's CC64 example. -/
theorem test_getAlignmentMask : reply cc64 (.getAlignmentMask 0xFFF) = some (.ok (.mask 0x1FF)) := by decide

/-- 95_test_vectors.md 2.6. -/
theorem test_getAlignmentMask_fault : reply cc64 (.getAlignmentMask (2 ^ 32 + 1)) = some (.fault .getAlignmentMask .length) := by decide

/-- R240's table. -/
theorem test_setBounds_widened : reply cc128 (.setBounds fullCap 0x123456789 0x987654321) = some (.ok (.capExact { fullCap with base := 0x120000000, top := 0x988000000 } false)) := by decide

/-- R240's table and 90_conflicts.md C10. -/
theorem test_setBounds_conflictC10 : reply cc128 (.setBounds fullCap 0x1000 0x1FFF) = some (.ok (.capExact { fullCap with base := 0x1000, top := 0x1FFF } true)) := by decide

/-- R241's example, the source's scenario S3. -/
theorem test_makeMaxPermsCap : reply cc128 (.makeMaxPermsCap 0 0 0x10000) = some (.ok (.cap ⟨0, 0, 0x10000, 0xFFF, 0xF, 0x3FFFF, 0, 0, true⟩)) := by decide

/-- 95_test_vectors.md 2.6: cause 1 is checked before cause 4. -/
theorem test_makeMaxPermsCap_priority : reply cc128 (.makeMaxPermsCap 0x3000 0 0x1001) = some (.fault .makeMaxPermsCap .bounds) := by decide

/-- 95_test_vectors.md 2.6: op 0x07 is refused and returned to the requester. -/
theorem test_step_refused :
    (match step { State.fresh cc64 with pending := [⟨0x07#5, Operands.zero⟩] } with
     | .next s => decide (s.responses = [.refused 0x07#5])
     | _ => false) = true := by decide

/-- R105: the null capability at a cursor. -/
theorem test_nullcap :
    runProgram cc128 [.nullcap 0 (.lit (.num 0x1000))] []
      = some [(0, .cap ⟨0x1000, 0, 2 ^ 64, 0, 0, 0x3FFFF, 0, 0, false⟩)] := by decide

/-- R88: the twelve permission bits have the positions 0 to 11, and all of them together are `PERMS_ALL`. -/
theorem test_permBits :
    ([Perm.global, .permitExecute, .permitLoad, .permitStore, .permitLoadCapability, .permitStoreCapability,
      .permitStoreLocalCapability, .permitSeal, .permitCinvoke, .permitUnseal, .permitAccessSystemRegisters,
      .permitSetCid].map Perm.bit = List.range 12) ∧ cc128.permsAll = 0xFFF ∧ cc64.permsAll = 0xFFF ∧
    cc128.upermsAll = 0xF ∧ cc64.upermsAll = 0 ∧ cc128.otypeSentry = 0x3FFFE ∧ cc64.otypeSentry = 0xE := by decide

/-- R104's written form, on a line of 95_test_vectors.md P2 (numerals in lower case, names numbered). -/
theorem test_lineText :
    (Line.request .setBounds [4, 5] [.name 0, .lit (.num 0x100000), .lit (.num 0x112380)]).text
      = "SETBOUNDS v4, v5 <- v0, 0x100000, 0x112380" := by decide

/-- The word and the cursor of a stored capability under the two byte orders (the layout is an argument, R62). -/
theorem test_memoryImage :
    memoryImage ⟨true, true⟩ cc64 0x11223344 0x55667788
      = [0x88#8, 0x77#8, 0x66#8, 0x55#8, 0x44#8, 0x33#8, 0x22#8, 0x11#8] ∧
    memoryImage ⟨false, false⟩ cc64 0x11223344 0x55667788
      = [0x11#8, 0x22#8, 0x33#8, 0x44#8, 0x55#8, 0x66#8, 0x77#8, 0x88#8] := by decide

/-- R13: a descriptor with a wrong null mask, or a mantissa wider than the address, has no block. -/
theorem test_invalid_descriptors :
    instantiate { cc128 with nullXorMask := 0 } = none ∧ instantiate { cc64 with mw := 33 } = none := by decide

/-- R87: the reserved object types of CC64. -/
theorem test_otypeMeaning :
    [15, 14, 13, 12, 11].map (Fmt.otypeMeaning cc64)
      = [.unsealed, .sentry, .reserved2, .reserved3, .sealedWith 11] := by decide

/-! ## Witnesses: for each statement with hypotheses, a case that meets all of them -/

/-- A CC128 block with two requests pending and a response already returned. -/
def busy : State :=
  { fmt := cc128, pending := [encode (.getPerms 0x5), encode (.encodeBounds 0x1001 0x3000)], responses := [.ok (.mask 7)] }

theorem witness_UnassignedOpsAreRefused :
    validFmt cc128 = true ∧ ({ busy with pending := [⟨0x19#5, Operands.zero⟩] } : State).pending = ⟨0x19#5, Operands.zero⟩ :: [] ∧
    (0x19#5 = (0x07#5 : BitVec 5) ∨ (0x19#5 : BitVec 5) ≤ 0x19#5) := by decide

theorem witness_UnassignedOpsAreRefused_assigned :
    validFmt busy.fmt = true ∧ busy.pending = encode (.getPerms 0x5) :: [encode (.encodeBounds 0x1001 0x3000)] ∧
    ¬ ((encode (.getPerms 0x5)).op = 0x07#5 ∨ 0x19#5 ≤ (encode (.getPerms 0x5)).op) ∧
    (encode (.getPerms 0x5)).presentable busy.fmt := by
  refine ⟨by decide, rfl, by decide, ?_⟩
  intro i hi
  cases hi
  decide

theorem witness_StepRunsDecodedInstruction :
    validFmt busy.fmt = true ∧ busy.pending = encode (.getPerms 0x5) :: [encode (.encodeBounds 0x1001 0x3000)] ∧
    decode (encode (.getPerms 0x5)) = .ok (.getPerms 0x5) ∧ Instr.wf busy.fmt (.getPerms 0x5) = true ∧
    ∃ t, exec (.getPerms 0x5) { busy with pending := [encode (.encodeBounds 0x1001 0x3000)] } = .next t := ⟨by decide, rfl, rfl, by decide, _, rfl⟩

theorem witness_StepRunsDecodedInstruction_fault :
    ∃ c, exec (.encodeBounds 2 1) { busy with pending := [] } = .fault (.preconditionViolated .encodeBounds c) := ⟨.bounds, by rw [exec_eq_answer]; rfl⟩

theorem witness_FetchWordRunsNext :
    validFmt busy.fmt = true ∧ decodeTableWord 8 0x04 = some (.encodeBounds 0 0) ∧
    ∃ t, exec (.encodeBounds 0 0) busy = .next t := ⟨by decide, rfl, _, by rw [exec_eq_answer]; rfl⟩

theorem witness_OutcomeDependsOnRequestAndFormatOnly :
    busy.fmt = (State.fresh cc128).fmt ∧ exec (.getPerms 0x5) busy = .next (busy.answered (.perms 0)) ∧
    ∃ f, exec (.encodeBounds 2 1) busy = .fault f := ⟨rfl, by rw [exec_eq_answer]; rfl, _, by rw [exec_eq_answer]; rfl⟩

theorem witness_RequestOrderIsNotObservable :
    validFmt busy.fmt = true ∧ (encode (.getPerms 0x5)).presentable busy.fmt ∧
    (encode (.encodeBounds 0x1001 0x3000)).presentable busy.fmt := by
  refine ⟨by decide, ?_, ?_⟩ <;>
    · intro i hi
      cases hi
      decide

theorem witness_BlockNeverHalts :
    validFmt busy.fmt = true ∧ (∀ r ∈ busy.pending, r.presentable busy.fmt) ∧
    busy.pending = encode (.getPerms 0x5) :: [encode (.encodeBounds 0x1001 0x3000)] := by
  refine ⟨by decide, ?_, rfl⟩
  intro r hr
  simp only [busy, List.mem_cons, List.not_mem_nil, or_false] at hr
  rcases hr with rfl | rfl <;>
    · intro i hi
      cases hi
      decide

theorem witness_BlockNeverHalts_idle :
    validFmt State.reset.fmt = true ∧ (∀ r ∈ State.reset.pending, r.presentable State.reset.fmt) ∧ State.reset.pending = [] := by
  refine ⟨by decide, ?_, rfl⟩
  intro r hr
  simp [State.reset] at hr

theorem witness_WideOperandsAreRejected :
    validFmt cc128 = true ∧
    ({ busy with pending := [encode (.getPerms (2 ^ 64))] } : State).pending = encode (.getPerms (2 ^ 64)) :: [] ∧
    decode (encode (.getPerms (2 ^ 64))) = .ok (.getPerms (2 ^ 64)) ∧ Instr.wf cc128 (.getPerms (2 ^ 64)) = false := ⟨by decide, rfl, rfl, by decide⟩

theorem witness_StepKeepsSoundness :
    busy.Sound ∧ ∃ t, step busy = .next t := by
  refine ⟨⟨by decide, by decide⟩, ?_⟩
  refine ⟨{ busy with pending := [encode (.encodeBounds 0x1001 0x3000)], responses := [.ok (.mask 7), .ok (.perms 0)] }, ?_⟩
  rw [step_pending (r := encode (.getPerms 0x5)) (rest := [encode (.encodeBounds 0x1001 0x3000)]) (by decide) rfl]
  rfl

theorem witness_BlockExistsOnlyForValidDescriptor :
    instantiate cc64 = some (State.fresh cc64) ∧ instantiate { busy.fmt with nullXorMask := 0 } = none := by decide

theorem witness_Cc128Layout :
    0xFFFF1FFFFC000004 < 2 ^ 64 ∧ 0xFFFFFFFFFFFFFFFF < 2 ^ 64 ∧ 0xFFFF1FFFFC000004 / 2 ^ 26 % 2 = 1 := by decide

theorem witness_Cc64Layout :
    0xFFF7C102 < 2 ^ 32 ∧ 0xFFFFFFFF < 2 ^ 32 ∧ 0xFFF7C102 / 2 ^ 14 % 2 = 1 := by decide

theorem witness_FieldBitsAreReadAndWrittenExactly :
    0xFFF < 2 ^ cc128.hwperms.width ∧ 0 < 2 ^ cc64.uperms.width ∧ cc64.uperms.width = 0 := by decide

theorem witness_FieldInsertExtractLaws :
    validFmt cc128 = true ∧ cc128.otype ∈ cc128.fields ∧ cc128.t ∈ cc128.fields ∧ cc128.t ≠ cc128.otype ∧
    0x3FFFF < 2 ^ cc128.otype.width := by decide

theorem witness_GettersReturnTheirField :
    (State.fresh cc64).fmt = cc64 ∧ validFmt (State.fresh cc64).fmt = true := by decide

theorem witness_SettersReplaceTheirField :
    validFmt cc128 = true ∧ 0xFFFFFFFFFFFFFFFF < 2 ^ cc128.aw ∧ 1 < 2 ^ cc128.hwperms.width ∧ 1 < 2 ^ cc128.uperms.width ∧
    1 < 2 ^ cc128.otype.width ∧ 1 < 2 ^ cc128.flags.width ∧ 1 < 2 ^ cc128.reserved.width ∧
    1 = getf 0x0001000000000000 cc128.hwperms := by decide

theorem witness_ExponentSelection :
    validFmt cc128 = true ∧ 2 ^ 64 ≤ 2 ^ cc128.aw ∧ 2 ^ 64 / 2 ^ (cc128.mw - 1) ≠ 0 ∧ 2 ^ (cc128.mw - 1) ≤ 2 ^ 64 ∧
    0xFFF / 2 ^ (cc128.mw - 1) = 0 := by decide

/-- The hypotheses shared by the statements about the encoder: a valid descriptor and bounds in the domain, at both ends
of the space and in between. -/
theorem witness_InDomain :
    validFmt State.reset.fmt = true ∧ InDomain State.reset.fmt 0x1001 0x3000 ∧
    InDomain State.reset.fmt 0 (2 ^ 64) ∧ InDomain State.reset.fmt 0xFFFFFFFFFFFFFFFF (2 ^ 64) ∧
    InDomain cc64 0x12345 0x23456 := by
  refine ⟨by decide, ?_, ?_, ?_, ?_⟩ <;> simp only [InDomain] <;> decide

theorem witness_RoundingIsOutward :
    validFmt State.reset.fmt = true ∧ InDomain State.reset.fmt 0x1001 0x3000 := ⟨witness_InDomain.1, witness_InDomain.2.1⟩

theorem witness_RepresentedBoundsAreGranuleMultiples :
    validFmt State.reset.fmt = true ∧ InDomain State.reset.fmt 0x1001 0x3000 := ⟨witness_InDomain.1, witness_InDomain.2.1⟩

theorem witness_GranuleExponent :
    validFmt State.reset.fmt = true ∧ InDomain State.reset.fmt 0x1001 0x3000 := ⟨witness_InDomain.1, witness_InDomain.2.1⟩

theorem witness_FormSelection :
    validFmt State.reset.fmt = true ∧ InDomain State.reset.fmt 0x1234 0x1FFF ∧ 0x1FFF - 0x1234 < 2 ^ (cc128.mw - 2) := by
  refine ⟨by decide, ?_, by decide⟩
  simp only [InDomain]
  decide

theorem witness_FormatIsAParameterOfTheStep :
    (∃ t, exec (.getPerms 0x5) ((⟨[], []⟩ : Interface).under cc64) = .next t) ∧
    (∃ t, step ((⟨[encode (.getPerms 0x5)], []⟩ : Interface).under cc64) = .next t) := ⟨⟨_, rfl⟩, _, rfl⟩

/-- Both forms; at the least length of the form `IE = 1`; without the increment (CC64) and with it; the whole space. -/
theorem witness_EncodedWordBitByBit :
    (validFmt cc128 = true ∧ validFmt cc64 = true) ∧
    (InDomain cc128 0xFFFFFFFFFFFFFFFF (2 ^ 64) ∧ 2 ^ 64 - 0xFFFFFFFFFFFFFFFF < 2 ^ (cc128.mw - 2)) ∧
    (InDomain cc64 1 0x41 ∧ 2 ^ (cc64.mw - 2) ≤ 0x41 - 1) ∧
    (InDomain cc64 0xB 0x7D ∧ getExponent cc64 (0x7D - 0xB) = 0 ∧ 2 ^ (cc64.mw - 2) ≤ 0x7D - 0xB ∧
      ¬ 0xB / 2 ^ 3 + 2 ^ (cc64.mw - cc64.el - 1) ≤ (0x7D + 2 ^ 3 - 1) / 2 ^ 3) ∧
    (InDomain cc128 0x1001 0x3000 ∧ getExponent cc128 (0x3000 - 0x1001) = 0 ∧ 2 ^ (cc128.mw - 2) ≤ 0x3000 - 0x1001 ∧
      0x1001 / 2 ^ 3 + 2 ^ (cc128.mw - cc128.el - 1) ≤ (0x3000 + 2 ^ 3 - 1) / 2 ^ 3) ∧
    (InDomain cc128 0 (2 ^ 64) ∧ 2 ^ (cc128.mw - 2) ≤ 2 ^ 64 - 0) ∧ 2 ^ 64 + 1 > 2 ^ cc128.aw := by
  simp only [InDomain]
  decide

theorem witness_EncoderIsTotalAndInRange :
    validFmt State.reset.fmt = true ∧ InDomain State.reset.fmt 1 (2 ^ 64) ∧
    (extractBoundsBits cc128 (ebtOf cc128 1 (2 ^ 64)).ebt).e = cc128.maxE := by
  refine ⟨by decide, ?_, by decide⟩
  simp only [InDomain]
  decide

theorem witness_ExactFlagMeaning :
    validFmt State.reset.fmt = true ∧ InDomain State.reset.fmt (boundsOnly 0x1000 0x1000 0x2000).base (boundsOnly 0x1000 0x1000 0x2000).top ∧
    (boundsOnly 0x1000 0x1000 0x2000).address = (boundsOnly 0x1000 0x1000 0x2000).base := by
  refine ⟨by decide, ?_, by decide⟩
  simp only [InDomain]
  decide

theorem witness_CompressRawPacksRecord :
    validFmt State.reset.fmt = true ∧ fullCap.fits State.reset.fmt = true ∧ InDomain State.reset.fmt fullCap.base fullCap.top ∧
    DecodedCap.fits State.reset.fmt { fullCap with base := 2, top := 1 } = true ∧ 2 > 1 := by
  refine ⟨by decide, by decide, ?_, by decide, by decide⟩
  simp only [InDomain]
  decide

theorem witness_CompressMemMasksRawWord :
    validFmt State.reset.fmt = true ∧ InDomain State.reset.fmt fullCap.base fullCap.top ∧
    ({ fullCap with top := 2 ^ 64 + 1 } : DecodedCap).top > 2 ^ State.reset.fmt.aw := by
  refine ⟨by decide, ?_, by decide⟩
  simp only [InDomain]
  decide

theorem witness_NullCapabilityIsTheMask :
    validFmt State.reset.fmt = true ∧ validFmt cc64 = true := by decide

theorem witness_NullMaskInvolution :
    InDomain State.reset.fmt fullCap.base fullCap.top := by
  simp only [InDomain]
  decide

theorem witness_ExtractBoundsBitsResult :
    validFmt State.reset.fmt = true := by decide

theorem witness_StoredExponentIsClampedOnDecode :
    cc128.maxE ≤ (⟨true, 63, 0, 0x1000⟩ : BoundsBits).e := by decide

theorem witness_RegionComparisonIsThreeWay :
    0 < 8 ∧ 7 < 8 := by decide

theorem witness_DecodeReconstructsBounds :
    ∃ (x : BoundsBits) (cursor e b3 t3 a3 r3 : Nat),
    validFmt cc128 = true ∧ x.fits cc128 = true ∧ cursor < 2 ^ cc128.aw ∧ e = min cc128.maxE x.e ∧
    b3 = x.b / 2 ^ (cc128.mw - 3) ∧ t3 = x.t / 2 ^ (cc128.mw - 3) ∧ a3 = cursor / 2 ^ (e + cc128.mw - 3) % 8 ∧ r3 = (b3 + 7) % 8 := ⟨⟨true, 0, 0x3000, 0⟩, 0x800, _, _, _, _, _, by decide, by decide, by decide, rfl, rfl, rfl, rfl, rfl⟩

theorem witness_DecodeDependsOnBoundsBitsAndCursor :
    validFmt State.reset.fmt = true ∧ 0x47FF < 2 ^ State.reset.fmt.aw ∧ 0x4800 < 2 ^ State.reset.fmt.aw ∧
    min cc128.maxE (extractBoundsBits cc128 0x4001000).e + cc128.mw ≤ cc128.aw := by decide

theorem witness_DecodingIsTotal :
    validFmt State.reset.fmt = true ∧ 0xFFFFFFFFFFFFFFFF < 2 ^ State.reset.fmt.aw := by decide

theorem witness_DecompressMemUnmasksWord :
    validFmt State.reset.fmt = true ∧ 0xFFFFFFFFFFFFFFFF < 2 ^ State.reset.fmt.aw := by decide

theorem witness_DecodeInvertsEncode :
    validFmt State.reset.fmt = true ∧ InDomain State.reset.fmt 0x1000 (0x1000 + 0x1000) ∧
    exec (.isRepresentableNewAddr false 0x1000 (0x2000 - 0x1000) 0x1000 0x47FF) State.reset
      = .next (State.reset.answered (.predicate true)) := by
  refine ⟨by decide, ?_, ?_⟩
  · simp only [InDomain]
    decide
  · rw [exec_eq_next_iff]
    rfl

theorem witness_RepresentableWindow :
    validFmt cc128 = true ∧ InDomain cc128 0x1000 0x2000 ∧ 0x4800 < 2 ^ cc128.aw ∧
    computeEbt cc128 0x1000 0x2000 = .ok ⟨0x4001000, true, 3⟩ ∧
    14 = (extractBoundsBits cc128 0x4001000).e + cc128.mw ∧
    1 = ((extractBoundsBits cc128 0x4001000).b / 2 ^ (cc128.mw - 3) + 7) % 8 ∧ 14 ≤ cc128.aw := by
  refine ⟨by decide, ?_, by decide, by rfl, by decide, by decide, by decide⟩
  simp only [InDomain]
  decide

theorem witness_RepresentableWindow_wholeSpace :
    InDomain cc128 0 (2 ^ 64) ∧ computeEbt cc128 0 (2 ^ 64) = .ok ⟨0x4018004, true, 55⟩ ∧
    66 = (extractBoundsBits cc128 0x4018004).e + cc128.mw ∧ cc128.aw < 66 := by
  refine ⟨?_, by rfl, by decide, by decide⟩
  simp only [InDomain]
  decide

theorem witness_ExactnessTest :
    InDomain State.reset.fmt (boundsOnly 0x5000 0x1000 0x2000).base (boundsOnly 0x5000 0x1000 0x2000).top ∧
    (boundsOnly 0x10 0x10 0x8).base > (boundsOnly 0x10 0x10 0x8).top := by
  refine ⟨?_, by decide⟩
  simp only [InDomain]
  decide

theorem witness_CursorChangeTest :
    validFmt State.reset.fmt = true ∧ 0x1000 < 2 ^ State.reset.fmt.aw ∧ 0x47FF < 2 ^ State.reset.fmt.aw ∧
    0x1000 + 0x1000 ≤ 2 ^ State.reset.fmt.aw ∧
    decodeBounds cc128 (ebtOf cc128 0x1000 0x2000).ebt 0x1000 = ⟨0x1000, 0x1000 + 0x1000⟩ ∧
    decodeBounds cc128 (ebtOf cc128 0x1000 0x2000).ebt 0 ≠ ⟨0x1000, 0x1000 + 0x1000⟩ ∧
    0xFFFFFFFFFFFFFFF0 < 2 ^ State.reset.fmt.aw ∧ 0xFFFFFFFFFFFFFFF0 + 0x20 > 2 ^ State.reset.fmt.aw ∧
    decodeBounds cc128 (ebtOf cc128 0 (2 ^ 64)).ebt 5 = ⟨0, 0 + 2 ^ 64⟩ := by decide

theorem witness_CursorChangeTestIsTheSlowPath :
    validFmt State.reset.fmt = true ∧ (boundsOnly 0 0x1000 0x2000).fits State.reset.fmt = true ∧
    InDomain State.reset.fmt 0x1000 0x2000 ∧
    exec (.isRepresentableNewAddr false 0x1000 (0x2000 - 0x1000) 0x1000 0x4800) State.reset
      = .next (State.reset.answered (.predicate false)) := by
  refine ⟨by decide, by decide, ?_, ?_⟩
  · simp only [InDomain]
    decide
  · rw [exec_eq_next_iff]
    rfl

theorem witness_RepresentableLengthIsSmallest :
    validFmt State.reset.fmt = true ∧ 0x1001 ≤ 2 ^ State.reset.fmt.aw ∧ 2 ^ 64 + 1 > 2 ^ State.reset.fmt.aw ∧
    2 ^ 64 ≤ 2 ^ State.reset.fmt.aw ∧ (ebtOf cc128 0 (0 + 2 ^ 64)).exact = true ∧
    0x1001 ≤ 0x1008 ∧ 8 < 2 ^ State.reset.fmt.aw ∧ (ebtOf cc128 8 (8 + 0x1008)).exact = true := by decide

theorem witness_AlignmentAndMask :
    validFmt State.reset.fmt = true ∧ 2 ^ 64 ≤ 2 ^ State.reset.fmt.aw ∧ 2 ^ 64 + 1 > 2 ^ State.reset.fmt.aw := by decide

theorem witness_LengthRoundingIsIdempotent :
    validFmt State.reset.fmt = true ∧ 0x1001 ≤ 2 ^ State.reset.fmt.aw := by decide

theorem witness_AlignmentIsSufficient :
    validFmt State.reset.fmt = true ∧ 0x12345 ≤ 2 ^ State.reset.fmt.aw ∧ 0x80 ∣ 0x100 ∧ 0x100 < 2 ^ State.reset.fmt.aw ∧
    0x100 + 0x12380 ≤ 2 ^ State.reset.fmt.aw := by decide

theorem witness_WideningNeverShrinks :
    validFmt State.reset.fmt = true ∧ InDomain State.reset.fmt 0x1001 0x3000 ∧ 0x1001 ≤ 0x2000 ∧ 0x2000 < 0x3000 := ⟨witness_InDomain.1, witness_InDomain.2.1, by decide, by decide⟩

theorem witness_ExactRecordsRoundTrip :
    validFmt State.reset.fmt = true ∧ (boundsOnly 0x47FF 0x1000 0x2000).fits State.reset.fmt = true ∧
    InDomain State.reset.fmt 0x1000 0x2000 ∧
    exec (.isRepresentableExact (boundsOnly 0x47FF 0x1000 0x2000)) State.reset
      = .next (State.reset.answered (.predicate true)) ∧ (ebtOf cc128 0x1000 0x2000).exact = true := by
  refine ⟨by decide, by decide, ?_, ?_, by decide⟩
  · simp only [InDomain]
    decide
  · rw [exec_eq_next_iff]
    rfl

theorem witness_WholeRecordRoundTrips :
    validFmt State.reset.fmt = true ∧ (boundsOnly 0x47FF 0x1000 0x2000).fits State.reset.fmt = true ∧
    InDomain State.reset.fmt 0x1000 0x2000 ∧
    exec (.isRepresentableExact (boundsOnly 0x47FF 0x1000 0x2000)) State.reset
      = .next (State.reset.answered (.predicate true)) := by
  refine ⟨by decide, by decide, ?_, ?_⟩
  · simp only [InDomain]
    decide
  · rw [exec_eq_next_iff]
    rfl

theorem witness_SetBoundsResult :
    validFmt State.reset.fmt = true ∧ InDomain State.reset.fmt 0x1001 0x3000 ∧ InDomain State.reset.fmt 0x1234 0x1234 ∧
    InDomain State.reset.fmt 0 (2 ^ 64) ∧ 0x3000 > 0x1001 := by
  refine ⟨by decide, ?_, ?_, ?_, by decide⟩ <;> simp only [InDomain] <;> decide

theorem witness_WidenedBoundsReencodeToTheSameWord :
    validFmt State.reset.fmt = true ∧ fullCap.fits State.reset.fmt = true ∧ InDomain State.reset.fmt 0x1001 0x3000 := ⟨by decide, by decide, witness_InDomain.2.1⟩

theorem witness_MaxPermsCapResult :
    validFmt State.reset.fmt = true ∧ InDomain State.reset.fmt 0 0x10000 ∧ (ebtOf cc128 0 0x10000).exact = true ∧
    InDomain State.reset.fmt 0x1001 0x3000 ∧ (ebtOf cc128 0x1001 0x3000).exact = false ∧ 0x3000 > 0x1001 := by
  refine ⟨by decide, ?_, by decide, witness_InDomain.2.1, by decide, by decide⟩
  simp only [InDomain]
  decide

end Sys2Proof.Tests
end

/-! ## The word's layout: every bit stands in exactly one field (00_scope.md R13 (7)) -/

namespace Sys2Proof

theorem Field.contains_eq_true_iff {f : Field} {k : Nat} : f.contains k = true ↔ f.lo ≤ k ∧ k < f.lo + f.width := by
  simp [Field.contains]

/-- A bit of a field is no bit of a field disjoint from it. -/
theorem Field.not_contains_of_disjoint {f g : Field} {k : Nat} (hd : f.disjoint g = true) (hf : f.contains k = true) :
    ¬ g.contains k = true := by
  simp only [Field.disjoint, Bool.or_eq_true, decide_eq_true_eq] at hd
  rw [Field.contains_eq_true_iff] at hf ⊢
  omega

/-- A bit stands in at most one of pairwise disjoint fields. The count is over positions of the list, so equal fields
without bits do no harm. -/
theorem Fmt.length_filter_contains_le_one {l : List Field} (h : Fmt.pairwiseDisjoint l = true) (k : Nat) :
    (l.filter fun f => f.contains k).length ≤ 1 := by
  induction l with
  | nil => exact Nat.zero_le 1
  | cons f fs ih =>
    simp only [Fmt.pairwiseDisjoint, Bool.and_eq_true, List.all_eq_true] at h
    obtain ⟨hdisj, hrest⟩ := h
    cases hf : f.contains k with
    | false => simpa [hf] using ih hrest
    | true =>
      have hnone : (fs.filter fun g => g.contains k) = [] :=
        List.filter_eq_nil_iff.mpr fun g hg => Field.not_contains_of_disjoint (hdisj g hg) hf
      simp [hf, hnone]

namespace Machine

theorem FmtFacts.fields_pairwiseDisjoint {F : Fmt} (h : FmtFacts F) : Fmt.pairwiseDisjoint F.fields = true := by
  have hl := h.layout
  simp only [Fmt.layoutOk, Bool.and_eq_true] at hl
  obtain ⟨⟨hdisjoint, -⟩, -⟩ := hl
  exact hdisjoint

/-- The fields of a valid word cover its bits and no others. -/
theorem FmtFacts.exists_field_contains_iff {F : Fmt} (h : FmtFacts F) (k : Nat) :
    (∃ f ∈ F.fields, f.contains k = true) ↔ k < F.aw := by
  constructor
  · rintro ⟨f, hf, hk⟩
    exact (Field.contains_eq_true_iff.mp hk).2.trans_le (h.field_in_word hf)
  · intro hk
    have hl := h.layout
    simp only [Fmt.layoutOk, Bool.and_eq_true, List.all_eq_true, List.any_eq_true] at hl
    obtain ⟨-, hcover⟩ := hl
    exact hcover k (List.mem_range.mpr hk)

/-- Every bit of a valid word stands in exactly one field, and no field has a bit outside the word. -/
theorem FmtFacts.length_filter_contains {F : Fmt} (h : FmtFacts F) (k : Nat) :
    (F.fields.filter fun f => f.contains k).length = if k < F.aw then 1 else 0 := by
  have hone := Fmt.length_filter_contains_le_one h.fields_pairwiseDisjoint k
  have hpos : 0 < (F.fields.filter fun f => f.contains k).length ↔ k < F.aw := by
    rw [List.length_filter_pos_iff, h.exists_field_contains_iff]
  split <;> omega

/-! ## Which descriptors have a block (70_reset_and_hazards.md R291) -/

theorem instantiate_eq_some_iff {F : Fmt} {s : State} :
    instantiate F = some s ↔ validFmt F = true ∧ State.fresh F = s := by
  simp [instantiate]

theorem instantiate_eq_none_iff {F : Fmt} : instantiate F = none ↔ validFmt F = false := by
  simp [instantiate]

/-- A state without a valid descriptor has no step. -/
theorem step_invalid {s : State} (hv : validFmt s.fmt = false) : step s = .refused .invalidDescriptor := by
  rw [step, stepUnder_invalid hv, withFmt_refused]

/-- Settles O15: an instantiated descriptor is a valid one, whose constraints `FmtFacts` names; the layout constraint is
counted bit by bit. -/
theorem blockExistsOnlyForValidDescriptor : Obligations.BlockExistsOnlyForValidDescriptor := by
  refine ⟨fun F s h => ?_, ⟨instantiate_eq_some_iff.mpr ⟨validFmt_cc128, rfl⟩,
    instantiate_eq_some_iff.mpr ⟨validFmt_cc64, rfl⟩⟩, fun s h => step_invalid (instantiate_eq_none_iff.mp h)⟩
  obtain ⟨hv, rfl⟩ := instantiate_eq_some_iff.mp h
  have hF := fmtFacts hv
  have hel : F.el < F.mw - 2 := Nat.lt_sub_of_add_lt hF.el_lt
  have heh : F.eh < F.mw - 2 := Nat.lt_sub_of_add_lt hF.eh_lt
  exact ⟨State.fresh_fmt F, hF.mw_le_aw, ⟨hF.el_eq_eh, hF.el_add_eh⟩, ⟨hel, heh⟩, hF.maxE_eq, hF.maxE_le, hF.widths,
    hF.length_filter_contains, hF.nullMask⟩

end Machine

end Sys2Proof

/-! ## The outcome of an instruction and the descriptor; the state at reset (10_state.md R30, R31, R49) -/

namespace Sys2Proof.Machine

/-- The state after an instruction is the one before it with the pure result as one response more. -/
theorem exec_next {i : Instr} {s t : State} (h : exec i s = .next t) :
    ∃ r, resultOf s.fmt i = .ok r ∧ t = s.answered r := by
  rw [exec_eq_answer] at h
  exact answer_next h

/-- An instruction faults exactly when its pure result is a cause, and names its own operation. -/
theorem exec_eq_fault_iff {i : Instr} {s : State} {f : Fault} :
    exec i s = .fault f ↔ ∃ c, resultOf s.fmt i = .error c ∧ f = .preconditionViolated i.op c := by
  rw [exec_eq_answer]
  constructor
  · exact answer_fault
  · rintro ⟨c, hc, rfl⟩
    rw [hc, answer_error]

/-- Settles O7: results and faults are the pure result's, which is taken at the descriptor alone. -/
theorem outcomeDependsOnRequestAndFormatOnly : Obligations.OutcomeDependsOnRequestAndFormatOnly := by
  intro i s t hfmt
  constructor
  · intro r h
    rw [exec_eq_next_iff] at h ⊢
    rwa [← hfmt]
  · intro f h
    rw [exec_eq_fault_iff] at h ⊢
    rwa [← hfmt]

/-- A block of a valid descriptor is sound before its first request: no response is there that could be too wide. -/
theorem State.fresh_sound {F : Fmt} (hv : validFmt F = true) : (State.fresh F).Sound := by
  refine ⟨hv, fun r hr => ?_⟩
  rw [State.fresh_responses] at hr
  exact absurd hr List.not_mem_nil

/-- Settles O13: reset is the fresh block of CC128, a valid descriptor. -/
theorem soundAtReset : Obligations.SoundAtReset :=
  ⟨State.fresh_sound validFmt_cc128, State.fresh_responses cc128, State.fresh_pending cc128, State.fresh_fmt cc128⟩

/-- No instruction writes the descriptor. -/
theorem exec_keeps_fmt {i : Instr} {s t : State} (h : exec i s = .next t) : t.fmt = s.fmt := by
  obtain ⟨r, -, rfl⟩ := exec_next h
  exact State.answered_fmt s r

/-- A next state that got its descriptor from `withFmt` carries that one. -/
theorem fmt_of_withFmt_next {F : Fmt} {o : Host.Outcome Interface Fault Refusal} {t : State}
    (h : withFmt F o = .next t) : t.fmt = F := by
  cases o with
  | next x =>
    obtain rfl : x.under F = t := by simpa using h
    exact Interface.under_fmt x F
  | fault f => simp at h
  | refused r => simp at h

/-- An outcome that kept the descriptor is not changed by taking the descriptor away and giving it back. -/
theorem withFmt_dropFmt {F : Fmt} {o : Host.Outcome State Fault Refusal} (h : ∀ t, o = .next t → t.fmt = F) :
    withFmt F (dropFmt o) = o := by
  cases o with
  | next t =>
    obtain rfl : t.fmt = F := h t rfl
    rw [dropFmt_next, withFmt_next, State.toInterface_under]
  | fault f => rfl
  | refused r => rfl

/-- No step writes the descriptor. -/
theorem step_keeps_fmt {s t : State} (h : step s = .next t) : t.fmt = s.fmt :=
  fmt_of_withFmt_next h

/-- Settles O16: `step` is `stepUnder` by its definition; for `exec` the idea is that the descriptor `execUnder` drops is
the one that was given. -/
theorem formatIsAParameterOfTheStep : Obligations.FormatIsAParameterOfTheStep := by
  intro F x
  have hexec : ∀ (i : Instr) (t : State), exec i (x.under F) = .next t → t.fmt = F := fun _ _ h => exec_keeps_fmt h
  exact ⟨fun i => (withFmt_dropFmt (hexec i)).symm, rfl, hexec, fun _ h => step_keeps_fmt h⟩

end Sys2Proof.Machine

/-! ## The response to a request and the order of requests (20_memory.md R67) -/

namespace Sys2Proof.Machine

/-- What a requester receives for a request it can present (R260, R266): no earlier request has a part in it. -/
def responseTo (F : Fmt) (r : Request) : Response :=
  match decode r with
  | .error (.unassignedOp op) => .refused op
  | .ok i =>
    match resultOf F i with
    | .ok x => .ok x
    | .error c => .fault i.op c

theorem responseTo_of_result {F : Fmt} {r : Request} {i : Instr} {x : Results} (hd : decode r = .ok i)
    (hx : resultOf F i = .ok x) : responseTo F r = .ok x := by
  simp [responseTo, hd, hx]

theorem responseTo_of_cause {F : Fmt} {r : Request} {i : Instr} {c : Cause} (hd : decode r = .ok i)
    (hc : resultOf F i = .error c) : responseTo F r = .fault i.op c := by
  simp [responseTo, hd, hc]

theorem responseTo_of_unassigned {F : Fmt} {r : Request} (h : opOfCode r.op = none) :
    responseTo F r = .refused r.op := by
  simp [responseTo, decode, h]

/-- Evaluating a request that can be presented delivers its response and does nothing else to the interface. -/
theorem deliver_evaluate {F : Fmt} {r : Request} (hp : r.presentable F) (x : Interface) :
    deliver x (evaluate F r x) = .next (x.respond (responseTo F r)) := by
  rcases evaluate_cases F r x with ⟨i, hd, -, he⟩ | ⟨i, hd, hw, -⟩ | ⟨ho, he⟩
  · rcases execUnder_cases F i x with ⟨y, hy, hx⟩ | ⟨c, hc, hx⟩
    · rw [he, hx, responseTo_of_result hd hy]
      rfl
    · rw [he, hx, responseTo_of_cause hd hc]
      rfl
  · exact absurd (hp i hd) (by simp [hw])
  · rw [he, responseTo_of_unassigned ho]
    rfl

/-- A step takes the oldest request, if it can be presented, and answers it with its response. -/
theorem step_presentable {s : State} {r : Request} {rest : List Request} (hv : validFmt s.fmt = true)
    (h : s.pending = r :: rest) (hp : r.presentable s.fmt) :
    step s = .next { s with pending := rest, responses := s.responses ++ [responseTo s.fmt r] } := by
  rw [step_pending hv h, deliver_evaluate hp]
  rfl

theorem core_run_two_of_steps {s t u : State} (hst : step s = .next t) (htu : step t = .next u) :
    core.run 2 s = .next u := by
  have hst' : core.step s = .next t := hst
  have htu' : core.step t = .next u := htu
  simp only [Host.Core.run, hst', htu']

/-- Two steps answer the two oldest requests in their order, each with its own response. -/
theorem core_run_two {s : State} {r₁ r₂ : Request} {rest : List Request} (hv : validFmt s.fmt = true)
    (h₁ : r₁.presentable s.fmt) (h₂ : r₂.presentable s.fmt) :
    core.run 2 { s with pending := r₁ :: r₂ :: rest } = .next { s with
      pending := rest
      responses := s.responses ++ [responseTo s.fmt r₁, responseTo s.fmt r₂] } := by
  refine core_run_two_of_steps (step_presentable hv rfl h₁) ?_
  refine Eq.trans (step_presentable hv rfl h₂) ?_
  rw [List.append_assoc, List.singleton_append]

/-- Settles O8: the response to a request is a function of the request and the descriptor, so the two orders give the
same two responses. -/
theorem requestOrderIsNotObservable : Obligations.RequestOrderIsNotObservable :=
  fun s r₁ r₂ _ hv h₁ h₂ =>
    ⟨responseTo s.fmt r₁, responseTo s.fmt r₂, core_run_two hv h₁ h₂, core_run_two hv h₂ h₁⟩

end Sys2Proof.Machine

/-! ## Widths: every result fits its port (30_encoding.md R101, 10_state.md R39, R43, R44) -/

namespace Sys2Proof.Machine

/-! ### The shared operations -/

@[simp] theorem fitsIn_eq_true_iff {n v : Nat} : fitsIn n v = true ↔ v < 2 ^ n := by
  simp [fitsIn]

theorem cat_lt {hi w lo n : Nat} (hhi : hi < 2 ^ n) (hlo : lo < 2 ^ w) : cat hi w lo < 2 ^ (n + w) :=
  Nat.or_lt_two_pow (Nat.shiftLeft_lt hhi) (hlo.trans_le (Nat.pow_le_pow_right Nat.two_pos (Nat.le_add_left w n)))

theorem slice_lt (hi lo v : Nat) : slice hi lo v < 2 ^ (hi + 1 - lo) :=
  Nat.mod_lt _ (Nat.two_pow_pos _)

/-- Inserting into a field that lies inside an `n`-bit word gives an `n`-bit word. -/
theorem setf_lt {n w v : Nat} {f : Field} (hf : f.lo + f.width ≤ n) (hw : w < 2 ^ n) (hv : v < 2 ^ f.width) :
    setf w f v < 2 ^ n := by
  have hmask : w &&& ones f.width <<< f.lo < 2 ^ n := Nat.and_le_left.trans_lt hw
  have hins : v <<< f.lo < 2 ^ n :=
    (Nat.shiftLeft_lt hv).trans_le (Nat.pow_le_pow_right Nat.two_pos (by omega))
  exact Nat.or_lt_two_pow (Nat.xor_lt_two_pow hw hmask) hins

theorem FmtFacts.setf_lt {F : Fmt} (hF : FmtFacts F) {f : Field} (hf : f ∈ F.fields) {w v : Nat} (hw : w < 2 ^ F.aw)
    (hv : v < 2 ^ f.width) : setf w f v < 2 ^ F.aw :=
  Machine.setf_lt (hF.field_in_word hf) hw hv

/-- Rounding up to a multiple of `2^g` does not pass a larger power of two. -/
theorem roundUp_le_two_pow {g n x : Nat} (hg : g ≤ n) (hx : x ≤ 2 ^ n) : roundUp g x ≤ 2 ^ n := by
  have hsplit : 2 ^ (n - g) * 2 ^ g = 2 ^ n := by rw [← Nat.pow_add, Nat.sub_add_cancel hg]
  have hpos := Nat.two_pow_pos g
  have hlt : (x + 2 ^ g - 1) / 2 ^ g < 2 ^ (n - g) + 1 := by
    rw [Nat.div_lt_iff_lt_mul hpos, Nat.add_mul, hsplit]
    omega
  calc roundUp g x = (x + 2 ^ g - 1) / 2 ^ g * 2 ^ g := roundUp_eq g x
    _ ≤ 2 ^ (n - g) * 2 ^ g := Nat.mul_le_mul_right _ (Nat.le_of_lt_succ hlt)
    _ = 2 ^ n := hsplit

theorem except_map_eq_ok {α β : Type} {x : Except Cause α} {f : α → β} {b : β} (h : x.map f = .ok b) :
    ∃ a, x = .ok a ∧ f a = b := by
  cases x with
  | ok a => exact ⟨a, rfl, Except.ok.inj h⟩
  | error c => cases h

theorem computeEbt_eq_ok {F : Fmt} {base top : Nat} {r : EbtResult} (h : computeEbt F base top = .ok r) :
    base ≤ top ∧ top ≤ 2 ^ F.aw ∧ r = ebtOf F base top := by
  rcases computeEbt_cases F base top with ⟨hle, htop, he⟩ | ⟨-, he⟩
  · exact ⟨hle, htop, Except.ok.inj (h.symm.trans he)⟩
  · exact absurd (h.symm.trans he) nofun

theorem granuleOf_eq_ok {F : Fmt} {length g : Nat} (h : granuleOf F length = .ok g) :
    length ≤ 2 ^ F.aw ∧ g = (ebtOf F 0 length).g := by
  rcases granuleOf_cases F length with ⟨hle, he⟩ | ⟨-, he⟩
  · exact ⟨hle, Except.ok.inj (h.symm.trans he)⟩
  · exact absurd (h.symm.trans he) nofun

/-! ### The encoder -/

theorem FmtFacts.ebtW_le_aw {F : Fmt} (hF : FmtFacts F) : F.ebtW ≤ F.aw := by
  have := hF.widths
  omega

/-- The bounds subfield of the two fields and `IE` lies inside the word. -/
theorem place_lt {F : Fmt} (hF : FmtFacts F) (ie : Bool) {tf bf : Nat} (ht : tf < 2 ^ (F.mw - 2)) (hb : bf < 2 ^ F.mw) :
    place F ie tf bf < 2 ^ F.aw := by
  have hmw := hF.el_lt
  have hebtW : F.ebtW = 1 + (F.mw - 2) + F.mw := rfl
  have hle := hF.ebtW_le_aw
  have hie : ie.toNat <<< (2 * F.mw - 2) < 2 ^ F.aw :=
    (Nat.shiftLeft_lt (n := 1) ie.toNat_lt).trans_le (Nat.pow_le_pow_right Nat.two_pos (by omega))
  have htf : tf <<< F.mw < 2 ^ F.aw :=
    (Nat.shiftLeft_lt ht).trans_le (Nat.pow_le_pow_right Nat.two_pos (by omega))
  have hbf : bf < 2 ^ F.aw := hb.trans_le (Nat.pow_le_pow_right Nat.two_pos hF.mw_le_aw)
  exact Nat.or_lt_two_pow (Nat.or_lt_two_pow hie htf) hbf

theorem InternalSpec.ebt_lt {F : Fmt} (hF : FmtFacts F) {base top e : Nat} {r : EbtResult}
    (h : InternalSpec F base top r e) : r.ebt < 2 ^ F.aw := by
  have hel := hF.el_lt
  have heh := hF.eh_lt
  have heq := hF.el_eq_eh
  have hpos := hF.el_pos
  have hexpW := hF.el_add_eh
  have hbfW : F.bIeW + F.el = F.mw := by
    unfold Fmt.bIeW
    omega
  have htfW : F.mw - 2 - F.el + F.eh = F.mw - 2 := by omega
  rw [h.ebt_eq]
  refine place_lt hF true ?_ ?_
  · have hexp : slice (F.expW - 1) F.el e < 2 ^ F.eh :=
      (slice_lt _ _ _).trans_le (Nat.pow_le_pow_right Nat.two_pos (by omega))
    have htf := cat_lt (trunc_lt (F.mw - 2 - F.el) ((top + 2 ^ r.g - 1) / 2 ^ r.g % 2 ^ F.bIeW)) hexp
    rwa [htfW] at htf
  · have hbf := cat_lt (Nat.mod_lt (base / 2 ^ r.g) (Nat.two_pow_pos F.bIeW)) (trunc_lt F.el e)
    rwa [hbfW] at hbf

/-- The granule of the internal-exponent form is smaller than the address space: `MW` exceeds `EL + 2`. -/
theorem InternalSpec.g_lt {F : Fmt} (hF : FmtFacts F) {base top e : Nat} {r : EbtResult}
    (h : InternalSpec F base top r e) : r.g < F.aw := by
  have := h.e_le
  have := h.g_eq
  have := hF.maxE_eq
  have := hF.el_lt
  have := hF.mw_le_aw
  omega

/-- What the encoder answers on its domain is one of R152's two forms. -/
theorem ebtOf_cases {F : Fmt} (hF : FmtFacts F) {base top : Nat} (hle : base ≤ top) (htop : top ≤ 2 ^ F.aw) :
    (∃ e, InternalSpec F base top (ebtOf F base top) e) ∨ ebtOf F base top = ebtExponentZero F base top := by
  cases hie : usesInternalExponent F (top - base) with
  | true =>
    have he : ebtOf F base top = ebtInternal F base top (getExponent F (top - base)) := by simp [ebtOf, hie]
    exact .inl ⟨_, he ▸ ebtInternal_spec hF hle htop hie⟩
  | false => exact .inr (by simp [ebtOf, hie])

theorem ebtOf_ebt_lt {F : Fmt} (hF : FmtFacts F) {base top : Nat} (hle : base ≤ top) (htop : top ≤ 2 ^ F.aw) :
    (ebtOf F base top).ebt < 2 ^ F.aw := by
  rcases ebtOf_cases hF hle htop with ⟨e, hspec⟩ | hzero
  · exact hspec.ebt_lt hF
  · rw [hzero]
    exact place_lt hF false (trunc_lt _ _) (trunc_lt _ _)

theorem ebtOf_g_lt {F : Fmt} (hF : FmtFacts F) {base top : Nat} (hle : base ≤ top) (htop : top ≤ 2 ^ F.aw) :
    (ebtOf F base top).g < F.aw := by
  rcases ebtOf_cases hF hle htop with ⟨e, hspec⟩ | hzero
  · exact hspec.g_lt hF
  · have := hF.el_lt
    have := hF.mw_le_aw
    have hg : (ebtOf F base top).g = 0 := by rw [hzero]; rfl
    omega

theorem computeEbt_fits {F : Fmt} (hF : FmtFacts F) {base top : Nat} {r : EbtResult}
    (h : computeEbt F base top = .ok r) : r.fits F = true := by
  obtain ⟨hle, htop, rfl⟩ := computeEbt_eq_ok h
  simp [EbtResult.fits, ebtOf_ebt_lt hF hle htop, (ebtOf_g_lt hF hle htop).le]

theorem granuleOf_lt {F : Fmt} (hF : FmtFacts F) {length g : Nat} (h : granuleOf F length = .ok g) : g < F.aw := by
  obtain ⟨hle, rfl⟩ := granuleOf_eq_ok h
  exact ebtOf_g_lt hF (Nat.zero_le _) hle

/-! ### The decoder -/

theorem extractBoundsBits_fits {F : Fmt} (hF : FmtFacts F) (word : Nat) : (extractBoundsBits F word).fits F = true := by
  have hmw := hF.el_lt
  have hbf : getf word F.b < 2 ^ F.mw := by simpa [hF.b_eq] using getf_lt word F.b
  have htf : getf word F.t < 2 ^ (F.mw - 2) := by simpa [hF.t_eq] using getf_lt word F.t
  have hlow (k v : Nat) : v >>> k <<< k ≤ v := by
    rw [Nat.shiftRight_eq_div_pow, Nat.shiftLeft_eq]
    exact Nat.div_mul_le_self v _
  have he : (extractBoundsBits F word).e < 2 ^ F.expW := by
    simp only [extractBoundsBits]
    split
    · rw [← hF.el_add_eh, Nat.add_comm]
      exact cat_lt (trunc_lt _ _) (trunc_lt _ _)
    · exact Nat.two_pow_pos _
  have hb : (extractBoundsBits F word).b < 2 ^ F.mw := by
    simp only [extractBoundsBits]
    split
    · exact (hlow _ _).trans_lt hbf
    · exact hbf
  have ht : (extractBoundsBits F word).t < 2 ^ F.mw := by
    have hcat (top2 : Nat) {low : Nat} (hl : low < 2 ^ (F.mw - 2)) : cat (trunc 2 top2) (F.mw - 2) low < 2 ^ F.mw := by
      have := cat_lt (trunc_lt 2 top2) hl
      rwa [Nat.add_sub_cancel' (by omega)] at this
    refine hcat _ ?_
    split
    · exact (hlow _ _).trans_lt htf
    · exact htf
  simp [BoundsBits.fits, he, hb, ht]

theorem FmtFacts.two_pow_aw_lt {F : Fmt} (hF : FmtFacts F) : 2 ^ F.aw < 2 ^ F.lw := by
  rw [hF.lw_eq]
  exact Nat.pow_lt_pow_right Nat.one_lt_two (Nat.lt_succ_self _)

theorem correctTop_lt {F : Fmt} (hF : FmtFacts F) (e base : Nat) {top : Nat} (h : top < 2 ^ F.lw) :
    correctTop F e base top < 2 ^ F.lw := by
  have hbit : 1 <<< F.aw < 2 ^ F.lw := by
    rw [Nat.one_shiftLeft]
    exact hF.two_pow_aw_lt
  simp only [correctTop]
  split
  · exact Nat.xor_lt_two_pow h hbit
  · exact h

theorem decodeBounds_fits {F : Fmt} (hF : FmtFacts F) (word cursor : Nat) : (decodeBounds F word cursor).fits F = true := by
  have hbase : (decodeBounds F word cursor).base < 2 ^ F.aw := trunc_lt _ _
  have htop : (decodeBounds F word cursor).top < 2 ^ F.lw := correctTop_lt hF _ _ (trunc_lt _ _)
  simp [Bounds.fits, hbase, htop]

/-! ### Records and words -/

theorem DecodedCap.fits_iff {F : Fmt} {c : DecodedCap} :
    c.fits F = true ↔ c.address < 2 ^ F.aw ∧ c.base < 2 ^ F.aw ∧ c.top < 2 ^ F.lw ∧ c.perms < 2 ^ F.hwperms.width ∧
      c.uperms < 2 ^ F.uperms.width ∧ c.otype < 2 ^ F.otype.width ∧ c.flags < 2 ^ F.flags.width ∧
      c.reserved < 2 ^ F.reserved.width := by
  simp [DecodedCap.fits, and_assoc]

/-- A record keeps its widths under new bounds of the right widths. -/
theorem DecodedCap.fits_withBounds {F : Fmt} {c : DecodedCap} {b : Bounds} (hc : c.fits F = true) (hb : b.fits F = true) :
    DecodedCap.fits F { c with base := b.base, top := b.top } = true := by
  simp only [Bounds.fits, Bool.and_eq_true, fitsIn_eq_true_iff] at hb
  obtain ⟨hbase, htop⟩ := hb
  rw [DecodedCap.fits_iff] at hc ⊢
  obtain ⟨haddr, -, -, hfields⟩ := hc
  exact ⟨haddr, hbase, htop, hfields⟩

theorem decompressRaw_fits {F : Fmt} (hF : FmtFacts F) (word : Nat) {cursor : Nat} (tag : Bool) (hc : cursor < 2 ^ F.aw) :
    (decompressRaw F word cursor tag).fits F = true := by
  have hb := decodeBounds_fits hF word cursor
  simp only [Bounds.fits, Bool.and_eq_true, fitsIn_eq_true_iff] at hb
  obtain ⟨hbase, htop⟩ := hb
  rw [DecodedCap.fits_iff]
  exact ⟨hc, hbase, htop, getf_lt _ _, getf_lt _ _, getf_lt _ _, getf_lt _ _, getf_lt _ _⟩

theorem packFields_lt {F : Fmt} (hF : FmtFacts F) {c : DecodedCap} (hc : c.fits F = true) : packFields F c < 2 ^ F.aw := by
  obtain ⟨-, -, -, hperms, huperms, hotype, hflags, hreserved⟩ := DecodedCap.fits_iff.mp hc
  have h₁ := hF.setf_lt (f := F.uperms) (by simp [Fmt.fields]) (Nat.two_pow_pos F.aw) huperms
  have h₂ := hF.setf_lt (f := F.hwperms) (by simp [Fmt.fields]) h₁ hperms
  have h₃ := hF.setf_lt (f := F.reserved) (by simp [Fmt.fields]) h₂ hreserved
  have h₄ := hF.setf_lt (f := F.flags) (by simp [Fmt.fields]) h₃ hflags
  exact hF.setf_lt (f := F.otype) (by simp [Fmt.fields]) h₄ hotype

theorem compressRaw_lt {F : Fmt} (hF : FmtFacts F) {c : DecodedCap} {w : Nat} (hc : c.fits F = true)
    (h : compressRaw F c = .ok w) : w < 2 ^ F.aw := by
  rw [compressRaw, except_bind_pure] at h
  obtain ⟨r, hr, rfl⟩ := except_map_eq_ok h
  obtain ⟨hle, htop, rfl⟩ := computeEbt_eq_ok hr
  exact Nat.or_lt_two_pow (packFields_lt hF hc) (ebtOf_ebt_lt hF hle htop)

theorem ones_lt (n : Nat) : ones n < 2 ^ n := Nat.sub_lt (Nat.two_pow_pos n) Nat.one_pos

theorem nullCap_fits {F : Fmt} (hF : FmtFacts F) : (nullCap F).fits F = true :=
  DecodedCap.fits_iff.mpr ⟨Nat.two_pow_pos _, Nat.two_pow_pos _, hF.two_pow_aw_lt, Nat.two_pow_pos _, Nat.two_pow_pos _,
    ones_lt _, Nat.two_pow_pos _, Nat.two_pow_pos _⟩

theorem maxPermsSeed_fits {F : Fmt} (hF : FmtFacts F) {cursor : Nat} (hc : cursor < 2 ^ F.aw) :
    (maxPermsSeed F cursor).fits F = true :=
  DecodedCap.fits_iff.mpr ⟨hc, Nat.two_pow_pos _, hF.two_pow_aw_lt, ones_lt _, ones_lt _, ones_lt _, Nat.two_pow_pos _,
    Nat.two_pow_pos _⟩

/-- The null mask is a word, being the compression of the null capability (R13 (8)). -/
theorem FmtFacts.nullXorMask_lt {F : Fmt} (hF : FmtFacts F) : F.nullXorMask < 2 ^ F.aw :=
  compressRaw_lt hF (nullCap_fits hF) hF.nullMask

theorem compressMem_lt {F : Fmt} (hF : FmtFacts F) {c : DecodedCap} {w : Nat} (hc : c.fits F = true)
    (h : compressMem F c = .ok w) : w < 2 ^ F.aw := by
  rw [compressMem, except_bind_pure] at h
  obtain ⟨raw, hraw, rfl⟩ := except_map_eq_ok h
  exact Nat.xor_lt_two_pow (compressRaw_lt hF hc hraw) hF.nullXorMask_lt

theorem setBounds_eq_map (F : Fmt) (c : DecodedCap) (reqBase reqTop : Nat) :
    setBounds F c reqBase reqTop = (computeEbt F reqBase reqTop).map fun r =>
      ({ c with base := (decodeBounds F r.ebt reqBase).base, top := (decodeBounds F r.ebt reqBase).top }, r.exact) := by
  rw [← except_bind_pure]
  rfl

theorem setBounds_fits {F : Fmt} (hF : FmtFacts F) {c : DecodedCap} {reqBase reqTop : Nat} {x : DecodedCap × Bool}
    (hc : c.fits F = true) (h : setBounds F c reqBase reqTop = .ok x) : x.1.fits F = true := by
  rw [setBounds_eq_map] at h
  obtain ⟨r, -, rfl⟩ := except_map_eq_ok h
  exact DecodedCap.fits_withBounds hc (decodeBounds_fits hF r.ebt reqBase)

/-- A maximal capability is its seed with exact bounds set. -/
theorem maxPermsCap_eq_ok {F : Fmt} {base cursor top : Nat} {c : DecodedCap} (h : maxPermsCap F base cursor top = .ok c) :
    setBounds F (maxPermsSeed F cursor) base top = .ok (c, true) := by
  rw [maxPermsCap] at h
  rcases hs : setBounds F (maxPermsSeed F cursor) base top with cause | ⟨d, _ | _⟩ <;> rw [hs] at h
  · cases h
  · cases h
  · cases h
    rfl

theorem maxPermsCap_fits {F : Fmt} (hF : FmtFacts F) {base cursor top : Nat} {c : DecodedCap} (hc : cursor < 2 ^ F.aw)
    (h : maxPermsCap F base cursor top = .ok c) : c.fits F = true :=
  setBounds_fits hF (maxPermsSeed_fits hF hc) (maxPermsCap_eq_ok h)

/-! ### Every instruction, every response, every step -/

/-- Operands of the widths of their ports give results of the widths of theirs. -/
theorem resultOf_fits {F : Fmt} (hF : FmtFacts F) {i : Instr} {r : Results} (hi : i.wf F = true)
    (h : resultOf F i = .ok r) : r.fits F = true := by
  cases i with
  | compressRaw cap =>
    obtain ⟨w, hw, rfl⟩ := except_map_eq_ok h
    exact fitsIn_eq_true_iff.mpr (compressRaw_lt hF hi hw)
  | compressMem cap =>
    obtain ⟨w, hw, rfl⟩ := except_map_eq_ok h
    exact fitsIn_eq_true_iff.mpr (compressMem_lt hF hi hw)
  | decompressRaw word cursor tag =>
    obtain ⟨-, hc⟩ : word < 2 ^ F.aw ∧ cursor < 2 ^ F.aw := by simpa [Instr.wf] using hi
    cases h
    exact decompressRaw_fits hF word tag hc
  | decompressMem word cursor tag =>
    obtain ⟨-, hc⟩ : word < 2 ^ F.aw ∧ cursor < 2 ^ F.aw := by simpa [Instr.wf] using hi
    cases h
    exact decompressRaw_fits hF (maskWord F word) tag hc
  | encodeBounds base top =>
    obtain ⟨e, he, rfl⟩ := except_map_eq_ok h
    exact computeEbt_fits hF he
  | decodeBounds word cursor =>
    cases h
    exact decodeBounds_fits hF word cursor
  | extractBoundsBits word =>
    cases h
    exact extractBoundsBits_fits hF word
  | getPerms word | getUperms word | getOtype word | getFlags word | getReserved word =>
    cases h
    exact fitsIn_eq_true_iff.mpr (getf_lt word _)
  | setPerms word v | setUperms word v | setOtype word v | setFlags word v | setReserved word v =>
    simp only [Instr.wf, Bool.and_eq_true, fitsIn_eq_true_iff] at hi
    obtain ⟨hw, hv⟩ := hi
    cases h
    exact fitsIn_eq_true_iff.mpr (hF.setf_lt (by simp [Fmt.fields]) hw hv)
  | isRepresentableExact cap =>
    obtain ⟨b, -, rfl⟩ := except_map_eq_ok h
    rfl
  | isRepresentableNewAddr isSealed base length cursor newCursor =>
    obtain ⟨b, -, rfl⟩ := except_map_eq_ok h
    rfl
  | getRepresentableLength length =>
    obtain ⟨g, hg, rfl⟩ := except_map_eq_ok h
    obtain ⟨hle, -⟩ := granuleOf_eq_ok hg
    exact fitsIn_eq_true_iff.mpr ((roundUp_le_two_pow (granuleOf_lt hF hg).le hle).trans_lt hF.two_pow_aw_lt)
  | getRequiredAlignment length =>
    obtain ⟨g, hg, rfl⟩ := except_map_eq_ok h
    exact fitsIn_eq_true_iff.mpr (Nat.pow_lt_pow_right Nat.one_lt_two (granuleOf_lt hF hg))
  | getAlignmentMask length =>
    obtain ⟨g, hg, rfl⟩ := except_map_eq_ok h
    exact fitsIn_eq_true_iff.mpr
      ((ones_lt g).trans (Nat.pow_lt_pow_right Nat.one_lt_two (granuleOf_lt hF hg)))
  | setBounds cap reqBase reqTop =>
    obtain ⟨x, hx, rfl⟩ := except_map_eq_ok h
    simp only [Instr.wf, Bool.and_eq_true] at hi
    obtain ⟨⟨hc, -⟩, -⟩ := hi
    exact setBounds_fits hF hc hx
  | makeMaxPermsCap base cursor top =>
    obtain ⟨c, hc, rfl⟩ := except_map_eq_ok h
    simp only [Instr.wf, Bool.and_eq_true, fitsIn_eq_true_iff] at hi
    obtain ⟨⟨-, hcursor⟩, -⟩ := hi
    exact maxPermsCap_fits hF hcursor hc

theorem responseTo_fits {F : Fmt} (hF : FmtFacts F) {r : Request} (hp : r.presentable F) :
    (responseTo F r).fits F = true := by
  cases hd : decode r with
  | error e =>
    simp only [responseTo, hd]
    rfl
  | ok i =>
    cases hx : resultOf F i with
    | ok x =>
      rw [responseTo_of_result hd hx]
      exact resultOf_fits hF (hp i hd) hx
    | error c =>
      rw [responseTo_of_cause hd hx]
      rfl

/-- A request with an operand wider than its port stops the model. -/
theorem step_wide {s : State} {r : Request} {rest : List Request} {i : Instr} (hv : validFmt s.fmt = true)
    (h : s.pending = r :: rest) (hd : decode r = .ok i) (hw : i.wf s.fmt = false) :
    step s = .refused (.operandTooWide i.op) := by
  simp [step_pending hv h, evaluate, acceptRequest, hd, hw, deliver]

/-- A next state is the state itself when nothing is pending, and otherwise the one in which the oldest request, which could
be presented, has had its response. -/
theorem step_next_cases {s t : State} (h : step s = .next t) :
    s.pending = [] ∧ t = s ∨
    ∃ r rest, s.pending = r :: rest ∧ r.presentable s.fmt ∧
      t = { s with pending := rest, responses := s.responses ++ [responseTo s.fmt r] } := by
  have hv := step_next_valid h
  cases hq : s.pending with
  | nil =>
    rw [step_idle hv hq] at h
    cases h
    exact .inl ⟨rfl, rfl⟩
  | cons r rest =>
    have hp : r.presentable s.fmt := by
      intro i hd
      by_contra hw
      rw [step_wide hv hq hd (Bool.eq_false_of_not_eq_true hw)] at h
      cases h
    rw [step_presentable hv hq hp] at h
    cases h
    exact .inr ⟨r, rest, rfl, hp, rfl⟩

/-- Settles O14: the one response a step adds is `responseTo` of a request that could be presented, and its results fit. -/
theorem stepKeepsSoundness : Obligations.StepKeepsSoundness := by
  rintro s t ⟨hv, hfits⟩ h
  refine ⟨?_, step_keeps_fmt h⟩
  rcases step_next_cases h with ⟨-, rfl⟩ | ⟨r, rest, -, hp, rfl⟩
  · exact ⟨hv, hfits⟩
  · refine ⟨hv, fun a ha => ?_⟩
    rcases List.mem_append.mp ha with hold | hnew
    · exact hfits a hold
    · rw [List.mem_singleton.mp hnew]
      exact responseTo_fits (fmtFacts hv) hp

end Sys2Proof.Machine

/-! ## The decoder of requests and the op codes (30_encoding.md R100 to R105) -/

namespace Sys2Proof

/-- Every instruction's request carries its op code and its operands on the ports it names. -/
theorem Laws.Ports.statement : ∀ i : Instr, Statement i
  | .compressRaw cap => compressRaw cap
  | .decompressRaw word cursor tag => decompressRaw word cursor tag
  | .compressMem cap => compressMem cap
  | .decompressMem word cursor tag => decompressMem word cursor tag
  | .encodeBounds base top => encodeBounds base top
  | .decodeBounds word cursor => decodeBounds word cursor
  | .extractBoundsBits word => extractBoundsBits word
  | .getPerms word => getPerms word
  | .setPerms word perms => setPerms word perms
  | .getUperms word => getUperms word
  | .setUperms word uperms => setUperms word uperms
  | .getOtype word => getOtype word
  | .setOtype word otype => setOtype word otype
  | .getFlags word => getFlags word
  | .setFlags word flags => setFlags word flags
  | .getReserved word => getReserved word
  | .setReserved word reserved => setReserved word reserved
  | .isRepresentableExact cap => isRepresentableExact cap
  | .isRepresentableNewAddr isSealed base length cursor newCursor =>
    isRepresentableNewAddr isSealed base length cursor newCursor
  | .getRepresentableLength length => getRepresentableLength length
  | .getRequiredAlignment length => getRequiredAlignment length
  | .getAlignmentMask length => getAlignmentMask length
  | .setBounds cap reqBase reqTop => setBounds cap reqBase reqTop
  | .makeMaxPermsCap base cursor top => makeMaxPermsCap base cursor top

@[simp] theorem Op.withOperands_op (o : Op) (p : Operands) : (o.withOperands p).op = o := by
  cases o <;> rfl

/-- The unassigned codes are 0x07 and those from 0x19 up (R102). -/
theorem opOfCode_eq_none_iff {c : BitVec 5} : opOfCode c = none ↔ c = 0x07#5 ∨ 0x19#5 ≤ c := by
  revert c
  decide

/-- A code selects only the operation whose code it is. -/
theorem code_of_opOfCode {c : BitVec 5} {o : Op} (h : opOfCode c = some o) : o.code = c := by
  have hall : ∀ c : BitVec 5, ∀ o ∈ opOfCode c, o.code = c := by decide
  exact hall c o h

theorem decode_of_op {r : Request} {o : Op} (h : opOfCode r.op = some o) : decode r = .ok (o.withOperands r.operands) := by
  simp [decode, h]

theorem decode_of_unassigned {r : Request} (h : opOfCode r.op = none) : decode r = .error (.unassignedOp r.op) := by
  simp [decode, h]

/-- An instruction is decoded from an assigned op code, as that operation on the request's ports. -/
theorem decode_eq_ok_iff {r : Request} {i : Instr} :
    decode r = .ok i ↔ ∃ o, opOfCode r.op = some o ∧ o.withOperands r.operands = i := by
  cases ho : opOfCode r.op with
  | none => simp [decode_of_unassigned ho]
  | some o => simp [decode_of_op ho]

/-- Settles O1: op code and ports of an encoded instruction are `Laws.Ports.statement`; conversely an assigned code is
that of the operation it selects. -/
theorem decodeUndoesEncode : Obligations.DecodeUndoesEncode := by
  refine ⟨fun i => ?_, fun r i h => ?_⟩
  · obtain ⟨-, hop, hports⟩ := Laws.Ports.statement i
    exact decode_eq_ok_iff.mpr ⟨i.op, hop, hports⟩
  · obtain ⟨o, ho, rfl⟩ := decode_eq_ok_iff.mp h
    obtain ⟨hcode, -, -⟩ := Laws.Ports.statement (o.withOperands r.operands)
    rw [hcode, Op.withOperands_op]
    exact ⟨code_of_opOfCode ho, rfl⟩

theorem decodeTableWord_of_op {nbits w : Nat} (o : Op) (h : opOfCode (tableRequest nbits w).op = some o) :
    decodeTableWord nbits w = some (o.withOperands Operands.zero) := by
  simp only [decodeTableWord, decode_of_op h]
  rfl

theorem decodeTableWord_of_unassigned {nbits w : Nat} (h : opOfCode (tableRequest nbits w).op = none) :
    decodeTableWord nbits w = none := by
  simp only [decodeTableWord, decode_of_unassigned h]

/-- Settles O2: each word's low five bits select its row's operation or none. -/
theorem opcodeWordsDecode : Obligations.OpcodeWordsDecode :=
  ⟨decodeTableWord_of_op .compressRaw rfl, decodeTableWord_of_op .decompressRaw rfl,
    decodeTableWord_of_op .compressMem rfl, decodeTableWord_of_op .decompressMem rfl,
    decodeTableWord_of_op .encodeBounds rfl, decodeTableWord_of_op .decodeBounds rfl,
    decodeTableWord_of_op .extractBoundsBits rfl, decodeTableWord_of_op .getPerms rfl,
    decodeTableWord_of_op .setPerms rfl, decodeTableWord_of_op .getUperms rfl,
    decodeTableWord_of_op .setUperms rfl, decodeTableWord_of_op .getOtype rfl,
    decodeTableWord_of_op .setOtype rfl, decodeTableWord_of_op .getFlags rfl,
    decodeTableWord_of_op .setFlags rfl, decodeTableWord_of_op .getReserved rfl,
    decodeTableWord_of_op .setReserved rfl, decodeTableWord_of_op .isRepresentableExact rfl,
    decodeTableWord_of_op .isRepresentableNewAddr rfl, decodeTableWord_of_op .getRepresentableLength rfl,
    decodeTableWord_of_op .getRequiredAlignment rfl, decodeTableWord_of_op .getAlignmentMask rfl,
    decodeTableWord_of_op .setBounds rfl, decodeTableWord_of_op .makeMaxPermsCap rfl,
    decodeTableWord_of_unassigned rfl, decodeTableWord_of_unassigned rfl, decodeTableWord_of_unassigned rfl,
    decodeTableWord_of_unassigned rfl, decodeTableWord_of_unassigned rfl, decodeTableWord_of_unassigned rfl,
    decodeTableWord_of_unassigned rfl, decodeTableWord_of_unassigned rfl⟩

namespace Machine

theorem presentable_of_unassigned {F : Fmt} {r : Request} (h : opOfCode r.op = none) : r.presentable F := by
  intro i hd
  rw [decode_of_unassigned h] at hd
  cases hd

/-- A request of an assigned op is answered with results or a fault. -/
theorem responseTo_ne_refused {F : Fmt} {r : Request} (h : opOfCode r.op ≠ none) (op : BitVec 5) :
    responseTo F r ≠ .refused op := by
  obtain ⟨o, ho⟩ := Option.ne_none_iff_exists'.mp h
  have hd := decode_of_op ho
  cases hx : resultOf F (o.withOperands r.operands) with
  | ok x =>
    rw [responseTo_of_result hd hx]
    exact nofun
  | error c =>
    rw [responseTo_of_cause hd hx]
    exact nofun

/-- Settles O3: the step answers with `responseTo`, which refuses exactly when the code selects no operation. -/
theorem unassignedOpsAreRefused : Obligations.UnassignedOpsAreRefused := by
  intro s r rest hv hq
  rw [← opOfCode_eq_none_iff]
  refine ⟨fun hnone => ?_, fun hsome hp => ?_⟩
  · rw [step_presentable hv hq (presentable_of_unassigned hnone), responseTo_of_unassigned hnone]
  · exact ⟨_, responseTo s.fmt r, step_presentable hv hq hp, rfl, responseTo_ne_refused hsome⟩

/-- A line with a literal cursor puts `DECOMPRESS_MEM`'s operands on their ports. -/
theorem putAll_decompressMem_literals (env : Bindings) (word cursor : Nat) (tag : Bool) :
    putAll env (Op.inputs .decompressMem) [.lit (.num word), .lit (.num cursor), .lit (.bit tag)] Operands.zero =
      some (Instr.decompressMem word cursor tag).ports :=
  rfl

/-- Settles O11: the ports that `NULLCAP` sets are those of `DECOMPRESS_MEM 0, cursor, 0`. -/
theorem nullcapIsDecompressMem : Obligations.NullcapIsDecompressMem := by
  intro env out cursor
  refine ⟨?_, rfl⟩
  simp only [Line.toRequest, putAll_decompressMem_literals]
  rfl

end Machine

end Sys2Proof

/-! ## The layout of the compressed word (30_encoding.md R81 to R85) -/

namespace Sys2Proof.Machine

/-- The word is the upper half of the capability and the cursor the lower one (R81). -/
theorem capabilityBits_halves (F : Fmt) (word : Nat) {cursor : Nat} (hc : cursor < 2 ^ F.aw) :
    capabilityBits F word cursor / 2 ^ F.aw = word ∧ capabilityBits F word cursor % 2 ^ F.aw = cursor := by
  rw [capabilityBits, cat_eq hc, Nat.mul_comm]
  exact ⟨by rw [Nat.mul_add_div (Nat.two_pow_pos _), Nat.div_eq_of_lt hc, Nat.add_zero],
    by rw [Nat.mul_add_mod, Nat.mod_eq_of_lt hc]⟩

/-- The low `k` bits of an `n`-bit slice. -/
theorem mod_two_pow_mod_two_pow (v : Nat) {k n : Nat} (h : k ≤ n) : v % 2 ^ n % 2 ^ k = v % 2 ^ k :=
  Nat.mod_mod_of_dvd v (Nat.pow_dvd_pow 2 h)

/-- The bits of an `n`-bit slice above its low `k`. -/
theorem mod_two_pow_div_two_pow (v : Nat) {k n : Nat} (h : k ≤ n) : v % 2 ^ n / 2 ^ k = v / 2 ^ k % 2 ^ (n - k) := by
  rw [← Nat.mod_mul_right_div_self, ← Nat.pow_add, Nat.add_sub_cancel' h]

/-- The form `IE = 1` (R85) in the bits of the word: the exponent is split over the low bits of T and B, where the mantissas
have zeros. -/
theorem extractBoundsBits_internal {F : Fmt} (hF : FmtFacts F) {w : Nat} (hie : getf w F.ie = 1) :
    (extractBoundsBits F w).e = w / 2 ^ F.mw % 2 ^ F.eh * 2 ^ F.el + w % 2 ^ F.el ∧
    (extractBoundsBits F w).b = w / 2 ^ F.el % 2 ^ (F.mw - F.el) * 2 ^ F.el ∧
    (extractBoundsBits F w).t % 2 ^ (F.mw - 2) = w / 2 ^ (F.mw + F.eh) % 2 ^ (F.mw - 2 - F.eh) * 2 ^ F.eh := by
  have hel := hF.el_lt
  have heh := hF.eh_lt
  have htf : getf w F.t = w / 2 ^ F.mw % 2 ^ (F.mw - 2) := by rw [getf_eq, hF.t_eq]
  have hbf : getf w F.b = w % 2 ^ F.mw := by simp [getf_eq, hF.b_eq]
  refine ⟨?_, ?_, ?_⟩
  · calc (extractBoundsBits F w).e = cat (trunc F.eh (getf w F.t)) F.el (trunc F.el (getf w F.b)) := by
          simp [extractBoundsBits, hie]
      _ = getf w F.t % 2 ^ F.eh * 2 ^ F.el + getf w F.b % 2 ^ F.el := cat_eq (trunc_lt _ _)
      _ = w / 2 ^ F.mw % 2 ^ F.eh * 2 ^ F.el + w % 2 ^ F.el := by
          rw [htf, hbf, mod_two_pow_mod_two_pow _ (by omega), mod_two_pow_mod_two_pow _ (by omega)]
  · calc (extractBoundsBits F w).b = getf w F.b / 2 ^ F.el * 2 ^ F.el := by
          simp [extractBoundsBits, hie, Nat.shiftRight_eq_div_pow, Nat.shiftLeft_eq]
      _ = w / 2 ^ F.el % 2 ^ (F.mw - F.el) * 2 ^ F.el := by rw [hbf, mod_two_pow_div_two_pow _ (by omega)]
  · have hlow : getf w F.t / 2 ^ F.eh * 2 ^ F.eh < 2 ^ (F.mw - 2) :=
      (Nat.div_mul_le_self _ _).trans_lt (htf ▸ Nat.mod_lt _ (Nat.two_pow_pos _))
    have hcat (top2 : Nat) : cat top2 (F.mw - 2) (getf w F.t / 2 ^ F.eh * 2 ^ F.eh) % 2 ^ (F.mw - 2)
        = getf w F.t / 2 ^ F.eh * 2 ^ F.eh := by
      rw [cat_eq hlow, Nat.mul_comm top2, Nat.mul_add_mod, Nat.mod_eq_of_lt hlow]
    calc (extractBoundsBits F w).t % 2 ^ (F.mw - 2) = getf w F.t / 2 ^ F.eh * 2 ^ F.eh := by
          simp only [extractBoundsBits, hie, decide_true, if_true, Nat.shiftRight_eq_div_pow, Nat.shiftLeft_eq _ F.eh]
          exact hcat _
      _ = w / 2 ^ (F.mw + F.eh) % 2 ^ (F.mw - 2 - F.eh) * 2 ^ F.eh := by
          rw [htf, mod_two_pow_div_two_pow _ (by omega), Nat.div_div_eq_div_mul, ← Nat.pow_add]

/-- Settles O17: `getf` is division and remainder at R81's offsets; the split of the form `IE = 1` is
`extractBoundsBits_internal` with `MW = 14` and `EL = EH = 3`. -/
theorem cc128Layout : Obligations.Cc128Layout := by
  intro w c hw hc
  have huperms : getf w cc128.uperms = w / 2 ^ 60 := (getf_eq w _).trans (Nat.mod_eq_of_lt (Nat.div_lt_of_lt_mul hw))
  have hb : getf w cc128.b = w % 2 ^ 14 := by rw [getf_eq]; simp [cc128]
  have hie : getf w cc128.ie = w / 2 ^ 26 % 2 := getf_eq w _
  exact ⟨huperms, getf_eq w _, getf_eq w _, getf_eq w _, getf_eq w _, hie, getf_eq w _, hb, rfl,
    fun h1 => extractBoundsBits_internal (fmtFacts validFmt_cc128) (hie.trans h1), capabilityBits_halves cc128 w hc⟩

/-- Settles O18: as for CC128, at R82's offsets with `MW = 8`; `UPERMS` and `RESERVED` have width 0. -/
theorem cc64Layout : Obligations.Cc64Layout := by
  intro w c hw hc
  have hhwperms : getf w cc64.hwperms = w / 2 ^ 20 := (getf_eq w _).trans (Nat.mod_eq_of_lt (Nat.div_lt_of_lt_mul hw))
  have hb : getf w cc64.b = w % 256 := by rw [getf_eq]; simp [cc64]
  have hie : getf w cc64.ie = w / 2 ^ 14 % 2 := getf_eq w _
  exact ⟨hhwperms, Nat.mod_one _, Nat.mod_one _, getf_eq w _, getf_eq w _, hie, getf_eq w _, hb,
    fun h1 => extractBoundsBits_internal (fmtFacts validFmt_cc64) (hie.trans h1), capabilityBits_halves cc64 w hc⟩

end Sys2Proof.Machine

/-! ## The field codec, bit by bit (40_field_codec.md R120, R121, R135) -/

namespace Sys2Proof

theorem Field.contains_lo_add (f : Field) (k : Nat) : f.contains (f.lo + k) = decide (k < f.width) := by
  simp [Field.contains]

theorem Field.disjoint_symm {f g : Field} (h : f.disjoint g = true) : g.disjoint f = true := by
  simp only [Field.disjoint, Bool.or_eq_true, decide_eq_true_eq] at h ⊢
  omega

theorem Fmt.pairwiseDisjoint_iff {l : List Field} :
    Fmt.pairwiseDisjoint l = true ↔ l.Pairwise fun f g => f.disjoint g = true := by
  induction l with
  | nil => simp [Fmt.pairwiseDisjoint]
  | cons f fs ih => simp [Fmt.pairwiseDisjoint, ih]

/-- The fields that the ten getters and setters reach: those outside the bounds subfield (R122). -/
def Fmt.codecFields (F : Fmt) : List Field := [F.uperms, F.hwperms, F.reserved, F.flags, F.otype]

theorem Fmt.fields_eq_append (F : Fmt) : F.fields = F.codecFields ++ [F.ie, F.t, F.b] := rfl

namespace Machine

/-- A value of `n` bits has none from bit `n` up. -/
theorem testBit_of_width_le {v n k : Nat} (hv : v < 2 ^ n) (hk : n ≤ k) : v.testBit k = false :=
  Nat.testBit_lt_two_pow (hv.trans_le (Nat.pow_le_pow_right Nat.two_pos hk))

theorem testBit_getf (w : Nat) (f : Field) (k : Nat) :
    (getf w f).testBit k = (decide (k < f.width) && w.testBit (f.lo + k)) := by
  simp [getf]

/-- Inside the field `setf` clears the word's bit and leaves the value's; outside it there is no bit of the mask, and none
of the value, which is as narrow as the field. -/
theorem testBit_setf {w v : Nat} {f : Field} (hv : v < 2 ^ f.width) (k : Nat) :
    (setf w f v).testBit k = if f.contains k then v.testBit (k - f.lo) else w.testBit k := by
  have hmask : (ones f.width <<< f.lo).testBit k = f.contains k := by
    simp only [ones, Nat.testBit_shiftLeft, Nat.testBit_two_pow_sub_one, Field.contains]
    by_cases hlo : f.lo ≤ k
    · simp [hlo, Nat.sub_lt_iff_lt_add' hlo]
    · simp [hlo]
  have hins : (v <<< f.lo).testBit k = (f.contains k && v.testBit (k - f.lo)) := by
    rw [Nat.testBit_shiftLeft]
    by_cases hlo : f.lo ≤ k
    · by_cases hhi : k < f.lo + f.width
      · simp [Field.contains, hlo, hhi]
      · simp [testBit_of_width_le hv (show f.width ≤ k - f.lo by omega), Field.contains, hhi]
    · simp [Field.contains, hlo]
  simp only [setf, Nat.testBit_or, Nat.testBit_xor, Nat.testBit_and, hmask, hins]
  cases f.contains k <;> simp

/-- Inserting the value that stands in the field changes nothing. -/
theorem setf_getf (w : Nat) (f : Field) : setf w f (getf w f) = w := by
  refine Nat.eq_of_testBit_eq fun k => ?_
  rw [testBit_setf (getf_lt w f)]
  split
  · next hk =>
    obtain ⟨hlo, hhi⟩ := Field.contains_eq_true_iff.mp hk
    have hin : k - f.lo < f.width := by omega
    simp [testBit_getf, hin, Nat.add_sub_cancel' hlo]
  · rfl

theorem getf_of_width_zero (w : Nat) {f : Field} (h : f.width = 0) : getf w f = 0 := by
  simp [getf, h, Nat.mod_one]

theorem setf_of_width_zero {w v : Nat} {f : Field} (hv : v < 2 ^ f.width) (h : f.width = 0) : setf w f v = w := by
  have hval : v = getf w f := by
    rw [getf_of_width_zero w h]
    simpa [h] using hv
  rw [hval, setf_getf]

/-- Settles O19: the bits of extraction and insertion. -/
theorem fieldBitsAreReadAndWrittenExactly : Obligations.FieldBitsAreReadAndWrittenExactly :=
  fun f w _ k hv => ⟨testBit_getf w f k, testBit_setf hv k, fun h => ⟨getf_of_width_zero w h, setf_of_width_zero hv h⟩⟩

theorem getf_setf_same {w v : Nat} {f : Field} (hv : v < 2 ^ f.width) : getf (setf w f v) f = v := by
  refine Nat.eq_of_testBit_eq fun k => ?_
  rw [testBit_getf, testBit_setf hv, Field.contains_lo_add]
  by_cases hk : k < f.width
  · simp [hk]
  · simp [hk, testBit_of_width_le hv (Nat.le_of_not_lt hk)]

/-- Inserting into a field leaves every field disjoint from it. -/
theorem getf_setf_of_disjoint {w v : Nat} {f g : Field} (hv : v < 2 ^ f.width) (hd : f.disjoint g = true) :
    getf (setf w f v) g = getf w g := by
  refine Nat.eq_of_testBit_eq fun k => ?_
  rw [testBit_getf, testBit_getf, testBit_setf hv]
  by_cases hk : k < g.width
  · have hg : g.contains (g.lo + k) = true := by simpa [Field.contains_lo_add] using hk
    have hf : ¬ f.contains (g.lo + k) = true := fun hf => Field.not_contains_of_disjoint hd hf hg
    rw [if_neg hf]
  · simp [hk]

theorem FmtFacts.disjoint_of_ne {F : Fmt} (hF : FmtFacts F) {f g : Field} (hf : f ∈ F.fields) (hg : g ∈ F.fields)
    (hne : f ≠ g) : f.disjoint g = true := by
  simpa [Field.disjoint, or_assoc] using hF.fields_disjoint hf hg hne

/-- Settles O20: a field reads back what was written; the other fields are disjoint from it (R13 (7)). -/
theorem fieldInsertExtractLaws : Obligations.FieldInsertExtractLaws := by
  intro F hv f hf w v hvf
  exact ⟨getf_setf_same hvf,
    fun g hg hne => getf_setf_of_disjoint hvf ((fmtFacts hv).disjoint_of_ne hf hg (Ne.symm hne)), setf_getf w f⟩

/-! ### The non-bounds fields and the bounds subfield -/

theorem FmtFacts.codecField_disjoint_boundsField {F : Fmt} (hF : FmtFacts F) {f g : Field} (hf : f ∈ F.codecFields)
    (hg : g ∈ [F.ie, F.t, F.b]) : f.disjoint g = true := by
  have hpair := Fmt.pairwiseDisjoint_iff.mp hF.fields_pairwiseDisjoint
  rw [Fmt.fields_eq_append, List.pairwise_append] at hpair
  obtain ⟨-, -, hcross⟩ := hpair
  exact hcross f hf g hg

/-- The decoder reads the word's bounds fields only. -/
theorem decodeBounds_congr {F : Fmt} {w w' : Nat} (h : ∀ g ∈ [F.ie, F.t, F.b], getf w' g = getf w g) (cursor : Nat) :
    decodeBounds F w' cursor = decodeBounds F w cursor := by
  have hie : getf w' F.ie = getf w F.ie := h _ (by simp)
  have ht : getf w' F.t = getf w F.t := h _ (by simp)
  have hb : getf w' F.b = getf w F.b := h _ (by simp)
  simp only [decodeBounds, extractBoundsBits, hie, ht, hb]

/-- Inserting into a non-bounds field is what a setter must do. -/
theorem FmtFacts.setsField_setf {F : Fmt} (hF : FmtFacts F) {f : Field} (hf : f ∈ F.codecFields) {w v : Nat}
    (hw : w < 2 ^ F.aw) (hv : v < 2 ^ f.width) : setsField F f w v (setf w f v) := by
  have hmem : f ∈ F.fields := F.fields_eq_append ▸ List.mem_append_left _ hf
  refine ⟨hF.setf_lt hmem hw hv, testBit_setf hv, decodeBounds_congr fun g hg => ?_, ?_⟩
  · exact getf_setf_of_disjoint hv (hF.codecField_disjoint_boundsField hf hg)
  · rintro rfl
    exact setf_getf w f

/-- An instruction whose pure result is the insertion into a non-bounds field answers what a setter must. -/
theorem exec_setsField {s : State} {i : Instr} {f : Field} {w v : Nat} (hs : validFmt s.fmt = true)
    (hw : w < 2 ^ s.fmt.aw) (hf : f ∈ s.fmt.codecFields) (hi : resultOf s.fmt i = .ok (.word (setf w f v)))
    (hv : v < 2 ^ f.width) : ∃ w', exec i s = .next (s.answered (.word w')) ∧ setsField s.fmt f w v w' :=
  ⟨setf w f v, exec_eq_next_iff.mpr hi, (fmtFacts hs).setsField_setf hf hw hv⟩

/-- Settles O22: each setter's pure result is the insertion into its own field, which is none of the bounds fields. -/
theorem settersReplaceTheirField : Obligations.SettersReplaceTheirField := by
  intro s w v hs hw
  exact ⟨exec_setsField hs hw (by simp [Fmt.codecFields]) rfl, exec_setsField hs hw (by simp [Fmt.codecFields]) rfl,
    exec_setsField hs hw (by simp [Fmt.codecFields]) rfl, exec_setsField hs hw (by simp [Fmt.codecFields]) rfl,
    exec_setsField hs hw (by simp [Fmt.codecFields]) rfl⟩

/-! ### The object type of a compressed record and of the null mask (R128, 41_bounds_encoder.md R156, R160) -/

@[simp] theorem getf_zero (f : Field) : getf 0 f = 0 := by
  simp [getf]

theorem getf_or (a b : Nat) (f : Field) : getf (a ||| b) f = getf a f ||| getf b f := by
  simp [getf, Nat.shiftRight_or_distrib, Nat.or_mod_two_pow]

/-- `place` is the three bounds fields, each inserted into the zero word. -/
theorem place_eq_setf {F : Fmt} (hF : FmtFacts F) (ie : Bool) (tf bf : Nat) :
    place F ie tf bf = setf 0 F.ie ie.toNat ||| setf 0 F.t tf ||| setf 0 F.b bf := by
  simp [place, setf, hF.ie_eq, hF.t_eq, hF.b_eq]

/-- The bounds subfield has no bit in a non-bounds field. -/
theorem FmtFacts.getf_place {F : Fmt} (hF : FmtFacts F) {f : Field} (hf : f ∈ F.codecFields) (ie : Bool) {tf bf : Nat}
    (ht : tf < 2 ^ (F.mw - 2)) (hb : bf < 2 ^ F.mw) : getf (place F ie tf bf) f = 0 := by
  have hclear {g : Field} {v : Nat} (hg : g ∈ [F.ie, F.t, F.b]) (hv : v < 2 ^ g.width) : getf (setf 0 g v) f = 0 := by
    rw [getf_setf_of_disjoint hv (Field.disjoint_symm (hF.codecField_disjoint_boundsField hf hg)), getf_zero]
  have hie : ie.toNat < 2 ^ F.ie.width := by
    rw [hF.ie_eq]
    exact ie.toNat_lt
  rw [place_eq_setf hF, getf_or, getf_or, hclear (by simp) hie, hclear (by simp) (by rwa [hF.t_eq]),
    hclear (by simp) (by rwa [hF.b_eq])]
  rfl

/-- The internal-exponent form stores its two fields at their widths. -/
theorem InternalSpec.ebt_eq_place {F : Fmt} (hF : FmtFacts F) {base top e : Nat} {r : EbtResult}
    (h : InternalSpec F base top r e) :
    ∃ tf bf, tf < 2 ^ (F.mw - 2) ∧ bf < 2 ^ F.mw ∧ r.ebt = place F true tf bf := by
  have hel := hF.el_lt
  have hexpW := hF.el_add_eh
  have heq := hF.el_eq_eh
  have hpos := hF.el_pos
  refine ⟨_, _, ?_, ?_, h.ebt_eq⟩
  · have hexp : slice (F.expW - 1) F.el e < 2 ^ F.eh := by
      convert slice_lt (F.expW - 1) F.el e using 2
      omega
    convert cat_lt (trunc_lt _ _) hexp using 2
    omega
  · convert cat_lt (Nat.mod_lt _ (Nat.two_pow_pos F.bIeW)) (trunc_lt F.el e) using 2
    unfold Fmt.bIeW
    omega

/-- What the encoder answers on its domain has no bit outside the bounds subfield. -/
theorem getf_ebtOf {F : Fmt} (hF : FmtFacts F) {base top : Nat} (hle : base ≤ top) (htop : top ≤ 2 ^ F.aw) {f : Field}
    (hf : f ∈ F.codecFields) : getf (ebtOf F base top).ebt f = 0 := by
  rcases ebtOf_cases hF hle htop with ⟨e, hspec⟩ | hzero
  · obtain ⟨tf, bf, ht, hb, hebt⟩ := hspec.ebt_eq_place hF
    rw [hebt, hF.getf_place hf true ht hb]
  · rw [hzero]
    exact hF.getf_place hf false (trunc_lt _ _) (trunc_lt _ _)

/-- The raw word of a record holds the record's object type. -/
theorem getf_otype_compressRaw {F : Fmt} (hF : FmtFacts F) {c : DecodedCap} {w : Nat} (hc : c.otype < 2 ^ F.otype.width)
    (h : compressRaw F c = .ok w) : getf w F.otype = c.otype := by
  rw [compressRaw, except_bind_pure] at h
  obtain ⟨r, hr, rfl⟩ := except_map_eq_ok h
  obtain ⟨hle, htop, rfl⟩ := computeEbt_eq_ok hr
  have hpack : getf (packFields F c) F.otype = c.otype := getf_setf_same hc
  rw [getf_or, hpack, getf_ebtOf hF hle htop (by simp [Fmt.codecFields]), Nat.or_zero]

/-- The null mask holds the unsealed object type, being the compression of the null capability (R13 (8)). -/
theorem FmtFacts.getf_otype_nullXorMask {F : Fmt} (hF : FmtFacts F) :
    getf F.nullXorMask F.otype = 2 ^ F.otype.width - 1 :=
  getf_otype_compressRaw hF (ones_lt _) hF.nullMask

/-- Settles O21: each getter's pure result is the extraction of its field. -/
theorem gettersReturnTheirField : Obligations.GettersReturnTheirField := by
  intro s w
  refine ⟨exec_eq_next_iff.mpr rfl, exec_eq_next_iff.mpr rfl, exec_eq_next_iff.mpr rfl, exec_eq_next_iff.mpr rfl,
    exec_eq_next_iff.mpr rfl, fun h64 => ?_, ?_, fun hv => ?_⟩ <;> simp only [exec_eq_next_iff, resultOf]
  · have huperms : s.fmt.uperms.width = 0 := by rw [h64]; rfl
    have hreserved : s.fmt.reserved.width = 0 := by rw [h64]; rfl
    rw [getf_of_width_zero w huperms, getf_of_width_zero w hreserved]
    exact ⟨rfl, rfl⟩
  · rw [getf_zero]
  · rw [(fmtFacts hv).getf_otype_nullXorMask]

/-! ## Operands wider than their ports (92_eei_decisions.md D20) -/

/-- Settles O10: such a request is not accepted, and a step on it stops the model by name. -/
theorem wideOperandsAreRejected : Obligations.WideOperandsAreRejected :=
  fun _ _ _ _ => step_wide

end Machine

end Sys2Proof

namespace Sys2Proof.Machine

/-! ## Lengths, exponents and the form of an encoded pair (41_bounds_encoder.md R150, R151) -/

theorem getExponent_of_short {F : Fmt} {L : Nat} (h : L / 2 ^ (F.mw - 1) = 0) : getExponent F L = 0 := by
  simp [getExponent, Nat.shiftRight_eq_div_pow, h]

theorem getExponent_of_long {F : Fmt} {L : Nat} (h : L / 2 ^ (F.mw - 1) ≠ 0) :
    getExponent F L = Nat.log2 (L / 2 ^ (F.mw - 1)) + 1 := by
  simp [getExponent, Nat.shiftRight_eq_div_pow, h, msb]

theorem getExponent_eq_zero_iff {F : Fmt} {L : Nat} : getExponent F L = 0 ↔ L < 2 ^ (F.mw - 1) :=
  ⟨getExponent_zero_bound, fun h => getExponent_of_short (Nat.div_eq_of_lt h)⟩

theorem getExponent_add_eq_log2 {F : Fmt} (hF : FmtFacts F) {L : Nat} (h : 2 ^ (F.mw - 1) ≤ L) :
    getExponent F L + (F.mw - 2) = Nat.log2 L := by
  have hmw := hF.el_lt
  have hpos : getExponent F L ≠ 0 := fun h0 => absurd (getExponent_eq_zero_iff.mp h0) (Nat.not_lt.mpr h)
  obtain ⟨hlo, hhi⟩ := getExponent_pos_bounds hF hpos
  have hL : L ≠ 0 := (Nat.lt_of_lt_of_le (Nat.two_pow_pos _) h).ne'
  refine ((Nat.log2_eq_iff hL).mpr ⟨hlo, ?_⟩).symm
  rwa [show getExponent F L + (F.mw - 2) + 1 = getExponent F L + (F.mw - 1) by omega]

/-- A length of the address space has an exponent of at most `MAX_E`, and `MAX_E` only when it is the whole space: the class of
`MAX_E` begins at `2^AW`. -/
theorem getExponent_le_maxE {F : Fmt} (hF : FmtFacts F) {L : Nat} (hL : L ≤ 2 ^ F.aw) :
    getExponent F L ≤ F.maxE ∧ (getExponent F L = F.maxE ↔ L = 2 ^ F.aw) := by
  have hmw := hF.el_lt
  have haw := hF.mw_le_aw
  have hmax := hF.maxE_eq
  by_cases hshort : L < 2 ^ (F.mw - 1)
  · have hE : getExponent F L = 0 := getExponent_eq_zero_iff.mpr hshort
    have hlt : 2 ^ (F.mw - 1) ≤ 2 ^ F.aw := Nat.pow_le_pow_right Nat.two_pos (by omega)
    constructor
    · omega
    · constructor <;> intro h <;> omega
  · have hlog := getExponent_add_eq_log2 hF (Nat.le_of_not_lt hshort)
    have hL0 : L ≠ 0 := (Nat.lt_of_lt_of_le (Nat.two_pow_pos _) (Nat.le_of_not_lt hshort)).ne'
    have hle : Nat.log2 L ≤ F.aw :=
      (Nat.pow_le_pow_iff_right Nat.one_lt_two).mp ((Nat.log2_self_le hL0).trans hL)
    have heq : Nat.log2 L = F.aw ↔ L = 2 ^ F.aw :=
      ⟨fun h => Nat.le_antisymm hL (h ▸ Nat.log2_self_le hL0), fun h => by rw [h, Nat.log2_two_pow]⟩
    exact ⟨by omega, by rw [← heq]; omega⟩

/-- R150's form with the count of leading zeros: the slice is as wide as `MAX_E`. -/
theorem getExponent_eq_maxE_sub_clz {F : Fmt} (hF : FmtFacts F) {L : Nat} (hL : L ≤ 2 ^ F.aw) :
    getExponent F L = F.maxE - clz F.maxE (slice F.aw (F.mw - 1) L) := by
  have hmw := hF.el_lt
  have haw := hF.mw_le_aw
  have hmax := hF.maxE_eq
  have hwidth : F.aw + 1 - (F.mw - 1) = F.maxE := by omega
  have hhigh : L / 2 ^ (F.mw - 1) < 2 ^ F.maxE := by
    rw [Nat.div_lt_iff_lt_mul (Nat.two_pow_pos _), ← Nat.pow_add]
    exact hL.trans_lt (Nat.pow_lt_pow_right Nat.one_lt_two (by omega))
  have hslice : slice F.aw (F.mw - 1) L = L / 2 ^ (F.mw - 1) := by
    rw [slice, Nat.shiftRight_eq_div_pow, hwidth, Nat.mod_eq_of_lt hhigh]
  rw [hslice]
  by_cases h0 : L / 2 ^ (F.mw - 1) = 0
  · simp [getExponent_of_short h0, clz, h0]
  · have hlt : Nat.log2 (L / 2 ^ (F.mw - 1)) < F.maxE := (Nat.log2_lt h0).mpr hhigh
    rw [getExponent_of_long h0, clz, if_neg h0, msb]
    omega

/-- Settles O23: the class of a length is a power-of-two interval, which gives its logarithm; the classes up to `MAX_E` cover
the lengths of the address space. -/
theorem exponentSelection : Obligations.ExponentSelection := by
  intro F L hv hL
  have hF := fmtFacts hv
  obtain ⟨hle, hmax⟩ := getExponent_le_maxE hF hL
  exact ⟨getExponent_of_short, getExponent_of_long, getExponent_eq_maxE_sub_clz hF hL, getExponent_add_eq_log2 hF, hle,
    hmax⟩

/-- R151: the internal-exponent form is that of the lengths from `2^(MW-2)` on. -/
theorem usesInternalExponent_iff {F : Fmt} (hF : FmtFacts F) {L : Nat} :
    usesInternalExponent F L = true ↔ 2 ^ (F.mw - 2) ≤ L := by
  constructor
  · intro h
    exact (Nat.pow_le_pow_right Nat.two_pos (Nat.le_add_left _ _)).trans (internal_length_bounds hF h).1
  · intro h
    by_contra hne
    exact absurd (exponentZero_length_bound hF (Bool.not_eq_true _ ▸ hne)) (Nat.not_lt.mpr h)

theorem usesInternalExponent_eq_false_iff {F : Fmt} (hF : FmtFacts F) {L : Nat} :
    usesInternalExponent F L = false ↔ L < 2 ^ (F.mw - 2) := by
  rw [← Bool.not_eq_true, usesInternalExponent_iff hF, Nat.not_le]

theorem ebtOf_of_short {F : Fmt} (hF : FmtFacts F) {base top : Nat} (h : top - base < 2 ^ (F.mw - 2)) :
    ebtOf F base top = ebtExponentZero F base top := by
  simp [ebtOf, (usesInternalExponent_eq_false_iff hF).mpr h]

theorem ebtOf_of_long {F : Fmt} (hF : FmtFacts F) {base top : Nat} (hle : base ≤ top) (htop : top ≤ 2 ^ F.aw)
    (h : 2 ^ (F.mw - 2) ≤ top - base) : InternalSpec F base top (ebtOf F base top) (storedExponent F base top) := by
  have hie := (usesInternalExponent_iff hF).mpr h
  have hform : ebtOf F base top = ebtInternal F base top (getExponent F (top - base)) := by simp [ebtOf, hie]
  exact hform ▸ ebtInternal_spec hF hle htop hie

/-! ## Reading an encoded pair back: the two mantissas (42_bounds_decoder.md R180) -/

/-- The top two bits of a top mantissa follow from its low bits: the length is known to within one quarter of the window. -/
theorem mod_four_mul_eq_of_length {N lo hi i : Nat} (hN : 0 < N) (hge : lo + i * N ≤ hi) (hlt : hi < lo + (i + 1) * N) :
    (lo % (N * 4) / N + i + (decide (hi % N < lo % (N * 4) % N)).toNat) % 4 * N + hi % N = hi % (N * 4) := by
  have hquot : lo % (N * 4) / N = lo / N % 4 := Nat.mod_mul_right_div_self lo N 4
  have hrem : lo % (N * 4) % N = lo % N := Nat.mod_mul_right_mod lo N 4
  have htop : hi / N = lo / N + i + (decide (hi % N < lo % N)).toNat := by
    obtain ⟨d, rfl⟩ := Nat.exists_eq_add_of_le ((Nat.le_add_right _ _).trans hge)
    have hd : d / N = i := Nat.div_eq_of_lt_le (by omega) (by omega)
    have hlo := Nat.mod_lt lo hN
    have hdlt := Nat.mod_lt d hN
    rw [Nat.add_div hN, Nat.add_mod_eq_ite, hd]
    split
    · simp [show lo % N + d % N - N < lo % N by omega]
    · simp
  rw [hquot, hrem, Nat.mod_mul, htop]
  simp only [Nat.add_mod, Nat.mod_mod]
  ring

/-- The low bits of the top mantissa of a word: those of the field T, in the form `IE = 1` with zeros for the exponent's. -/
def topLow (F : Fmt) (w : Nat) : Nat :=
  if (extractBoundsBits F w).ie then getf w F.t / 2 ^ F.eh * 2 ^ F.eh else getf w F.t

theorem topLow_lt {F : Fmt} (hF : FmtFacts F) (w : Nat) : topLow F w < 2 ^ (F.mw - 2) := by
  have htf : getf w F.t < 2 ^ (F.mw - 2) := by simpa [hF.t_eq] using getf_lt w F.t
  unfold topLow
  split
  · exact (Nat.div_mul_le_self _ _).trans_lt htf
  · exact htf

/-- The full top mantissa of a word: two bits that follow from the bottom mantissa and the form, over the low bits. -/
theorem extractBoundsBits_t {F : Fmt} (hF : FmtFacts F) (w : Nat) :
    (extractBoundsBits F w).t =
      ((extractBoundsBits F w).b / 2 ^ (F.mw - 2) + (extractBoundsBits F w).ie.toNat
        + (decide (topLow F w < (extractBoundsBits F w).b % 2 ^ (F.mw - 2))).toNat) % 4 * 2 ^ (F.mw - 2) + topLow F w := by
  rw [← cat_eq (topLow_lt hF w), topLow, ← Nat.shiftRight_eq_div_pow (getf w F.t), ← Nat.shiftLeft_eq _ F.eh,
    ← Nat.shiftRight_eq_div_pow]
  rfl

/-- A word whose bottom mantissa and low top mantissa are those of two numbers, as far apart as its form says, has the top
mantissa of the second. -/
theorem extractBoundsBits_t_of_length {F : Fmt} (hF : FmtFacts F) {w lo hi : Nat}
    (hb : (extractBoundsBits F w).b = lo % 2 ^ F.mw) (ht : topLow F w = hi % 2 ^ (F.mw - 2))
    (hge : lo + (extractBoundsBits F w).ie.toNat * 2 ^ (F.mw - 2) ≤ hi)
    (hlt : hi < lo + ((extractBoundsBits F w).ie.toNat + 1) * 2 ^ (F.mw - 2)) :
    (extractBoundsBits F w).t = hi % 2 ^ F.mw := by
  have hmw := hF.el_lt
  have hsplit : 2 ^ F.mw = 2 ^ (F.mw - 2) * 4 := by
    rw [show 4 = 2 ^ 2 from rfl, ← Nat.pow_add, Nat.sub_add_cancel (by omega)]
  rw [extractBoundsBits_t hF, hb, ht, hsplit, mod_four_mul_eq_of_length (Nat.two_pow_pos _) hge hlt]

/-- The form `IE = 0`: the fields are the mantissas. -/
theorem extractBoundsBits_place_false {F : Fmt} (hF : FmtFacts F) {tf bf : Nat} (ht : tf < 2 ^ (F.mw - 2))
    (hb : bf < 2 ^ F.mw) :
    (extractBoundsBits F (place F false tf bf)).ie = false ∧ (extractBoundsBits F (place F false tf bf)).e = 0 ∧
    (extractBoundsBits F (place F false tf bf)).b = bf ∧ topLow F (place F false tf bf) = tf := by
  simp [topLow, extractBoundsBits, getf_ie_place hF false ht hb, getf_b_place hF false ht hb, getf_t_place hF false ht hb]

/-- The form `IE = 1`: the exponent is put together from the low bits of the fields, and the mantissas are above them. -/
theorem extractBoundsBits_place_true {F : Fmt} (hF : FmtFacts F) {tf bf : Nat} (ht : tf < 2 ^ (F.mw - 2))
    (hb : bf < 2 ^ F.mw) :
    (extractBoundsBits F (place F true tf bf)).ie = true ∧
    (extractBoundsBits F (place F true tf bf)).e = tf % 2 ^ F.eh * 2 ^ F.el + bf % 2 ^ F.el ∧
    (extractBoundsBits F (place F true tf bf)).b = bf / 2 ^ F.el * 2 ^ F.el ∧
    topLow F (place F true tf bf) = tf / 2 ^ F.eh * 2 ^ F.eh := by
  have hcat : cat (trunc F.eh tf) F.el (trunc F.el bf) = tf % 2 ^ F.eh * 2 ^ F.el + bf % 2 ^ F.el := cat_eq (trunc_lt _ _)
  simp [topLow, extractBoundsBits, getf_ie_place hF true ht hb, getf_b_place hF true ht hb, getf_t_place hF true ht hb,
    Nat.shiftRight_eq_div_pow, Nat.shiftLeft_eq, hcat]

/-- Two parts beside each other and their width, in arithmetic. -/
theorem mul_two_pow_add_parts {hi w lo : Nat} (h : lo < 2 ^ w) :
    (hi * 2 ^ w + lo) / 2 ^ w = hi ∧ (hi * 2 ^ w + lo) % 2 ^ w = lo := by
  rw [Nat.mul_comm]
  exact ⟨by rw [Nat.mul_add_div (Nat.two_pow_pos _), Nat.div_eq_of_lt h, Nat.add_zero],
    by rw [Nat.mul_add_mod, Nat.mod_eq_of_lt h]⟩

theorem mul_two_pow_add_lt {hi n w lo : Nat} (hhi : hi < 2 ^ n) (hlo : lo < 2 ^ w) : hi * 2 ^ w + lo < 2 ^ (n + w) := by
  rw [← cat_eq hlo]
  exact cat_lt hhi hlo

/-- The field T of the form `IE = 1` (R152): the low bits of the rounded top over the high half of the exponent. -/
def internalT (F : Fmt) (top g e : Nat) : Nat :=
  (top + 2 ^ g - 1) / 2 ^ g % 2 ^ (F.mw - 2 - F.el) * 2 ^ F.eh + e / 2 ^ F.el

/-- The field B of the form `IE = 1` (R152): the rounded base over the low half of the exponent. -/
def internalB (F : Fmt) (base g e : Nat) : Nat :=
  base / 2 ^ g % 2 ^ (F.mw - F.el) * 2 ^ F.el + e % 2 ^ F.el

theorem FmtFacts.exponent_high_lt {F : Fmt} (hF : FmtFacts F) {e : Nat} (he : e ≤ F.maxE) : e / 2 ^ F.el < 2 ^ F.eh := by
  have hmax := hF.maxE_le
  have hpos := Nat.two_pow_pos F.expW
  rw [Nat.div_lt_iff_lt_mul (Nat.two_pow_pos _), ← Nat.pow_add, Nat.add_comm, hF.el_add_eh]
  omega

theorem internalT_lt {F : Fmt} (hF : FmtFacts F) {e : Nat} (he : e ≤ F.maxE) (top g : Nat) :
    internalT F top g e < 2 ^ (F.mw - 2) := by
  have hel := hF.el_lt
  have heq := hF.el_eq_eh
  have hlt := mul_two_pow_add_lt (Nat.mod_lt ((top + 2 ^ g - 1) / 2 ^ g) (Nat.two_pow_pos (F.mw - 2 - F.el)))
    (hF.exponent_high_lt he)
  rwa [show F.mw - 2 - F.el + F.eh = F.mw - 2 by omega] at hlt

theorem internalB_lt {F : Fmt} (hF : FmtFacts F) (base g e : Nat) : internalB F base g e < 2 ^ F.mw := by
  have hel := hF.el_lt
  have hlt := mul_two_pow_add_lt (Nat.mod_lt (base / 2 ^ g) (Nat.two_pow_pos (F.mw - F.el)))
    (Nat.mod_lt e (Nat.two_pow_pos F.el))
  rwa [Nat.sub_add_cancel (by omega)] at hlt

theorem InternalSpec.ebt_eq_place_fields {F : Fmt} (hF : FmtFacts F) {base top e : Nat} {r : EbtResult}
    (h : InternalSpec F base top r e) :
    r.ebt = place F true (internalT F top r.g e) (internalB F base r.g e) := by
  have hexpW := hF.el_add_eh
  have hpos := hF.el_pos
  have hW : F.bIeW = F.mw - F.el := rfl
  have hslice : slice (F.expW - 1) F.el e = e / 2 ^ F.el := by
    rw [slice, Nat.shiftRight_eq_div_pow, show F.expW - 1 + 1 - F.el = F.eh by omega,
      Nat.mod_eq_of_lt (hF.exponent_high_lt h.e_le)]
  rw [h.ebt_eq, hslice, cat_eq (hF.exponent_high_lt h.e_le), cat_eq (trunc_lt _ _), trunc, trunc, hW,
    mod_two_pow_mod_two_pow _ (by omega)]
  rfl

/-- The form `IE = 0` holds both mantissas in full but for the two bits of the top that follow from the length. -/
theorem extractBoundsBits_ebtExponentZero {F : Fmt} (hF : FmtFacts F) {base top : Nat} (hle : base ≤ top)
    (hlen : top - base < 2 ^ (F.mw - 2)) :
    extractBoundsBits F (ebtExponentZero F base top).ebt = ⟨false, 0, base % 2 ^ F.mw, top % 2 ^ F.mw⟩ := by
  obtain ⟨hie, he, hb, hlow⟩ := extractBoundsBits_place_false hF (trunc_lt (F.mw - 2) top) (trunc_lt F.mw base)
  change extractBoundsBits F (place F false (trunc (F.mw - 2) top) (trunc F.mw base)) = _
  have ht := extractBoundsBits_t_of_length hF hb hlow (by rw [hie]; simpa using hle) (by simp [hie]; omega)
  rw [BoundsBits.mk.injEq]
  exact ⟨hie, he, hb, ht⟩

theorem FmtFacts.half_window {F : Fmt} (hF : FmtFacts F) : 2 ^ (F.mw - 1) = 2 * 2 ^ (F.mw - 2) := by
  have hmw := hF.el_lt
  rw [← Nat.pow_succ']
  congr 1
  omega

/-- The two mantissas of the form `IE = 1`, scaled by `2^EL`, are from a quarter of the window to less than a half apart. -/
theorem InternalSpec.mantissas_apart {F : Fmt} (hF : FmtFacts F) {base top e : Nat} {r : EbtResult}
    (h : InternalSpec F base top r e) :
    base / 2 ^ r.g * 2 ^ F.el + 2 ^ (F.mw - 2) ≤ (top + 2 ^ r.g - 1) / 2 ^ r.g * 2 ^ F.el ∧
    (top + 2 ^ r.g - 1) / 2 ^ r.g * 2 ^ F.el < base / 2 ^ r.g * 2 ^ F.el + 2 ^ (F.mw - 1) := by
  have hel := hF.el_lt
  have hge := Nat.mul_le_mul_right (2 ^ F.el) h.len_ge
  have hlt := Nat.mul_lt_mul_of_pos_right h.len_lt (Nat.two_pow_pos F.el)
  rw [Nat.add_mul, ← Nat.pow_add, Fmt.bIeW] at hge hlt
  rw [show F.mw - F.el - 2 + F.el = F.mw - 2 by omega] at hge
  rw [show F.mw - F.el - 1 + F.el = F.mw - 1 by omega] at hlt
  exact ⟨hge, hlt⟩

/-- The form `IE = 1` holds the two mantissas, scaled by `2^EL`, and the stored exponent. -/
theorem InternalSpec.extractBoundsBits_eq {F : Fmt} (hF : FmtFacts F) {base top e : Nat} {r : EbtResult}
    (h : InternalSpec F base top r e) :
    extractBoundsBits F r.ebt = ⟨true, e, base / 2 ^ r.g * 2 ^ F.el % 2 ^ F.mw,
      (top + 2 ^ r.g - 1) / 2 ^ r.g * 2 ^ F.el % 2 ^ F.mw⟩ := by
  have hel := hF.el_lt
  obtain ⟨hge, hlt⟩ := h.mantissas_apart hF
  obtain ⟨hie, he, hb, hlow⟩ :=
    extractBoundsBits_place_true hF (internalT_lt hF h.e_le top r.g) (internalB_lt hF base r.g e)
  rw [← h.ebt_eq_place_fields hF] at hie he hb hlow
  obtain ⟨hTdiv, hTmod⟩ := mul_two_pow_add_parts (hi := (top + 2 ^ r.g - 1) / 2 ^ r.g % 2 ^ (F.mw - 2 - F.el))
    (hF.exponent_high_lt h.e_le)
  obtain ⟨hBdiv, hBmod⟩ := mul_two_pow_add_parts (hi := base / 2 ^ r.g % 2 ^ (F.mw - F.el))
    (Nat.mod_lt e (Nat.two_pow_pos F.el))
  rw [internalT, internalB, hTmod, hBmod, Nat.div_add_mod'] at he
  rw [internalB, hBdiv, ← Nat.mul_mod_mul_right, ← Nat.pow_add, Nat.sub_add_cancel (by omega)] at hb
  rw [internalT, hTdiv, ← hF.el_eq_eh, ← Nat.mul_mod_mul_right, ← Nat.pow_add, Nat.sub_add_cancel (by omega)] at hlow
  have ht := extractBoundsBits_t_of_length hF hb hlow (by simpa [hie] using hge) (by simpa [hie, hF.half_window] using hlt)
  rw [BoundsBits.mk.injEq]
  exact ⟨hie, he, hb, ht⟩

/-! ## Decoding with a cursor in the granule of the base (42_bounds_decoder.md R182 to R184) -/

@[simp] theorem regionOf_self (x : Bool) : regionOf x x = .same := by
  cases x <;> rfl

/-- The corrected window of the top: with the cursor in the eighth `q` of the base, and the top in the eighth `q'`, at most half
a window above, the correction carries the cursor's window to the top's. -/
theorem addRegion_of_half_window {aw q q' : Nat} (hle : q ≤ q') (hhalf : q' ≤ q + 4) (hfit : q' / 8 < 2 ^ aw) :
    addRegion aw (q / 8) (regionOf (inUpperWindow (q' % 8) (regionBoundary (q % 8)))
      (inUpperWindow (q % 8) (regionBoundary (q % 8)))) = q' / 8 := by
  have hr : regionBoundary (q % 8) = (q % 8 + 7) % 8 := by
    simp only [regionBoundary, subMod]
    omega
  by_cases hwrap : q' / 8 = q / 8
  · have hsame : inUpperWindow (q' % 8) (regionBoundary (q % 8)) = inUpperWindow (q % 8) (regionBoundary (q % 8)) := by
      rw [inUpperWindow, inUpperWindow, hr, decide_eq_decide]
      omega
    rw [hsame, regionOf_self, addRegion, trunc, ← hwrap, Nat.mod_eq_of_lt hfit]
  · have htop : inUpperWindow (q' % 8) (regionBoundary (q % 8)) = true := by
      rw [inUpperWindow, hr, decide_eq_true_eq]
      omega
    have hcur : inUpperWindow (q % 8) (regionBoundary (q % 8)) = false := by
      rw [inUpperWindow, hr, decide_eq_false_iff_not]
      omega
    have hnext : q / 8 + 1 = q' / 8 := by omega
    rw [htop, hcur, regionOf, addRegion, trunc, hnext, Nat.mod_eq_of_lt hfit]

/-- A bound is rebuilt from its window and its mantissa. -/
theorem rebuild_of_window {F : Fmt} {e aTop v : Nat} {corr : Region} (hwin : addRegion F.aw aTop corr = v / 2 ^ F.mw)
    (hfit : v * 2 ^ e < 2 ^ F.lw) : rebuild F e aTop corr (v % 2 ^ F.mw) = v * 2 ^ e := by
  have hlow : v % 2 ^ F.mw * 2 ^ e < 2 ^ (e + F.mw) := by
    rw [Nat.add_comm, Nat.pow_add]
    exact Nat.mul_lt_mul_of_pos_right (Nat.mod_lt _ (Nat.two_pow_pos _)) (Nat.two_pow_pos _)
  have hsum : cat (v / 2 ^ F.mw) (e + F.mw) (v % 2 ^ F.mw * 2 ^ e) = v * 2 ^ e := by
    rw [cat_eq hlow, Nat.add_comm e, Nat.pow_add, ← Nat.mul_assoc, ← Nat.add_mul, Nat.mul_comm (v / _), Nat.div_add_mod]
  rw [rebuild, hwin, Nat.shiftLeft_eq _ e, ← cat, hsum, trunc, Nat.mod_eq_of_lt hfit]

/-- The top-bit correction does nothing to bounds of the address space that are as near as their window says. -/
theorem correctTop_of_near {F : Fmt} (hF : FmtFacts F) {e lo hi : Nat} (hle : lo ≤ hi) (hlo : lo < 2 ^ F.aw)
    (hhi : hi ≤ 2 ^ F.aw) (hnear : e < F.maxE - 1 → hi < lo + 2 ^ (F.aw - 1)) : correctTop F e lo hi = hi := by
  have hmw := hF.el_lt
  have haw := hF.mw_le_aw
  have hspace : 2 ^ F.aw = 2 * 2 ^ (F.aw - 1) := by
    rw [← Nat.pow_succ']
    congr 1
    omega
  have hpos := Nat.two_pow_pos (F.aw - 1)
  refine if_neg fun ⟨he, hfar⟩ => ?_
  have hdist : hi / 2 ^ (F.aw - 1) ≤ lo / 2 ^ (F.aw - 1) + 1 := by
    rw [← Nat.add_div_right _ hpos]
    exact Nat.div_le_div_right (hnear he).le
  have hmono : lo / 2 ^ (F.aw - 1) ≤ hi / 2 ^ (F.aw - 1) := Nat.div_le_div_right hle
  have hloHalf : lo / 2 ^ (F.aw - 1) < 2 := by rw [Nat.div_lt_iff_lt_mul hpos]; omega
  have hhiHalf : hi / 2 ^ (F.aw - 1) < 3 := by rw [Nat.div_lt_iff_lt_mul hpos]; omega
  rw [slice, slice, Nat.shiftRight_eq_div_pow, Nat.shiftRight_eq_div_pow, subMod, show F.aw - 1 + 1 - (F.aw - 1) = 1 by omega,
    show F.aw + 1 - (F.aw - 1) = 2 by omega] at hfar
  generalize hi / 2 ^ (F.aw - 1) = u at *
  generalize lo / 2 ^ (F.aw - 1) = v at *
  omega

theorem FmtFacts.window_eq {F : Fmt} (hF : FmtFacts F) : 2 ^ F.mw = 2 ^ (F.mw - 3) * 8 := by
  have hmw := hF.el_lt
  rw [show 8 = 2 ^ 3 from rfl, ← Nat.pow_add, Nat.sub_add_cancel (by omega)]

/-- The top three bits of a mantissa are the eighth of the window that the number lies in. -/
theorem slice_mantissa {F : Fmt} (hF : FmtFacts F) (v : Nat) :
    slice (F.mw - 1) (F.mw - 3) (v % 2 ^ F.mw) = v / 2 ^ (F.mw - 3) % 8 := by
  have hmw := hF.el_lt
  rw [slice, Nat.shiftRight_eq_div_pow, hF.window_eq, Nat.mod_mul_right_div_self,
    show F.mw - 1 + 1 - (F.mw - 3) = 3 by omega]
  exact Nat.mod_mod _ _

theorem div_window_eq {F : Fmt} (hF : FmtFacts F) (v : Nat) : v / 2 ^ F.mw = v / 2 ^ (F.mw - 3) / 8 := by
  rw [hF.window_eq, Nat.div_div_eq_div_mul]

/-- Numbers less than half a window apart lie at most four eighths apart. -/
theorem eighth_le_add_four {F : Fmt} (hF : FmtFacts F) {lo hi : Nat} (hlen : hi < lo + 2 ^ (F.mw - 1)) :
    hi / 2 ^ (F.mw - 3) ≤ lo / 2 ^ (F.mw - 3) + 4 := by
  have hmw := hF.el_lt
  rw [← Nat.add_mul_div_left _ _ (Nat.two_pow_pos (F.mw - 3)), show 4 = 2 ^ 2 from rfl, ← Nat.pow_add,
    show F.mw - 3 + 2 = F.mw - 1 by omega]
  exact Nat.div_le_div_right hlen.le

/-- Two numbers less than half a window apart, as multiples of `2^e`, are what their mantissas and a cursor in the eighth of the
lower one decode to. -/
theorem computeBaseTop_of_mantissas {F : Fmt} (hF : FmtFacts F) {ie : Bool} {e lo hi cursor : Nat} (he : e ≤ F.maxE)
    (hle : lo ≤ hi) (hlen : hi < lo + 2 ^ (F.mw - 1)) (hlo : lo * 2 ^ e < 2 ^ F.aw) (hhi : hi * 2 ^ e ≤ 2 ^ F.aw)
    (hcursor : cursor / 2 ^ (e + F.mw - 3) = lo / 2 ^ (F.mw - 3)) :
    computeBaseTop F ⟨ie, e, lo % 2 ^ F.mw, hi % 2 ^ F.mw⟩ cursor = ⟨lo * 2 ^ e, hi * 2 ^ e⟩ := by
  have hmw := hF.el_lt
  have haw := hF.mw_le_aw
  have hmax := hF.maxE_eq
  have hlw := hF.two_pow_aw_lt
  have hmono : lo / 2 ^ (F.mw - 3) ≤ hi / 2 ^ (F.mw - 3) := Nat.div_le_div_right hle
  have hcursorEighth : trunc 3 (cursor >>> (e + F.mw - 3)) = lo / 2 ^ (F.mw - 3) % 8 := by
    rw [trunc, Nat.shiftRight_eq_div_pow, hcursor]
    rfl
  have hcursorWindow : cursor >>> (e + F.mw) = lo / 2 ^ (F.mw - 3) / 8 := by
    rw [← hcursor, Nat.shiftRight_eq_div_pow, Nat.div_div_eq_div_mul, show 8 = 2 ^ 3 from rfl, ← Nat.pow_add,
      Nat.sub_add_cancel (by omega)]
  have hfit : hi / 2 ^ (F.mw - 3) / 8 < 2 ^ F.aw := by
    have hspace : hi ≤ 2 ^ F.aw := (Nat.le_mul_of_pos_right hi (Nat.two_pow_pos e)).trans hhi
    rw [← div_window_eq hF]
    exact (Nat.div_le_div_right hspace).trans_lt (Nat.div_lt_self (Nat.two_pow_pos _) (Nat.one_lt_two_pow (by omega)))
  have hbaseWindow : addRegion F.aw (lo / 2 ^ (F.mw - 3) / 8) .same = lo / 2 ^ F.mw := by
    rw [addRegion, trunc, Nat.mod_eq_of_lt ((Nat.div_le_div_right hmono).trans_lt hfit), div_window_eq hF]
  have hbase := rebuild_of_window (e := e) hbaseWindow (hlo.trans hlw)
  have htop := rebuild_of_window (F := F) (e := e)
    ((addRegion_of_half_window hmono (eighth_le_add_four hF hlen) hfit).trans (div_window_eq hF hi).symm) (hhi.trans_lt hlw)
  have hnear : e < F.maxE - 1 → hi * 2 ^ e < lo * 2 ^ e + 2 ^ (F.aw - 1) := by
    intro hsmall
    have hscaled := Nat.mul_lt_mul_of_pos_right hlen (Nat.two_pow_pos e)
    rw [Nat.add_mul, ← Nat.pow_add] at hscaled
    exact hscaled.trans_le (Nat.add_le_add_left (Nat.pow_le_pow_right Nat.two_pos (by omega)) _)
  have hcorrect := correctTop_of_near hF (Nat.mul_le_mul_right (2 ^ e) hle) hlo hhi hnear
  simp only [computeBaseTop, Nat.min_eq_right he, slice_mantissa hF, hcursorEighth, hcursorWindow, regionOf_self, hbase, htop,
    hcorrect]
  rw [trunc, Nat.mod_eq_of_lt hlo]

/-! ## The bounds that an encoded pair represents, and exactness (41_bounds_encoder.md R152 to R155) -/

theorem le_roundUp (g x : Nat) : x ≤ roundUp g x := by
  have hlt := Nat.lt_div_mul_add (a := x + 2 ^ g - 1) (Nat.two_pow_pos g)
  rw [roundUp_eq]
  omega

theorem roundUp_eq_self_iff {g x : Nat} : roundUp g x = x ↔ x % 2 ^ g = 0 := by
  constructor
  · intro h
    rw [← h, roundUp_eq]
    exact Nat.mul_mod_left _ _
  · intro h
    obtain ⟨k, rfl⟩ := Nat.dvd_of_mod_eq_zero h
    have hpos := Nat.two_pow_pos g
    rw [roundUp_eq, Nat.add_sub_assoc hpos, Nat.mul_add_div hpos, Nat.div_eq_of_lt (by omega), Nat.add_zero, Nat.mul_comm]

theorem div_mul_eq_self_iff {x k : Nat} : x / k * k = x ↔ x % k = 0 := by
  have := Nat.div_add_mod' x k
  omega

/-- The bounds a pair is rounded to (R152): outward, to multiples of its granule. -/
def representedBounds (F : Fmt) (base top : Nat) : Bounds :=
  ⟨base / 2 ^ (ebtOf F base top).g * 2 ^ (ebtOf F base top).g, roundUp (ebtOf F base top).g top⟩

theorem representedBounds_of_short {F : Fmt} (hF : FmtFacts F) {base top : Nat} (h : top - base < 2 ^ (F.mw - 2)) :
    representedBounds F base top = ⟨base, top⟩ := by
  simp [representedBounds, ebtOf_of_short hF h, ebtExponentZero, roundUp]

theorem representedBounds_contains (F : Fmt) (base top : Nat) :
    (representedBounds F base top).base ≤ base ∧ top ≤ (representedBounds F base top).top :=
  ⟨Nat.div_mul_le_self _ _, le_roundUp _ _⟩

/-- In the form `IE = 1` the base and the rounded base lie in one granule, so in one eighth of the decoder's window. -/
theorem base_eighth_of_granule {F : Fmt} (hF : FmtFacts F) (base e : Nat) :
    base / 2 ^ (e + F.mw - 3) = base / 2 ^ (e + F.el) * 2 ^ F.el / 2 ^ (F.mw - 3) := by
  have hel := hF.el_lt
  rw [show e + F.mw - 3 = e + F.el + (F.mw - 3 - F.el) by omega, Nat.pow_add, ← Nat.div_div_eq_div_mul,
    show 2 ^ (F.mw - 3) = 2 ^ (F.mw - 3 - F.el) * 2 ^ F.el by rw [← Nat.pow_add, Nat.sub_add_cancel (by omega)],
    Nat.mul_div_mul_right _ _ (Nat.two_pow_pos _)]

/-- Decoding an encoded pair with its base gives the pair rounded outward to its granule. -/
theorem decodeBounds_ebtOf {F : Fmt} (hF : FmtFacts F) {base top : Nat} (hd : InDomain F base top) :
    decodeBounds F (ebtOf F base top).ebt base = representedBounds F base top := by
  obtain ⟨hbase, hle, htop⟩ := hd
  by_cases hlen : top - base < 2 ^ (F.mw - 2)
  · have hhalf := hF.half_window
    rw [representedBounds_of_short hF hlen, ebtOf_of_short hF hlen, decodeBounds, extractBoundsBits_ebtExponentZero hF hle hlen,
      computeBaseTop_of_mantissas hF (Nat.zero_le _) hle (by omega) (by simpa using hbase) (by simpa using htop) (by simp)]
    simp
  · have hspec := ebtOf_of_long hF hle htop (Nat.le_of_not_lt hlen)
    generalize storedExponent F base top = e at hspec
    have hg := hspec.g_eq
    have hscale (v : Nat) : v * 2 ^ F.el * 2 ^ e = v * 2 ^ (ebtOf F base top).g := by
      rw [Nat.mul_assoc, ← Nat.pow_add, Nat.add_comm, ← hg]
    obtain ⟨hge, hlt⟩ := hspec.mantissas_apart hF
    rw [decodeBounds, hspec.extractBoundsBits_eq hF,
      computeBaseTop_of_mantissas hF hspec.e_le ((Nat.le_add_right _ _).trans hge) hlt
        (by rw [hscale]; exact (Nat.div_mul_le_self _ _).trans_lt hbase)
        (by rw [hscale, ← roundUp_eq]; exact roundUp_le_two_pow (hspec.g_lt hF).le htop)
        (by rw [hg]; exact base_eighth_of_granule hF base e),
      hscale, hscale, ← roundUp_eq]
    rfl

/-- `exact` says of both forms that the granule divides both bounds: in the form `IE = 0` the granule is one byte. -/
theorem ebtOf_exact {F : Fmt} (hF : FmtFacts F) {base top : Nat} (hle : base ≤ top) (htop : top ≤ 2 ^ F.aw) :
    (ebtOf F base top).exact
      = decide (base % 2 ^ (ebtOf F base top).g = 0 ∧ top % 2 ^ (ebtOf F base top).g = 0) := by
  rcases ebtOf_cases hF hle htop with ⟨e, hspec⟩ | hzero
  · exact hspec.exact_eq
  · simp [hzero, ebtExponentZero, Nat.mod_one]

theorem ebtOf_exact_iff {F : Fmt} (hF : FmtFacts F) {base top : Nat} (hle : base ≤ top) (htop : top ≤ 2 ^ F.aw) :
    (ebtOf F base top).exact = true ↔ base % 2 ^ (ebtOf F base top).g = 0 ∧ top % 2 ^ (ebtOf F base top).g = 0 := by
  rw [ebtOf_exact hF hle htop, decide_eq_true_eq]

/-- A pair is exact when rounding to its granule changes neither bound. -/
theorem ebtOf_exact_iff_represented {F : Fmt} (hF : FmtFacts F) {base top : Nat} (hle : base ≤ top)
    (htop : top ≤ 2 ^ F.aw) : (ebtOf F base top).exact = true ↔ representedBounds F base top = ⟨base, top⟩ := by
  rw [ebtOf_exact_iff hF hle htop, representedBounds, Bounds.mk.injEq, div_mul_eq_self_iff, roundUp_eq_self_iff]

/-! ### The requests -/

theorem exec_encodeBounds {s : State} {base top : Nat} (hle : base ≤ top) (htop : top ≤ 2 ^ s.fmt.aw) :
    exec (.encodeBounds base top) s = .next (s.answered (.ebt (ebtOf s.fmt base top))) := by
  rw [exec_eq_next_iff, resultOf, computeEbt_ok hle htop]
  rfl

theorem exec_decodeBounds (s : State) (word cursor : Nat) :
    exec (.decodeBounds word cursor) s = .next (s.answered (.bounds (decodeBounds s.fmt word cursor))) := rfl

theorem sameBounds_eq (x : Bounds) (base top : Nat) : sameBounds x base top = decide (x = ⟨base, top⟩) := by
  cases x
  simp [sameBounds]

theorem representableExact_ok {F : Fmt} {c : DecodedCap} (hle : c.base ≤ c.top) (htop : c.top ≤ 2 ^ F.aw) :
    representableExact F c = .ok (decide (decodeBounds F (ebtOf F c.base c.top).ebt c.address = ⟨c.base, c.top⟩)) := by
  rw [representableExact, computeEbt_ok hle htop, except_bind_pure]
  simp [Except.map, sameBounds_eq]

/-- Settles O28: decoding with the base undoes the encoder's placing of the rounded bounds. -/
theorem representedBoundsAreGranuleMultiples : Obligations.RepresentedBoundsAreGranuleMultiples := by
  intro s base top hv hd
  have ⟨_, hle, htop⟩ := hd
  refine ⟨_, exec_encodeBounds hle htop, ?_⟩
  rw [exec_decodeBounds, decodeBounds_ebtOf (fmtFacts hv) hd, representedBounds, roundUp_eq]

/-- Settles O27: the represented bounds are rounded outward. -/
theorem roundingIsOutward : Obligations.RoundingIsOutward := by
  intro s base top hv hd
  have ⟨_, hle, htop⟩ := hd
  have hcontains := representedBounds_contains s.fmt base top
  exact ⟨_, _, exec_encodeBounds hle htop, by rw [exec_decodeBounds, decodeBounds_ebtOf (fmtFacts hv) hd], hcontains⟩

/-- Settles O29: all four say that rounding to the granule changes neither bound. -/
theorem exactFlagMeaning : Obligations.ExactFlagMeaning := by
  intro s c hv hd haddr
  have hF := fmtFacts hv
  have ⟨_, hle, htop⟩ := hd
  have hdecode : (ebtOf s.fmt c.base c.top).exact = true ↔
      decodeBounds s.fmt (ebtOf s.fmt c.base c.top).ebt c.base = ⟨c.base, c.top⟩ := by
    rw [ebtOf_exact_iff_represented hF hle htop, decodeBounds_ebtOf hF hd]
  refine ⟨_, exec_encodeBounds hle htop, ebtOf_exact_iff hF hle htop, hdecode, ?_⟩
  rw [exec_eq_next_iff, resultOf, representableExact_ok hle htop, haddr, ← Bool.decide_congr hdecode, Bool.decide_eq_true]
  rfl

/-! ## The encoded word (41_bounds_encoder.md R151, R152, R155, R161) -/

theorem exec_encodeBounds_fault {s : State} {base top : Nat} (h : base > top ∨ top > 2 ^ s.fmt.aw) :
    exec (.encodeBounds base top) s = .fault (.preconditionViolated .encodeBounds .bounds) := by
  rw [exec_eq_answer, resultOf, computeEbt_error (by omega)]
  rfl

/-- The form that is read back from the word of a pair is the one that was selected for it. -/
theorem extractBoundsBits_ebtOf_ie {F : Fmt} (hF : FmtFacts F) {base top : Nat} (hle : base ≤ top) (htop : top ≤ 2 ^ F.aw) :
    (extractBoundsBits F (ebtOf F base top).ebt).ie = usesInternalExponent F (top - base) := by
  by_cases hlen : top - base < 2 ^ (F.mw - 2)
  · rw [ebtOf_of_short hF hlen, extractBoundsBits_ebtExponentZero hF hle hlen,
      (usesInternalExponent_eq_false_iff hF).mpr hlen]
  · rw [(ebtOf_of_long hF hle htop (Nat.le_of_not_lt hlen)).extractBoundsBits_eq hF,
      (usesInternalExponent_iff hF).mpr (Nat.le_of_not_lt hlen)]

/-- Settles O24: the form read back is the one the encoder selects, which goes by the length. -/
theorem formSelection : Obligations.FormSelection := by
  rintro s base top hv ⟨-, hle, htop⟩
  have hF := fmtFacts hv
  have hie := extractBoundsBits_ebtOf_ie hF hle htop
  refine ⟨_, exec_encodeBounds hle htop, hie, ?_, fun hlen => ?_⟩
  · rw [hie, usesInternalExponent_eq_false_iff hF]
  · rw [ebtOf_of_short hF hlen]
    rfl

/-- Settles O30: the granule is that of the form read back; `exact` is divisibility by it. -/
theorem granuleExponent : Obligations.GranuleExponent := by
  rintro s base top hv ⟨-, hle, htop⟩
  have hF := fmtFacts hv
  refine ⟨_, exec_encodeBounds hle htop, ?_, ebtOf_g_lt hF hle htop, ?_⟩
  · by_cases hlen : top - base < 2 ^ (s.fmt.mw - 2)
    · rw [ebtOf_of_short hF hlen, extractBoundsBits_ebtExponentZero hF hle hlen]
      rfl
    · have hspec := ebtOf_of_long hF hle htop (Nat.le_of_not_lt hlen)
      rw [hspec.extractBoundsBits_eq hF, hspec.g_eq]
      rfl
  · rw [ebtOf_exact_iff hF hle htop, Nat.dvd_iff_mod_eq_zero, Nat.dvd_iff_mod_eq_zero]

/-- The bounds subfield lies in its `EBT_W` bits. -/
theorem place_lt_ebtW {F : Fmt} (hF : FmtFacts F) (ie : Bool) {tf bf : Nat} (ht : tf < 2 ^ (F.mw - 2)) (hb : bf < 2 ^ F.mw) :
    place F ie tf bf < 2 ^ F.ebtW := by
  have hmw := hF.el_lt
  have hlow : tf * 2 ^ F.mw + bf < 2 ^ (2 * F.mw - 2) := by
    have hlt := mul_two_pow_add_lt ht hb
    rwa [show F.mw - 2 + F.mw = 2 * F.mw - 2 by omega] at hlt
  have hlt := mul_two_pow_add_lt (n := 1) ie.toNat_lt hlow
  rwa [← Nat.add_assoc, ← place_eq hF ie ht hb, show 1 + (2 * F.mw - 2) = F.ebtW by unfold Fmt.ebtW; omega] at hlt

theorem ebtOf_ebt_lt_ebtW {F : Fmt} (hF : FmtFacts F) {base top : Nat} (hle : base ≤ top) (htop : top ≤ 2 ^ F.aw) :
    (ebtOf F base top).ebt < 2 ^ F.ebtW := by
  rcases ebtOf_cases hF hle htop with ⟨e, hspec⟩ | hzero
  · obtain ⟨tf, bf, ht, hb, hebt⟩ := hspec.ebt_eq_place hF
    exact hebt ▸ place_lt_ebtW hF true ht hb
  · rw [hzero]
    exact place_lt_ebtW hF false (trunc_lt _ _) (trunc_lt _ _)

/-- At the exponent `MAX_E` a quarter of the window is the whole space, so the rounded bounds, that far apart, are its ends. -/
theorem InternalSpec.representedBounds_of_maxE {F : Fmt} (hF : FmtFacts F) {base top : Nat} (htop : top ≤ 2 ^ F.aw)
    (h : InternalSpec F base top (ebtOf F base top) F.maxE) : representedBounds F base top = ⟨0, 2 ^ F.aw⟩ := by
  have hel := hF.el_lt
  have haw := hF.mw_le_aw
  have hmax := hF.maxE_eq
  have hg := h.g_eq
  have hroundTop := roundUp_le_two_pow (h.g_lt hF).le htop
  have hquarter : 2 ^ (F.bIeW - 2) * 2 ^ (ebtOf F base top).g = 2 ^ F.aw := by
    rw [← Nat.pow_add, hg, Fmt.bIeW]
    congr 1
    omega
  have hlen := Nat.mul_le_mul_right (2 ^ (ebtOf F base top).g) h.len_ge
  rw [Nat.add_mul, hquarter, ← roundUp_eq] at hlen
  rw [representedBounds, Bounds.mk.injEq]
  omega

/-- Settles O26: the stored exponent is the one of `InternalSpec`, in the form `IE = 0` it is 0. -/
theorem encoderIsTotalAndInRange : Obligations.EncoderIsTotalAndInRange := by
  intro s base top hv hd
  have hF := fmtFacts hv
  have ⟨_, hle, htop⟩ := hd
  refine ⟨_, exec_encodeBounds hle htop, ebtOf_ebt_lt_ebtW hF hle htop, ?_⟩
  rw [decodeBounds_ebtOf hF hd]
  by_cases hlen : top - base < 2 ^ (s.fmt.mw - 2)
  · have hmax := hF.maxE_eq
    rw [ebtOf_of_short hF hlen, extractBoundsBits_ebtExponentZero hF hle hlen]
    exact ⟨Nat.zero_le _, fun h0 : 0 = s.fmt.maxE => by omega⟩
  · have hspec := ebtOf_of_long hF hle htop (Nat.le_of_not_lt hlen)
    rw [hspec.extractBoundsBits_eq hF]
    refine ⟨hspec.e_le, fun hmax : storedExponent s.fmt base top = s.fmt.maxE => ?_⟩
    exact (hmax ▸ hspec).representedBounds_of_maxE hF htop

/-- The word of the form `IE = 0`, in arithmetic. -/
theorem ebtExponentZero_eq {F : Fmt} (hF : FmtFacts F) (base top : Nat) :
    ebtExponentZero F base top
      = { ebt := top % 2 ^ (F.mw - 2) * 2 ^ F.mw + base % 2 ^ F.mw, exact := true, g := 0 } := by
  rw [ebtExponentZero, place_eq hF false (trunc_lt _ _) (trunc_lt _ _)]
  simp [trunc]

/-- The word of the form `IE = 1`, in arithmetic. -/
theorem InternalSpec.eq {F : Fmt} (hF : FmtFacts F) {base top e g : Nat} {r : EbtResult} (h : InternalSpec F base top r e)
    (hg : g = e + F.el) :
    r = { ebt := 2 ^ (2 * F.mw - 2) + internalT F top g e * 2 ^ F.mw + internalB F base g e,
          exact := decide (base % 2 ^ g = 0 ∧ top % 2 ^ g = 0), g := g } := by
  obtain rfl : r.g = g := h.g_eq.trans hg.symm
  have hebt := h.ebt_eq_place_fields hF
  rw [place_eq hF true (internalT_lt hF h.e_le _ _) (internalB_lt hF _ _ _), Bool.toNat_true, Nat.one_mul] at hebt
  rw [← hebt, ← h.exact_eq]

/-- Settles O25: the two forms in arithmetic, the form `IE = 1` at the stored exponent of `storedExponent`. -/
theorem encodedWordBitByBit : Obligations.EncodedWordBitByBit := by
  rintro s base top E k e g hv rfl rfl he hg
  have hF := fmtFacts hv
  have hstored : storedExponent s.fmt base top = e := he.symm
  refine ⟨fun ⟨_, hle, htop⟩ hlen => ?_, fun ⟨_, hle, htop⟩ hlen => ?_, exec_encodeBounds_fault⟩
  · rw [exec_encodeBounds hle htop, ebtOf_of_short hF hlen, ebtExponentZero_eq hF]
  · have hspec := ebtOf_of_long hF hle htop hlen
    rw [hstored] at hspec
    rw [exec_encodeBounds hle htop, hspec.eq hF hg]
    rfl

/-! ## Compression of a whole record (41_bounds_encoder.md R156 to R160, 43_representability.md R216) -/

theorem compressRaw_ok {F : Fmt} {c : DecodedCap} (hle : c.base ≤ c.top) (htop : c.top ≤ 2 ^ F.aw) :
    compressRaw F c = .ok (packFields F c ||| (ebtOf F c.base c.top).ebt) := by
  rw [compressRaw, computeEbt_ok hle htop]
  rfl

theorem compressRaw_error {F : Fmt} {c : DecodedCap} (h : c.base > c.top ∨ c.top > 2 ^ F.aw) :
    compressRaw F c = .error .bounds := by
  rw [compressRaw, computeEbt_error (by omega)]
  rfl

theorem compressMem_of_raw {F : Fmt} {c : DecodedCap} {w : Nat} (h : compressRaw F c = .ok w) :
    compressMem F c = .ok (maskWord F w) := by
  rw [compressMem, h]
  rfl

theorem compressMem_error {F : Fmt} {c : DecodedCap} (h : c.base > c.top ∨ c.top > 2 ^ F.aw) :
    compressMem F c = .error .bounds := by
  rw [compressMem, compressRaw_error h]
  rfl

theorem exec_compressRaw {s : State} {c : DecodedCap} {w : Nat} (h : compressRaw s.fmt c = .ok w) :
    exec (.compressRaw c) s = .next (s.answered (.word w)) := by
  rw [exec_eq_next_iff, resultOf, h]
  rfl

theorem exec_compressMem {s : State} {c : DecodedCap} {w : Nat} (h : compressRaw s.fmt c = .ok w) :
    exec (.compressMem c) s = .next (s.answered (.word (maskWord s.fmt w))) := by
  rw [exec_eq_next_iff, resultOf, compressMem_of_raw h]
  rfl

/-- The mem form of the null capability is 0: the mask is its raw form (R13 (8)). -/
theorem exec_compressMem_nullCap {s : State} (hv : validFmt s.fmt = true) :
    exec (.compressMem (nullCap s.fmt)) s = .next (s.answered (.word 0)) := by
  rw [exec_compressMem (fmtFacts hv).nullMask, maskWord, Nat.xor_self]

/-- Settles O32: compression reads the other fields only. -/
theorem compressionIgnoresAddressAndTag : Obligations.CompressionIgnoresAddressAndTag :=
  fun _ _ _ _ => ⟨rfl, rfl⟩

/-- Settles O33: the mem word is the raw word under the mask, and the mask under itself is 0. -/
theorem compressMemMasksRawWord : Obligations.CompressMemMasksRawWord := by
  intro s c hv
  refine ⟨fun ⟨_, hle, htop⟩ => ⟨_, exec_compressRaw (compressRaw_ok hle htop), ?_⟩, fun h => ?_,
    exec_compressMem_nullCap hv⟩
  · exact exec_compressMem (compressRaw_ok hle htop)
  · rw [exec_eq_answer, resultOf, compressMem_error h]
    rfl

/-- Settles O34: constraint (8) of a valid descriptor, and the values of the two formats. -/
theorem nullCapabilityIsTheMask : Obligations.NullCapabilityIsTheMask :=
  ⟨fun _ hv => ⟨exec_compressRaw (fmtFacts hv).nullMask, exec_compressMem_nullCap hv⟩, rfl, rfl, rfl, rfl, rfl, rfl⟩

/-! ### The fields of a compressed record -/

/-- Packing leaves the bounds subfield zero. -/
theorem getf_packFields_bounds {F : Fmt} (hF : FmtFacts F) {c : DecodedCap} (hc : c.fits F = true) {g : Field}
    (hg : g ∈ [F.ie, F.t, F.b]) : getf (packFields F c) g = 0 := by
  obtain ⟨-, -, -, hperms, huperms, hotype, hflags, hreserved⟩ := DecodedCap.fits_iff.mp hc
  have hd {f : Field} (hf : f ∈ F.codecFields) : f.disjoint g = true := hF.codecField_disjoint_boundsField hf hg
  rw [packFields, getf_setf_of_disjoint hotype (hd (by simp [Fmt.codecFields])),
    getf_setf_of_disjoint hflags (hd (by simp [Fmt.codecFields])),
    getf_setf_of_disjoint hreserved (hd (by simp [Fmt.codecFields])),
    getf_setf_of_disjoint hperms (hd (by simp [Fmt.codecFields])),
    getf_setf_of_disjoint huperms (hd (by simp [Fmt.codecFields])), getf_zero]

/-- Packing puts each field of the record in its place: what is inserted later is disjoint from it. -/
theorem getf_packFields {F : Fmt} (hF : FmtFacts F) {c : DecodedCap} (hc : c.fits F = true) :
    getf (packFields F c) F.hwperms = c.perms ∧ getf (packFields F c) F.uperms = c.uperms ∧
    getf (packFields F c) F.otype = c.otype ∧ getf (packFields F c) F.flags = c.flags ∧
    getf (packFields F c) F.reserved = c.reserved := by
  obtain ⟨-, -, -, hperms, huperms, hotype, hflags, hreserved⟩ := DecodedCap.fits_iff.mp hc
  have hpair := Fmt.pairwiseDisjoint_iff.mp hF.fields_pairwiseDisjoint
  rw [Fmt.fields_eq_append, List.pairwise_append] at hpair
  obtain ⟨hcodec, -, -⟩ := hpair
  simp only [Fmt.codecFields, List.pairwise_cons, List.mem_cons, List.not_mem_nil, or_false, forall_eq_or_imp,
    forall_eq] at hcodec
  obtain ⟨⟨hup, hur, huf, huo⟩, ⟨hpr, hpf, hpo⟩, ⟨hrf, hro⟩, hfo, -⟩ := hcodec
  have hlater {f g : Field} {w v : Nat} (hv : v < 2 ^ f.width) (hd : g.disjoint f = true) :
      getf (setf w f v) g = getf w g := getf_setf_of_disjoint hv (Field.disjoint_symm hd)
  refine ⟨?_, ?_, getf_setf_same hotype, ?_, ?_⟩ <;> rw [packFields]
  · rw [hlater hotype hpo, hlater hflags hpf, hlater hreserved hpr, getf_setf_same hperms]
  · rw [hlater hotype huo, hlater hflags huf, hlater hreserved hur, hlater hperms hup, getf_setf_same huperms]
  · rw [hlater hotype hfo, getf_setf_same hflags]
  · rw [hlater hotype hro, hlater hflags hrf, getf_setf_same hreserved]

theorem compressRaw_eq_ok {F : Fmt} {c : DecodedCap} {w : Nat} (h : compressRaw F c = .ok w) :
    c.base ≤ c.top ∧ c.top ≤ 2 ^ F.aw ∧ w = packFields F c ||| (ebtOf F c.base c.top).ebt := by
  rw [compressRaw, except_bind_pure] at h
  obtain ⟨r, hr, rfl⟩ := except_map_eq_ok h
  obtain ⟨hle, htop, rfl⟩ := computeEbt_eq_ok hr
  exact ⟨hle, htop, rfl⟩

/-- Every field of a compressed record reads back as the record's. -/
theorem getf_compressRaw {F : Fmt} (hF : FmtFacts F) {c : DecodedCap} {w : Nat} (hc : c.fits F = true)
    (h : compressRaw F c = .ok w) :
    getf w F.hwperms = c.perms ∧ getf w F.uperms = c.uperms ∧ getf w F.otype = c.otype ∧ getf w F.flags = c.flags ∧
    getf w F.reserved = c.reserved := by
  obtain ⟨hle, htop, rfl⟩ := compressRaw_eq_ok h
  have hpacked {f : Field} (hf : f ∈ F.codecFields) :
      getf (packFields F c ||| (ebtOf F c.base c.top).ebt) f = getf (packFields F c) f := by
    rw [getf_or, getf_ebtOf hF hle htop hf, Nat.or_zero]
  rw [hpacked (by simp [Fmt.codecFields]), hpacked (by simp [Fmt.codecFields]), hpacked (by simp [Fmt.codecFields]),
    hpacked (by simp [Fmt.codecFields]), hpacked (by simp [Fmt.codecFields])]
  exact getf_packFields hF hc

/-- The bounds fields of a compressed record are those of its encoded bounds. -/
theorem getf_compressRaw_bounds {F : Fmt} (hF : FmtFacts F) {c : DecodedCap} {w : Nat} (hc : c.fits F = true)
    (h : compressRaw F c = .ok w) {g : Field} (hg : g ∈ [F.ie, F.t, F.b]) :
    getf w g = getf (ebtOf F c.base c.top).ebt g := by
  obtain ⟨-, -, rfl⟩ := compressRaw_eq_ok h
  rw [getf_or, getf_packFields_bounds hF hc hg, Nat.zero_or]

/-- The bits of the bounds subfield stand in the three bounds fields. -/
theorem FmtFacts.exists_boundsField_contains {F : Fmt} (hF : FmtFacts F) {k : Nat} (hk : k < F.ebtW) :
    ∃ g ∈ [F.ie, F.t, F.b], g.contains k = true := by
  have hmw := hF.el_lt
  have hebtW : F.ebtW = 1 + (F.mw - 2) + F.mw := rfl
  simp only [List.mem_cons, List.not_mem_nil, or_false, exists_eq_or_imp, exists_eq_left, Field.contains_eq_true_iff,
    hF.ie_eq, hF.t_eq, hF.b_eq]
  omega

/-- Words with the same bounds fields have the same bounds subfield. -/
theorem mod_ebtW_congr {F : Fmt} (hF : FmtFacts F) {w w' : Nat} (h : ∀ g ∈ [F.ie, F.t, F.b], getf w' g = getf w g) :
    w' % 2 ^ F.ebtW = w % 2 ^ F.ebtW := by
  refine Nat.eq_of_testBit_eq fun k => ?_
  rw [Nat.testBit_mod_two_pow, Nat.testBit_mod_two_pow]
  by_cases hk : k < F.ebtW
  · obtain ⟨g, hg, hcontains⟩ := hF.exists_boundsField_contains hk
    obtain ⟨hlo, hhi⟩ := Field.contains_eq_true_iff.mp hcontains
    have hbit := congrArg (fun v => v.testBit (k - g.lo)) (h g hg)
    simp only [testBit_getf, Nat.add_sub_cancel' hlo, show k - g.lo < g.width by omega, decide_true, Bool.true_and] at hbit
    rw [hbit]
  · simp [hk]

/-- Settles O31: the non-bounds fields are packed, the bounds fields are the encoder's, and the two have no bit in common. -/
theorem compressRawPacksRecord : Obligations.CompressRawPacksRecord := by
  intro s c hv hc
  have hF := fmtFacts hv
  refine ⟨fun ⟨_, hle, htop⟩ => ?_, fun h => ?_⟩
  · have hw := compressRaw_ok hle htop
    obtain ⟨hperms, huperms, hotype, hflags, hreserved⟩ := getf_compressRaw hF hc hw
    refine ⟨_, _, exec_compressRaw hw, compressRaw_lt hF hc hw, hperms, huperms, hotype, hflags, hreserved,
      exec_encodeBounds hle htop, ?_⟩
    rw [mod_ebtW_congr hF fun g hg => getf_compressRaw_bounds hF hc hw hg, Nat.mod_eq_of_lt (ebtOf_ebt_lt_ebtW hF hle htop)]
  · rw [exec_eq_answer, resultOf, compressRaw_error h]
    rfl

/-! ### Records that round-trip -/

/-- A record passes the exactness test when its bounds are in the domain and decode from its own address. -/
theorem representableExact_eq_ok_true_iff {F : Fmt} {c : DecodedCap} :
    representableExact F c = .ok true ↔ c.base ≤ c.top ∧ c.top ≤ 2 ^ F.aw ∧
      decodeBounds F (ebtOf F c.base c.top).ebt c.address = ⟨c.base, c.top⟩ := by
  rcases computeEbt_cases F c.base c.top with ⟨hle, htop, -⟩ | ⟨hout, he⟩
  · simp [representableExact_ok hle htop, hle, htop]
  · have herror : representableExact F c = .error .bounds := by
      rw [representableExact, he]
      rfl
    rw [herror, ← and_assoc]
    exact ⟨nofun, fun ⟨hdomain, _⟩ => absurd hdomain hout⟩

/-- Decompressing a compressed record gives it back from an address that decodes its bounds. -/
theorem decompressRaw_compressRaw {F : Fmt} (hF : FmtFacts F) {c : DecodedCap} {w : Nat} (hc : c.fits F = true)
    (h : compressRaw F c = .ok w) (hb : decodeBounds F (ebtOf F c.base c.top).ebt c.address = ⟨c.base, c.top⟩) :
    decompressRaw F w c.address c.tag = c := by
  obtain ⟨hperms, huperms, hotype, hflags, hreserved⟩ := getf_compressRaw hF hc h
  have hbounds := decodeBounds_congr (fun g hg => getf_compressRaw_bounds hF hc h hg) c.address
  rw [decompressRaw, unpackFields, hbounds, hb, hperms, huperms, hotype, hflags, hreserved]

/-- Settles O56: the raw word gives the record back; the mask applied twice does nothing, which carries this to the mem word. -/
theorem wholeRecordRoundTrips : Obligations.WholeRecordRoundTrips := by
  intro s c hv hc hexact
  obtain ⟨y, hy, htrue⟩ := except_map_eq_ok (exec_eq_next_iff.mp hexact)
  obtain rfl : y = true := by simpa using htrue
  obtain ⟨hle, htop, hb⟩ := representableExact_eq_ok_true_iff.mp hy
  have hw := compressRaw_ok hle htop
  have hround := decompressRaw_compressRaw (fmtFacts hv) hc hw hb
  refine ⟨_, _, exec_compressRaw hw, ?_, exec_compressMem hw, ?_⟩ <;> rw [exec_eq_next_iff, resultOf]
  · rw [hround]
  · rw [decompressMem, maskWord_maskWord, hround]

end Sys2Proof.Machine

namespace Sys2Proof.Machine

/-! ## Decoding what was encoded (42_bounds_decoder.md R189) -/

theorem exec_setBounds {s : State} (c : DecodedCap) {base top : Nat} (hle : base ≤ top) (htop : top ≤ 2 ^ s.fmt.aw) :
    exec (.setBounds c base top) s = .next (s.answered (.capExact
      { c with base := (decodeBounds s.fmt (ebtOf s.fmt base top).ebt base).base,
               top := (decodeBounds s.fmt (ebtOf s.fmt base top).ebt base).top } (ebtOf s.fmt base top).exact)) := by
  rw [exec_eq_next_iff, resultOf, setBounds_eq_map, computeEbt_ok hle htop]
  rfl

/-- The cursor-change test accepts a new cursor only if the encoding of the bounds decodes to them from it (R211). -/
theorem representableNewAddr_eq_ok_true {F : Fmt} {base length cursor newCursor : Nat}
    (h : representableNewAddr F base length cursor newCursor = .ok true) :
    decodeBounds F (ebtOf F base (base + length)).ebt newCursor = ⟨base, base + length⟩ := by
  rcases computeEbt_cases F base (base + length) with ⟨-, -, he⟩ | ⟨-, he⟩ <;>
    simp only [representableNewAddr, he, bind, Except.bind, pure, Except.pure] at h
  · split at h
    · simpa [sameBounds_eq] using h
    · cases h
  · cases h

/-- Settles O44: decoding with the base gives the represented bounds, which are the pair exactly when it is exact; the
cursor-change test and `SETBOUNDS` decode the same word. -/
theorem decodeInvertsEncode : Obligations.DecodeInvertsEncode := by
  intro s base top hv hd
  have hF := fmtFacts hv
  have ⟨_, hle, htop⟩ := hd
  refine ⟨_, exec_encodeBounds hle htop, ?_, fun isSealed cursor haccept => ?_, fun c => ?_⟩
  · rw [exec_eq_next_iff, resultOf, decodeBounds_ebtOf hF hd, ebtOf_exact_iff_represented hF hle htop]
    simp
  · obtain ⟨accepted, htest, haccepted⟩ := except_map_eq_ok (exec_eq_next_iff.mp haccept)
    obtain rfl : accepted = true := by simpa using haccepted
    have hdecode := representableNewAddr_eq_ok_true htest
    rw [Nat.add_sub_cancel' hle] at hdecode
    rw [exec_decodeBounds, hdecode]
  · exact ⟨_, exec_setBounds c hle htop, exec_decodeBounds _ _ _⟩

/-! ## The decoding operations complete with results of their widths (42_bounds_decoder.md R185 to R187) -/

theorem exec_extractBoundsBits (s : State) (word : Nat) :
    exec (.extractBoundsBits word) s = .next (s.answered (.boundsBits (extractBoundsBits s.fmt word))) := rfl

theorem exec_decompressRaw (s : State) (word cursor : Nat) (tag : Bool) :
    exec (.decompressRaw word cursor tag) s = .next (s.answered (.cap (decompressRaw s.fmt word cursor tag))) := rfl

/-- The mem word is unmasked and then decoded as a raw word (R188). -/
theorem exec_decompressMem (s : State) (word cursor : Nat) (tag : Bool) :
    exec (.decompressMem word cursor tag) s
      = .next (s.answered (.cap (decompressRaw s.fmt (maskWord s.fmt word) cursor tag))) := rfl

/-- Settles O42: the fields of `unpackFields`, around the bounds that `DECODE_BOUNDS` answers. -/
theorem decompressRawUnpacksWord : Obligations.DecompressRawUnpacksWord :=
  fun s w cursor _ => ⟨_, exec_decodeBounds s w cursor, rfl⟩

/-- Settles O41: the widths of the four results; the CC128 word 0x403A004 stores the exponent 52, at which the top bit is not
corrected. -/
theorem decodingIsTotal : Obligations.DecodingIsTotal := by
  refine ⟨fun s w cursor tag hv _ hc => ?_, rfl, 0x403A004, 0, by decide⟩
  have hF := fmtFacts hv
  exact ⟨_, _, _, _, exec_extractBoundsBits s w, extractBoundsBits_fits hF w, exec_decodeBounds s w cursor,
    decodeBounds_fits hF w cursor, exec_decompressRaw s w cursor tag, decompressRaw_fits hF w tag hc, rfl,
    exec_decompressMem s w cursor tag, decompressRaw_fits hF _ tag hc, rfl⟩

/-! ## The region comparison (42_bounds_decoder.md R182) -/

theorem regionOf_toInt (bound cursor : Bool) : (regionOf bound cursor).toInt = (bound.toNat : Int) - cursor.toNat := by
  cases bound <;> cases cursor <;> rfl

theorem regionBoundary_eq (b3 : Nat) : regionBoundary b3 = (b3 + 7) % 8 := by
  simp only [regionBoundary, subMod]
  omega

/-- Settles O38: the two comparisons by cases, the boundary modulo 8. -/
theorem regionComparisonIsThreeWay : Obligations.RegionComparisonIsThreeWay := by
  refine ⟨regionOf_toInt, fun b3 h => ?_, fun x r => ⟨decide_eq_true_iff, by simp [inUpperWindow]⟩⟩
  rw [regionBoundary_eq]
  split <;> omega

/-! ## The clamped exponent (42_bounds_decoder.md R181) -/

theorem computeBaseTop_of_maxE_le {F : Fmt} {x : BoundsBits} (cursor : Nat) (h : F.maxE ≤ x.e) :
    computeBaseTop F x cursor = computeBaseTop F { x with e := F.maxE } cursor := by
  simp only [computeBaseTop, Nat.min_eq_left h, Nat.min_self]

/-- Settles O37: the two CC128 words differ in the stored exponent alone, and `MAX_E` is 52. -/
theorem storedExponentIsClampedOnDecode : Obligations.StoredExponentIsClampedOnDecode := by
  refine ⟨fun _ _ cursor => computeBaseTop_of_maxE_le cursor, rfl, fun cursor => ?_⟩
  have hbits : { extractBoundsBits cc128 0x401C007 with e := cc128.maxE } = extractBoundsBits cc128 0x4018004 := rfl
  rw [decodeBounds, computeBaseTop_of_maxE_le cursor (by decide), hbits, decodeBounds]

/-! ## The intermediate of every word (42_bounds_decoder.md R180) -/

theorem getf_bounds {F : Fmt} (hF : FmtFacts F) (w : Nat) :
    getf w F.t = w / 2 ^ F.mw % 2 ^ (F.mw - 2) ∧ getf w F.b = w % 2 ^ F.mw := by
  simp [getf_eq, hF.t_eq, hF.b_eq]

theorem extractBoundsBits_ie {F : Fmt} (hF : FmtFacts F) (w : Nat) :
    (extractBoundsBits F w).ie = w.testBit (2 * F.mw - 2) := by
  simp [extractBoundsBits, getf_eq, hF.ie_eq, Nat.testBit_eq_decide_div_mod_eq]

/-- The form `IE = 0` (R84) in the bits of the word: exponent 0 and full mantissas. -/
theorem extractBoundsBits_of_ie_false {F : Fmt} (hF : FmtFacts F) {w : Nat} (hie : (extractBoundsBits F w).ie = false) :
    (extractBoundsBits F w).e = 0 ∧ (extractBoundsBits F w).b = w % 2 ^ F.mw ∧
    topLow F w = w / 2 ^ F.mw % 2 ^ (F.mw - 2) := by
  obtain ⟨ht, hb⟩ := getf_bounds hF w
  rw [topLow, hie, ← ht, ← hb]
  have hne : getf w F.ie ≠ 1 := of_decide_eq_false hie
  simp [extractBoundsBits, hne]

/-- The form `IE = 1` (R85) in the bits of the word: the exponent stands in the low bits of the two mantissas. -/
theorem extractBoundsBits_of_ie_true {F : Fmt} (hF : FmtFacts F) {w : Nat} (hie : (extractBoundsBits F w).ie = true) :
    (extractBoundsBits F w).e = w / 2 ^ F.mw % 2 ^ F.eh * 2 ^ F.el + w % 2 ^ F.el ∧
    (extractBoundsBits F w).b = w % 2 ^ F.mw / 2 ^ F.el * 2 ^ F.el ∧
    topLow F w = w / 2 ^ F.mw % 2 ^ (F.mw - 2) / 2 ^ F.eh * 2 ^ F.eh := by
  have hel := hF.el_lt
  obtain ⟨he, hb, -⟩ := extractBoundsBits_internal hF (of_decide_eq_true hie)
  obtain ⟨ht, -⟩ := getf_bounds hF w
  refine ⟨he, ?_, by rw [topLow, hie, ht]; rfl⟩
  rw [hb, mod_two_pow_div_two_pow _ (by omega)]

/-- The two parts of the full top mantissa of a word. -/
theorem extractBoundsBits_t_parts {F : Fmt} (hF : FmtFacts F) (w : Nat) :
    (extractBoundsBits F w).t % 2 ^ (F.mw - 2) = topLow F w ∧
    (extractBoundsBits F w).t / 2 ^ (F.mw - 2) = ((extractBoundsBits F w).b / 2 ^ (F.mw - 2)
      + (extractBoundsBits F w).ie.toNat + (decide (topLow F w < (extractBoundsBits F w).b % 2 ^ (F.mw - 2))).toNat) % 4 := by
  rw [extractBoundsBits_t hF]
  exact (mul_two_pow_add_parts (topLow_lt hF w)).symm

/-- Settles O36: the two forms give exponent, bottom and low top; the top two bits are `extractBoundsBits_t_parts`. -/
theorem extractBoundsBitsResult : Obligations.ExtractBoundsBitsResult := by
  intro s w hv
  have hF := fmtFacts hv
  obtain ⟨htLow, htTop⟩ := extractBoundsBits_t_parts hF w
  refine ⟨_, exec_extractBoundsBits s w, extractBoundsBits_ie hF w, ?_⟩
  rw [htTop, htLow]
  cases hie : (extractBoundsBits s.fmt w).ie with
  | false =>
    obtain ⟨he, hb, hlow⟩ := extractBoundsBits_of_ie_false hF hie
    simp [he, hb, hlow, Bool.toNat, Bool.cond_decide]
  | true =>
    obtain ⟨he, hb, hlow⟩ := extractBoundsBits_of_ie_true hF hie
    simp [he, hb, hlow, Bool.toNat, Bool.cond_decide]

/-! ## The reconstruction of the bounds, in integers (42_bounds_decoder.md R182 to R184) -/

/-- `E'` (R181): the exponent at which an intermediate is reconstructed. -/
def clampedExponent (F : Fmt) (x : BoundsBits) : Nat := min F.maxE x.e

/-- `R3` (R182) in arithmetic: the eighth of the window at which the representable region begins. -/
def regionStart (F : Fmt) (x : BoundsBits) : Nat := (x.b / 2 ^ (F.mw - 3) + 7) % 8

/-- The number of the region that a cursor lies in (R182): its window's, or the one before when it lies below the boundary. -/
def cursorRegion (F : Fmt) (x : BoundsBits) (cursor : Nat) : Int :=
  ((cursor / 2 ^ (clampedExponent F x + F.mw) : Nat) : Int)
    - if cursor / 2 ^ (clampedExponent F x + F.mw - 3) % 8 < regionStart F x then 1 else 0

/-- What R182 adds to the cursor's region for a mantissa: 1 when the mantissa lies below the boundary. -/
def mantissaRegion (F : Fmt) (x : BoundsBits) (mantissa : Nat) : Int :=
  if mantissa / 2 ^ (F.mw - 3) < regionStart F x then 1 else 0

/-- The bound that `computeBaseTop` rebuilds from a mantissa, before the top-bit correction. -/
def rebuiltBound (F : Fmt) (x : BoundsBits) (cursor mantissa : Nat) : Nat :=
  rebuild F (clampedExponent F x) (cursor >>> (clampedExponent F x + F.mw))
    (regionOf
      (inUpperWindow (slice (F.mw - 1) (F.mw - 3) mantissa) (regionBoundary (slice (F.mw - 1) (F.mw - 3) x.b)))
      (inUpperWindow (trunc 3 (cursor >>> (clampedExponent F x + F.mw - 3)))
        (regionBoundary (slice (F.mw - 1) (F.mw - 3) x.b)))) mantissa

theorem computeBaseTop_eq (F : Fmt) (x : BoundsBits) (cursor : Nat) :
    computeBaseTop F x cursor = ⟨trunc F.aw (rebuiltBound F x cursor x.b),
      correctTop F (clampedExponent F x) (rebuiltBound F x cursor x.b) (rebuiltBound F x cursor x.t)⟩ := rfl

theorem rebuiltBound_lt (F : Fmt) (x : BoundsBits) (cursor mantissa : Nat) : rebuiltBound F x cursor mantissa < 2 ^ F.lw :=
  trunc_lt _ _

/-- The corrected window is the integer sum modulo `2^AW` (R183). -/
theorem addRegion_eq (aw aTop : Nat) (corr : Region) :
    (addRegion aw aTop corr : Int) = ((aTop : Int) + corr.toInt) % 2 ^ aw := by
  cases corr with
  | behind =>
    have hone : 1 % 2 ^ aw ≤ 2 ^ aw := (Nat.mod_lt _ (Nat.two_pow_pos aw)).le
    simp only [addRegion, subMod, Region.toInt]
    push_cast [Nat.cast_sub hone]
    rw [show (aTop : Int) + (2 ^ aw - 1 % 2 ^ aw) = aTop - 1 % 2 ^ aw + 2 ^ aw by ring, Int.add_emod_right,
      Int.sub_emod, Int.emod_emod, ← Int.sub_emod, ← sub_eq_add_neg]
  | same => simp [addRegion, trunc, Region.toInt]
  | ahead => simp [addRegion, trunc, Region.toInt]

/-- A rebuilt bound as an integer (R183): window over scaled mantissa, modulo `2^LW`. -/
theorem rebuild_eq (F : Fmt) (e aTop : Nat) (corr : Region) {mantissa : Nat} (hm : mantissa < 2 ^ F.mw) :
    (rebuild F e aTop corr mantissa : Int)
      = (((aTop : Int) + corr.toInt) % 2 ^ F.aw * 2 ^ (e + F.mw) + mantissa * 2 ^ e) % 2 ^ F.lw := by
  have hlow : mantissa <<< e < 2 ^ (e + F.mw) := by
    rw [Nat.add_comm]
    exact Nat.shiftLeft_lt hm
  rw [rebuild, ← cat, cat_eq hlow, Nat.shiftLeft_eq, trunc, ← addRegion_eq]
  push_cast
  rfl

theorem slice_of_mantissa {F : Fmt} (hF : FmtFacts F) {mantissa : Nat} (hm : mantissa < 2 ^ F.mw) :
    slice (F.mw - 1) (F.mw - 3) mantissa = mantissa / 2 ^ (F.mw - 3) := by
  have hlt : mantissa / 2 ^ (F.mw - 3) < 8 := by
    rw [Nat.div_lt_iff_lt_mul (Nat.two_pow_pos _), Nat.mul_comm, ← hF.window_eq]
    exact hm
  have heighth := slice_mantissa hF mantissa
  rwa [Nat.mod_eq_of_lt hm, Nat.mod_eq_of_lt hlt] at heighth

theorem natCast_toNat_decide (p : Prop) [Decidable p] : ((decide p).toNat : Int) = if p then 1 else 0 := by
  split <;> simp [*]

/-- R183 for both bounds: the cursor's region and the mantissa's, over the scaled mantissa. -/
theorem rebuiltBound_eq {F : Fmt} (hF : FmtFacts F) {x : BoundsBits} (hb : x.b < 2 ^ F.mw) (cursor : Nat) {mantissa : Nat}
    (hm : mantissa < 2 ^ F.mw) :
    (rebuiltBound F x cursor mantissa : Int)
      = ((cursorRegion F x cursor + mantissaRegion F x mantissa) % 2 ^ F.aw * 2 ^ (clampedExponent F x + F.mw)
          + mantissa * 2 ^ clampedExponent F x) % 2 ^ F.lw := by
  rw [rebuiltBound, rebuild_eq F _ _ _ hm, regionOf_toInt, slice_of_mantissa hF hm, slice_of_mantissa hF hb,
    regionBoundary_eq, ← regionStart, inUpperWindow, inUpperWindow, natCast_toNat_decide, natCast_toNat_decide,
    ← mantissaRegion, trunc, Nat.shiftRight_eq_div_pow, Nat.shiftRight_eq_div_pow, cursorRegion, sub_add_eq_add_sub,
    add_sub_assoc]
  rfl

/-- A rebuilt bound modulo `2^LW`, where R183's truncation of the window is not seen. -/
theorem rebuiltBound_modEq {F : Fmt} (hF : FmtFacts F) {x : BoundsBits} (hb : x.b < 2 ^ F.mw) (cursor : Nat)
    {mantissa : Nat} (hm : mantissa < 2 ^ F.mw) :
    (rebuiltBound F x cursor mantissa : Int)
      ≡ (cursorRegion F x cursor + mantissaRegion F x mantissa) * 2 ^ (clampedExponent F x + F.mw)
          + mantissa * 2 ^ clampedExponent F x [ZMOD 2 ^ F.lw] := by
  have hmw := hF.el_lt
  have hlw := hF.lw_eq
  have hdvd : (2 : Int) ^ F.lw ∣ 2 ^ F.aw * 2 ^ (clampedExponent F x + F.mw) := by
    rw [← pow_add]
    exact pow_dvd_pow 2 (by omega)
  rw [rebuiltBound_eq hF hb cursor hm]
  refine (Int.mod_modEq _ _).trans (Int.ModEq.add_right _ (Int.ModEq.of_dvd hdvd ?_))
  exact (Int.mod_modEq _ _).mul_right'

/-! ### The top-bit correction -/

theorem FmtFacts.two_pow_lw {F : Fmt} (hF : FmtFacts F) : 2 ^ F.lw = 2 * 2 ^ F.aw := by
  rw [hF.lw_eq, Nat.pow_succ']

theorem FmtFacts.two_pow_aw {F : Fmt} (hF : FmtFacts F) : 2 ^ F.aw = 2 * 2 ^ (F.aw - 1) := by
  have hmw := hF.el_lt
  have haw := hF.mw_le_aw
  rw [← Nat.pow_succ']
  congr 1
  omega

theorem FmtFacts.two_pow_lw_eq_quarters {F : Fmt} (hF : FmtFacts F) : 2 ^ F.lw = 2 ^ (F.aw - 1) * 4 := by
  rw [hF.two_pow_lw, hF.two_pow_aw]
  omega

theorem FmtFacts.aw_le_lw {F : Fmt} (hF : FmtFacts F) : F.aw ≤ F.lw :=
  (Nat.le_succ _).trans hF.lw_eq.ge

/-- Inverting the top bit of a top (R184) is adding the address space. -/
theorem xor_topBit {F : Fmt} (hF : FmtFacts F) {top : Nat} (h : top < 2 ^ F.lw) :
    top ^^^ (1 <<< F.aw) = (top + 2 ^ F.aw) % 2 ^ F.lw := by
  have hlow : (top ^^^ 2 ^ F.aw) % 2 ^ F.aw = top % 2 ^ F.aw := by simp [Nat.xor_mod_two_pow]
  have hhigh : (top ^^^ 2 ^ F.aw) / 2 ^ F.aw = top / 2 ^ F.aw ^^^ 1 := by simp [Nat.xor_div_two_pow]
  rw [Nat.one_shiftLeft, ← Nat.div_add_mod (top ^^^ 2 ^ F.aw) (2 ^ F.aw), hlow, hhigh, hF.two_pow_lw]
  rw [hF.two_pow_lw] at h
  rcases Nat.lt_or_ge top (2 ^ F.aw) with hlt | hge
  · rw [Nat.div_eq_of_lt hlt, Nat.mod_eq_of_lt hlt, Nat.mod_eq_of_lt (by omega), Nat.add_comm]
    simp
  · obtain ⟨r, rfl⟩ := Nat.exists_eq_add_of_le hge
    rw [Nat.add_div_left _ (Nat.two_pow_pos _), Nat.div_eq_of_lt (by omega), Nat.add_mod_left, Nat.mod_eq_of_lt (by omega),
      Nat.add_right_comm, ← Nat.two_mul, Nat.add_mod_left, Nat.mod_eq_of_lt (by omega)]
    exact Nat.zero_add r

/-- R184 in arithmetic: the distance of the top from the base in halves of the address space, modulo 4. -/
theorem correctTop_eq {F : Fmt} (hF : FmtFacts F) {e base top : Nat} (h : top < 2 ^ F.lw) :
    correctTop F e base top
      = if e < F.maxE - 1 ∧ (top / 2 ^ (F.aw - 1) + 4 - base / 2 ^ (F.aw - 1) % 2) % 4 > 1
        then (top + 2 ^ F.aw) % 2 ^ F.lw else top := by
  have hmw := hF.el_lt
  have haw := hF.mw_le_aw
  have hbase : slice (F.aw - 1) (F.aw - 1) base = base / 2 ^ (F.aw - 1) % 2 := by
    rw [slice, Nat.shiftRight_eq_div_pow, show F.aw - 1 + 1 - (F.aw - 1) = 1 by omega]
    rfl
  have htop : slice F.aw (F.aw - 1) top = top / 2 ^ (F.aw - 1) % 4 := by
    rw [slice, Nat.shiftRight_eq_div_pow, show F.aw + 1 - (F.aw - 1) = 2 by omega]
    rfl
  have hdiff : subMod 2 (top / 2 ^ (F.aw - 1) % 4) (base / 2 ^ (F.aw - 1) % 2)
      = (top / 2 ^ (F.aw - 1) + 4 - base / 2 ^ (F.aw - 1) % 2) % 4 := by
    generalize top / 2 ^ (F.aw - 1) = u
    generalize base / 2 ^ (F.aw - 1) = v
    simp only [subMod]
    omega
  simp only [correctTop, hbase, htop, hdiff, xor_topBit hF h]

/-- The bit below the top one of a value modulo four halves. -/
theorem emod_four_mul_ediv_emod_two {N : Int} (hN : 0 < N) (v : Int) : v % (N * 4) / N % 2 = v / N % 2 := by
  rw [Int.emod_def v, Int.mul_assoc, Int.sub_mul_ediv_left _ _ hN.ne']
  omega

/-- The distance test of R184 in integers: adding 4 keeps the natural subtraction from underflow. -/
theorem distance_gt_one_iff (N base top : Nat) :
    (top / N + 4 - base / N % 2) % 4 > 1 ↔ ((top : Int) / N - (base / N % 2 : Int)) % 4 > 1 := by
  have htop : (top : Int) / N = ((top / N : Nat) : Int) := by push_cast; rfl
  have hbase : (base : Int) / N = ((base / N : Nat) : Int) := by push_cast; rfl
  rw [htop, hbase]
  generalize top / N = u
  generalize base / N = v
  omega

theorem BoundsBits.fits_iff {F : Fmt} {x : BoundsBits} :
    x.fits F = true ↔ x.e < 2 ^ F.expW ∧ x.b < 2 ^ F.mw ∧ x.t < 2 ^ F.mw := by
  simp [BoundsBits.fits, and_assoc]

/-- Settles O39: the rebuilt bounds are R183's integers modulo `2^LW`, and R184's test reads two bits that survive this. -/
theorem decodeReconstructsBounds : Obligations.DecodeReconstructsBounds := by
  rintro F x cursor e b3 t3 a3 r3 base top hv hfits - he rfl rfl rfl rfl hbase htop
  have hF := fmtFacts hv
  obtain ⟨-, hb, ht⟩ := BoundsBits.fits_iff.mp hfits
  obtain rfl : e = clampedExponent F x := he
  have hB : (rebuiltBound F x cursor x.b : Int) = base % 2 ^ F.lw := by
    rw [rebuiltBound_eq hF hb cursor hb, hbase, add_sub_right_comm]
    rfl
  have hT : (rebuiltBound F x cursor x.t : Int) = top := by
    rw [rebuiltBound_eq hF hb cursor ht, htop, add_sub_right_comm, hF.lw_eq]
    rfl
  have hhalf : (rebuiltBound F x cursor x.b : Int) / 2 ^ (F.aw - 1) % 2 = base / 2 ^ (F.aw - 1) % 2 := by
    have hquarter : (2 : Int) ^ F.lw = 2 ^ (F.aw - 1) * 4 := by
      exact_mod_cast hF.two_pow_lw_eq_quarters
    rw [hB, hquarter, emod_four_mul_ediv_emod_two (by positivity)]
  rw [computeBaseTop_eq, correctTop_eq hF (rebuiltBound_lt _ _ _ _)]
  constructor
  · push_cast [trunc]
    rw [hB, Int.emod_emod_of_dvd _ (pow_dvd_pow 2 hF.aw_le_lw)]
  · rw [← hT, ← hhalf, ← hF.lw_eq]
    simp only [distance_gt_one_iff]
    push_cast
    rfl

/-! ## One intermediate and two cursors (42_bounds_decoder.md R182 to R185) -/

/-- Rebuilt bounds of two cursors agree as far as the cursors' regions, placed above the window, do. -/
theorem rebuiltBound_modEq_iff {F : Fmt} (hF : FmtFacts F) {x : BoundsBits} (hb : x.b < 2 ^ F.mw) (cursor cursor' : Nat)
    {mantissa k : Nat} (hm : mantissa < 2 ^ F.mw) (hk : k ≤ F.lw) :
    rebuiltBound F x cursor mantissa ≡ rebuiltBound F x cursor' mantissa [MOD 2 ^ k] ↔
      cursorRegion F x cursor * 2 ^ (clampedExponent F x + F.mw)
        ≡ cursorRegion F x cursor' * 2 ^ (clampedExponent F x + F.mw) [ZMOD 2 ^ k] := by
  have hplace (c : Nat) : (rebuiltBound F x c mantissa : Int)
      ≡ cursorRegion F x c * 2 ^ (clampedExponent F x + F.mw)
        + (mantissaRegion F x mantissa * 2 ^ (clampedExponent F x + F.mw) + mantissa * 2 ^ clampedExponent F x)
        [ZMOD 2 ^ k] := by
    rw [← add_assoc, ← add_mul]
    exact (rebuiltBound_modEq hF hb c hm).of_dvd (pow_dvd_pow 2 hk)
  rw [← Int.natCast_modEq_iff]
  push_cast
  constructor
  · intro h
    exact Int.ModEq.add_right_cancel' _ (((hplace cursor).symm.trans h).trans (hplace cursor'))
  · intro h
    exact ((hplace cursor).trans (h.add_right _)).trans (hplace cursor').symm

/-- Below the window the cursor does not enter. -/
theorem rebuiltBound_modEq_of_le_window {F : Fmt} (hF : FmtFacts F) {x : BoundsBits} (hb : x.b < 2 ^ F.mw)
    (cursor cursor' : Nat) {mantissa k : Nat} (hm : mantissa < 2 ^ F.mw) (hk : k ≤ F.lw)
    (hwin : k ≤ clampedExponent F x + F.mw) :
    rebuiltBound F x cursor mantissa ≡ rebuiltBound F x cursor' mantissa [MOD 2 ^ k] := by
  have hzero (v : Int) : v * 2 ^ (clampedExponent F x + F.mw) ≡ 0 [ZMOD 2 ^ k] :=
    Int.modEq_zero_iff_dvd.mpr ((pow_dvd_pow 2 hwin).mul_left v)
  exact (rebuiltBound_modEq_iff hF hb cursor cursor' hm hk).mpr ((hzero _).trans (hzero _).symm)

/-- The top-bit correction keeps the address (R184). -/
theorem correctTop_modEq {F : Fmt} (hF : FmtFacts F) (e base : Nat) {top : Nat} (h : top < 2 ^ F.lw) :
    correctTop F e base top ≡ top [MOD 2 ^ F.aw] := by
  have hdvd : 2 ^ F.aw ∣ 2 ^ F.lw := pow_dvd_pow 2 hF.aw_le_lw
  rw [correctTop_eq hF h]
  split
  · exact ((Nat.mod_modEq _ _).of_dvd hdvd).trans Nat.add_modEq_right
  · rfl

/-- A corrected top is in the half of the address space that the base is in, or in the next. -/
theorem correctTop_near {F : Fmt} (hF : FmtFacts F) {e : Nat} (base : Nat) {top : Nat} (h : top < 2 ^ F.lw)
    (he : e < F.maxE - 1) :
    (correctTop F e base top / 2 ^ (F.aw - 1) + 4 - base / 2 ^ (F.aw - 1) % 2) % 4 ≤ 1 := by
  rw [correctTop_eq hF h]
  split
  next hfar =>
    obtain ⟨-, hfar⟩ := hfar
    have hadd : (top + 2 ^ F.aw) % 2 ^ F.lw / 2 ^ (F.aw - 1) = (top / 2 ^ (F.aw - 1) + 2) % 4 := by
      rw [hF.two_pow_lw, hF.two_pow_aw, ← Nat.mul_assoc, Nat.mul_comm (2 * 2), Nat.mul_comm 2, Nat.mod_mul_right_div_self,
        Nat.add_mul_div_left _ _ (Nat.two_pow_pos _)]
    rw [hadd]
    omega
  next hnear =>
    exact Nat.le_of_not_gt fun hfar => hnear ⟨he, hfar⟩

/-- Of the two tops with one address, only one is near the base. -/
theorem eq_of_near {N bit top top' : Nat} (hN : 0 < N) (htop : top < N * 4) (htop' : top' < N * 4)
    (haddr : top ≡ top' [MOD N * 2]) (hnear : (top / N + 4 - bit % 2) % 4 ≤ 1) (hnear' : (top' / N + 4 - bit % 2) % 4 ≤ 1) :
    top = top' := by
  have hhalf : top / N % 2 = top' / N % 2 := by
    rw [← Nat.mod_mul_right_div_self, ← Nat.mod_mul_right_div_self, haddr]
  have hlow : top % N = top' % N := haddr.of_dvd (Nat.dvd_mul_right _ _)
  have hlt : top / N < 4 := (Nat.div_lt_iff_lt_mul hN).mpr (by omega)
  have hlt' : top' / N < 4 := (Nat.div_lt_iff_lt_mul hN).mpr (by omega)
  have hquot : top / N = top' / N := by
    generalize top / N = u, top' / N = u' at *
    omega
  rw [← Nat.div_add_mod top N, ← Nat.div_add_mod top' N, hquot, hlow]

/-- Below the exponents that R184 leaves out, the corrected top depends on the two addresses only. -/
theorem correctTop_congr {F : Fmt} (hF : FmtFacts F) {e base base' top top' : Nat} (he : e < F.maxE - 1)
    (hbase : base ≡ base' [MOD 2 ^ F.aw]) (htop : top ≡ top' [MOD 2 ^ F.aw]) (hlt : top < 2 ^ F.lw) (hlt' : top' < 2 ^ F.lw) :
    correctTop F e base top = correctTop F e base' top' := by
  have hhalf : base' / 2 ^ (F.aw - 1) % 2 = base / 2 ^ (F.aw - 1) % 2 := by
    rw [← Nat.mod_mul_right_div_self, ← Nat.mod_mul_right_div_self, Nat.mul_comm, ← hF.two_pow_aw, hbase]
  have haddr := ((correctTop_modEq hF e base hlt).trans htop).trans (correctTop_modEq hF e base' hlt').symm
  rw [hF.two_pow_aw, Nat.mul_comm] at haddr
  refine eq_of_near (Nat.two_pow_pos _) ?_ ?_ haddr (correctTop_near hF base hlt he)
    (hhalf ▸ correctTop_near hF base' hlt' he)
  · rw [← hF.two_pow_lw_eq_quarters]
    exact correctTop_lt hF e base hlt
  · rw [← hF.two_pow_lw_eq_quarters]
    exact correctTop_lt hF e base' hlt'

section
variable {F : Fmt} {x : BoundsBits} (hF : FmtFacts F) (hb : x.b < 2 ^ F.mw) (ht : x.t < 2 ^ F.mw)
include hF hb ht

/-- A window that fits the address space: below it the cursor enters neither bound. -/
theorem computeBaseTop_modEq_window (cursor cursor' : Nat) (hwin : clampedExponent F x + F.mw ≤ F.aw) :
    (computeBaseTop F x cursor).base ≡ (computeBaseTop F x cursor').base [MOD 2 ^ (clampedExponent F x + F.mw)] ∧
    (computeBaseTop F x cursor).top ≡ (computeBaseTop F x cursor').top [MOD 2 ^ (clampedExponent F x + F.mw)] := by
  have hlw := hF.lw_eq
  have hdvd : 2 ^ (clampedExponent F x + F.mw) ∣ 2 ^ F.aw := pow_dvd_pow 2 hwin
  have hmod {v : Nat} (hv : v < 2 ^ F.mw) := rebuiltBound_modEq_of_le_window hF hb cursor cursor' hv (by omega) le_rfl
  have hbase (c : Nat) : trunc F.aw (rebuiltBound F x c x.b) ≡ rebuiltBound F x c x.b
      [MOD 2 ^ (clampedExponent F x + F.mw)] := (Nat.mod_modEq _ _).of_dvd hdvd
  have htop (c : Nat) := (correctTop_modEq hF (clampedExponent F x) (rebuiltBound F x c x.b)
    (rebuiltBound_lt F x c x.t)).of_dvd hdvd
  exact ⟨((hbase cursor).trans (hmod hb)).trans (hbase cursor').symm,
    ((htop cursor).trans (hmod ht)).trans (htop cursor').symm⟩

/-- A window larger than the address space: every cursor gives the same bounds. -/
theorem computeBaseTop_of_aw_lt_window (cursor cursor' : Nat) (hwin : F.aw < clampedExponent F x + F.mw) :
    computeBaseTop F x cursor = computeBaseTop F x cursor' := by
  have hlw := hF.lw_eq
  have heq {v : Nat} (hv : v < 2 ^ F.mw) : rebuiltBound F x cursor v = rebuiltBound F x cursor' v :=
    (rebuiltBound_modEq_of_le_window hF hb cursor cursor' hv le_rfl (by omega)).eq_of_lt_of_lt
      (rebuiltBound_lt _ _ _ _) (rebuiltBound_lt _ _ _ _)
  rw [computeBaseTop_eq, computeBaseTop_eq, heq hb, heq ht]

/-- A window that fits the address space: two cursors give the same bounds exactly when they lie in the same region. -/
theorem computeBaseTop_eq_iff_region (cursor cursor' : Nat) (hwin : clampedExponent F x + F.mw ≤ F.aw) :
    computeBaseTop F x cursor = computeBaseTop F x cursor' ↔
      cursorRegion F x cursor ≡ cursorRegion F x cursor' [ZMOD 2 ^ (F.aw - (clampedExponent F x + F.mw))] := by
  have hlw := hF.lw_eq
  have hmax := hF.maxE_eq
  have hmw := hF.mw_le_aw
  have hregion {v : Nat} (hv : v < 2 ^ F.mw) :
      rebuiltBound F x cursor v ≡ rebuiltBound F x cursor' v [MOD 2 ^ F.aw] ↔
        cursorRegion F x cursor ≡ cursorRegion F x cursor' [ZMOD 2 ^ (F.aw - (clampedExponent F x + F.mw))] := by
    rw [rebuiltBound_modEq_iff hF hb cursor cursor' hv (by omega)]
    conv_lhs => rw [← Nat.sub_add_cancel hwin, pow_add]
    exact ⟨Int.ModEq.mul_right_cancel' (by positivity), Int.ModEq.mul_right'⟩
  constructor
  · intro h
    exact (hregion hb).mp (congrArg Bounds.base h)
  · intro h
    have hbase := (hregion hb).mpr h
    rw [computeBaseTop_eq, computeBaseTop_eq, Bounds.mk.injEq]
    exact ⟨hbase, correctTop_congr hF (by omega) hbase ((hregion ht).mpr h) (rebuiltBound_lt _ _ _ _)
      (rebuiltBound_lt _ _ _ _)⟩

end

/-! ### The bits of the word that the decoder reads (R185) -/

theorem extractBoundsBits_mantissas_lt {F : Fmt} (hF : FmtFacts F) (w : Nat) :
    (extractBoundsBits F w).b < 2 ^ F.mw ∧ (extractBoundsBits F w).t < 2 ^ F.mw :=
  (BoundsBits.fits_iff.mp (extractBoundsBits_fits hF w)).2

theorem FmtFacts.boundsField_le_ebtW {F : Fmt} (hF : FmtFacts F) {g : Field} (hg : g ∈ [F.ie, F.t, F.b]) :
    g.lo + g.width ≤ F.ebtW := by
  have hmw := hF.el_lt
  have hebtW : F.ebtW = 1 + (F.mw - 2) + F.mw := rfl
  simp only [List.mem_cons, List.not_mem_nil, or_false] at hg
  rcases hg with rfl | rfl | rfl <;> simp only [hF.ie_eq, hF.t_eq, hF.b_eq] <;> omega

/-- A field inside the low `n` bits is read from these alone. -/
theorem getf_mod_two_pow (w : Nat) {f : Field} {n : Nat} (h : f.lo + f.width ≤ n) : getf (w % 2 ^ n) f = getf w f := by
  rw [getf_eq, getf_eq, mod_two_pow_div_two_pow _ (by omega), mod_two_pow_mod_two_pow _ (by omega)]

theorem decodeBounds_mod_ebtW {F : Fmt} (hF : FmtFacts F) (w cursor : Nat) :
    decodeBounds F (w % 2 ^ F.ebtW) cursor = decodeBounds F w cursor :=
  decodeBounds_congr (fun _ hg => getf_mod_two_pow w (hF.boundsField_le_ebtW hg)) cursor

/-- Settles O40: the decoder reads the bounds fields only, and the cursor enters above the window only. -/
theorem decodeDependsOnBoundsBitsAndCursor : Obligations.DecodeDependsOnBoundsBitsAndCursor := by
  intro s w cursor cursor' hv _ _
  have hF := fmtFacts hv
  obtain ⟨hb, ht⟩ := extractBoundsBits_mantissas_lt hF w
  refine ⟨_, _, _, exec_extractBoundsBits s w, rfl, exec_decodeBounds s w cursor, ?_, exec_decodeBounds s w cursor',
    computeBaseTop_modEq_window hF hb ht cursor cursor'⟩
  rw [exec_decodeBounds, decodeBounds_mod_ebtW hF]
  rfl

/-! ### The representable region of an encoded pair (00_scope.md R18) -/

theorem extractBoundsBits_ebtOf_e_le {F : Fmt} (hF : FmtFacts F) {base top : Nat} (hle : base ≤ top) (htop : top ≤ 2 ^ F.aw) :
    (extractBoundsBits F (ebtOf F base top).ebt).e ≤ F.maxE := by
  by_cases hlen : top - base < 2 ^ (F.mw - 2)
  · rw [ebtOf_of_short hF hlen, extractBoundsBits_ebtExponentZero hF hle hlen]
    exact Nat.zero_le _
  · have hspec := ebtOf_of_long hF hle htop (Nat.le_of_not_lt hlen)
    rw [hspec.extractBoundsBits_eq hF]
    exact hspec.e_le

/-- Counting windows from the region boundary, as the statements do, counts the cursor's region modulo the address space. -/
theorem cursorRegion_emod {F : Fmt} (hF : FmtFacts F) (x : BoundsBits) (cursor : Nat) {m : Nat}
    (hm : m = clampedExponent F x + F.mw) (hwin : m ≤ F.aw) :
    (((cursor + 2 ^ F.aw - regionStart F x * 2 ^ (m - 3)) % 2 ^ F.aw / 2 ^ m : Nat) : Int)
      = cursorRegion F x cursor % 2 ^ (F.aw - m) := by
  have hmw := hF.el_lt
  have hpos := Nat.two_pow_pos (F.aw - m)
  have hstart : regionStart F x < 8 := Nat.mod_lt _ (by decide)
  have hwindow : 2 ^ m = 2 ^ (m - 3) * 8 := by
    rw [show 8 = 2 ^ 3 from rfl, ← Nat.pow_add, Nat.sub_add_cancel (by omega)]
  have hspace : 2 ^ F.aw = 2 ^ (m - 3) * (8 * 2 ^ (F.aw - m)) := by
    rw [← Nat.mul_assoc, ← hwindow, ← Nat.pow_add, Nat.add_sub_cancel' hwin]
  have heighths : (cursor + 2 ^ F.aw - regionStart F x * 2 ^ (m - 3)) / 2 ^ m
      = (cursor / 2 ^ (m - 3) + 8 * 2 ^ (F.aw - m) - regionStart F x) / 8 := by
    rw [hwindow, ← Nat.div_div_eq_div_mul, hspace, Nat.mul_comm (regionStart F x), Nat.sub_mul_div,
      Nat.add_mul_div_left _ _ (Nat.two_pow_pos _)]
  have hregion : (((cursor + 2 ^ F.aw - regionStart F x * 2 ^ (m - 3)) / 2 ^ m : Nat) : Int)
      = cursorRegion F x cursor + (2 ^ (F.aw - m) : Nat) := by
    rw [heighths, cursorRegion, ← hm, hwindow, ← Nat.div_div_eq_div_mul]
    generalize 2 ^ (F.aw - m) = n at *
    generalize cursor / 2 ^ (m - 3) = c
    omega
  rw [mod_two_pow_div_two_pow _ hwin, Int.natCast_mod, hregion, Int.add_emod_right]
  push_cast
  rfl

/-- Settles O45: equal bounds are equal regions, which the statement counts from the region boundary. -/
theorem representableWindow : Obligations.RepresentableWindow := by
  rintro F base top cursor r m r3 hv ⟨-, hle, htop⟩ - hr rfl rfl
  have hF := fmtFacts hv
  obtain ⟨-, -, rfl⟩ := computeEbt_eq_ok hr
  obtain ⟨hb, ht⟩ := extractBoundsBits_mantissas_lt hF (ebtOf F base top).ebt
  have he : clampedExponent F (extractBoundsBits F (ebtOf F base top).ebt) = (extractBoundsBits F (ebtOf F base top).ebt).e :=
    Nat.min_eq_right (extractBoundsBits_ebtOf_e_le hF hle htop)
  rw [← he]
  refine ⟨fun hwin => ?_, computeBaseTop_of_aw_lt_window hF hb ht cursor base⟩
  rw [decodeBounds, decodeBounds, computeBaseTop_eq_iff_region hF hb ht cursor base hwin, Int.ModEq,
    ← cursorRegion_emod hF _ cursor rfl hwin, ← cursorRegion_emod hF _ base rfl hwin, Int.natCast_inj]
  rfl

/-! ### The null capability (R188) -/

theorem inDomain_whole (F : Fmt) : InDomain F 0 (2 ^ F.aw) :=
  ⟨Nat.two_pow_pos _, Nat.zero_le _, le_rfl⟩

theorem representedBounds_whole {F : Fmt} (hF : FmtFacts F) : representedBounds F 0 (2 ^ F.aw) = ⟨0, 2 ^ F.aw⟩ := by
  have hg := ebtOf_g_lt hF (Nat.zero_le (2 ^ F.aw)) le_rfl
  have htop : roundUp (ebtOf F 0 (2 ^ F.aw)).g (2 ^ F.aw) = 2 ^ F.aw :=
    roundUp_eq_self_iff.mpr (Nat.mod_eq_zero_of_dvd (pow_dvd_pow 2 hg.le))
  rw [representedBounds, htop, Nat.zero_div, Nat.zero_mul]

/-- The pair of the whole address space is encoded with a window larger than the space. -/
theorem aw_lt_window_whole {F : Fmt} (hF : FmtFacts F) :
    F.aw < clampedExponent F (extractBoundsBits F (ebtOf F 0 (2 ^ F.aw)).ebt) + F.mw := by
  have hel := hF.el_lt
  have haw := hF.mw_le_aw
  have hspec := ebtOf_of_long hF (Nat.zero_le (2 ^ F.aw)) le_rfl (Nat.pow_le_pow_right Nat.two_pos (by omega))
  generalize storedExponent F 0 (2 ^ F.aw) = e at hspec
  have hg := hspec.g_eq
  have hlen := Nat.mul_lt_mul_of_pos_right hspec.len_lt (Nat.two_pow_pos (ebtOf F 0 (2 ^ F.aw)).g)
  rw [← roundUp_eq, Nat.zero_div, Nat.zero_add, ← Nat.pow_add] at hlen
  have hpow := (Nat.pow_lt_pow_iff_right Nat.one_lt_two).mp ((le_roundUp _ _).trans_lt hlen)
  rw [hspec.extractBoundsBits_eq hF, clampedExponent, Nat.min_eq_right hspec.e_le]
  rw [Fmt.bIeW] at hpow
  omega

theorem decodeBounds_whole {F : Fmt} (hF : FmtFacts F) (cursor : Nat) :
    decodeBounds F (ebtOf F 0 (2 ^ F.aw)).ebt cursor = ⟨0, 2 ^ F.aw⟩ := by
  obtain ⟨hb, ht⟩ := extractBoundsBits_mantissas_lt hF (ebtOf F 0 (2 ^ F.aw)).ebt
  calc decodeBounds F (ebtOf F 0 (2 ^ F.aw)).ebt cursor
      = decodeBounds F (ebtOf F 0 (2 ^ F.aw)).ebt 0 :=
        computeBaseTop_of_aw_lt_window hF hb ht cursor 0 (aw_lt_window_whole hF)
    _ = representedBounds F 0 (2 ^ F.aw) := decodeBounds_ebtOf hF (inDomain_whole F)
    _ = ⟨0, 2 ^ F.aw⟩ := representedBounds_whole hF

/-- The null mask decompresses to the null capability at every cursor (R188). -/
theorem decompressRaw_nullXorMask {F : Fmt} (hF : FmtFacts F) {cursor : Nat} (hc : cursor < 2 ^ F.aw) (tag : Bool) :
    decompressRaw F F.nullXorMask cursor tag = { nullCap F with address := cursor, tag := tag } := by
  obtain ⟨-, hfields⟩ := DecodedCap.fits_iff.mp (nullCap_fits hF)
  exact decompressRaw_compressRaw (c := { nullCap F with address := cursor, tag := tag }) hF
    (DecodedCap.fits_iff.mpr ⟨hc, hfields⟩) hF.nullMask (decodeBounds_whole hF cursor)

/-- Settles O43: the mem word 0 is the null mask, the raw word of the null capability, whose bounds every cursor decodes. -/
theorem decompressMemUnmasksWord : Obligations.DecompressMemUnmasksWord := by
  intro s w cursor tag hv hc
  refine ⟨⟨_, exec_decompressRaw s _ cursor tag, exec_decompressMem s w cursor tag⟩, ?_⟩
  rw [exec_decompressMem, maskWord, Nat.zero_xor, decompressRaw_nullXorMask (fmtFacts hv) hc tag]

end Sys2Proof.Machine

namespace Sys2Proof.Machine

/-! ## The representability tests as requests (43_representability.md R210 to R212, R220) -/

/-- An instruction whose pure result is a cause faults with it. -/
theorem exec_fault {i : Instr} {s : State} {c : Cause} (h : resultOf s.fmt i = .error c) :
    exec i s = .fault (.preconditionViolated i.op c) :=
  exec_eq_fault_iff.mpr ⟨c, h, rfl⟩

theorem map_predicate_eq_ok_iff {x : Except Cause Bool} {y : Bool} :
    x.map Results.predicate = .ok (.predicate y) ↔ x = .ok y := by
  cases x <;> simp [Except.map]

theorem bounds_eq_iff {b : Bounds} {base top : Nat} : b = ⟨base, top⟩ ↔ b.base = base ∧ b.top = top := by
  cases b
  rw [Bounds.mk.injEq]

theorem exec_isRepresentableExact {s : State} {c : DecodedCap} (hle : c.base ≤ c.top) (htop : c.top ≤ 2 ^ s.fmt.aw) :
    exec (.isRepresentableExact c) s = .next (s.answered (.predicate
      (decide (decodeBounds s.fmt (ebtOf s.fmt c.base c.top).ebt c.address = ⟨c.base, c.top⟩)))) := by
  rw [exec_eq_next_iff, resultOf, representableExact_ok hle htop]
  rfl

/-- Settles O46: the test decodes the encoder's word; outside the domain the encoder has none. -/
theorem exactnessTest : Obligations.ExactnessTest := by
  refine fun s c => ⟨fun ⟨_, hle, htop⟩ => ?_, fun hout => exec_fault ?_⟩
  · refine ⟨_, _, exec_encodeBounds hle htop, exec_decodeBounds s _ c.address, ?_⟩
    rw [exec_isRepresentableExact hle htop, Bool.decide_congr bounds_eq_iff]
  · rw [resultOf, representableExact, computeEbt_error (by omega)]
    rfl

/-- Settles O48: `exec` drops the operand. -/
theorem sealedHasNoEffect : Obligations.SealedHasNoEffect :=
  fun _ _ _ _ _ => rfl

/-- Settles O35: the mask undoes itself, so that the mem word is unmasked to the raw word. -/
theorem nullMaskInvolution : Obligations.NullMaskInvolution := by
  rintro s c cursor tag ⟨-, hle, htop⟩
  have hw := compressRaw_ok hle htop
  refine ⟨maskWord_maskWord s.fmt, _, _, _, exec_compressMem hw, exec_compressRaw hw, maskWord_maskWord _ _, ?_,
    exec_decompressRaw s _ cursor tag⟩
  rw [exec_decompressMem, maskWord_maskWord]

/-! ### The cursor-change test -/

theorem representableNewAddr_of_out {F : Fmt} {base length : Nat} (hout : 2 ^ F.aw < base + length)
    (cursor newCursor : Nat) : representableNewAddr F base length cursor newCursor = .error .bounds := by
  rw [representableNewAddr, computeEbt_error (by omega)]
  rfl

theorem representableNewAddr_of_in {F : Fmt} {base length : Nat} (hin : base + length ≤ 2 ^ F.aw) (cursor newCursor : Nat) :
    representableNewAddr F base length cursor newCursor
      = if decodeBounds F (ebtOf F base (base + length)).ebt cursor = ⟨base, base + length⟩
        then .ok (decide (decodeBounds F (ebtOf F base (base + length)).ebt newCursor = ⟨base, base + length⟩))
        else .error .notRepresentable := by
  rw [representableNewAddr, computeEbt_ok (Nat.le_add_right base length) hin]
  simp only [sameBounds_eq, decide_eq_true_eq]
  rfl

/-- All that the cursor-change test can answer (R211). -/
theorem representableNewAddr_eq_ok_iff {F : Fmt} {base length cursor newCursor : Nat} {y : Bool} :
    representableNewAddr F base length cursor newCursor = .ok y ↔
      base + length ≤ 2 ^ F.aw ∧ decodeBounds F (ebtOf F base (base + length)).ebt cursor = ⟨base, base + length⟩ ∧
      y = decide (decodeBounds F (ebtOf F base (base + length)).ebt newCursor = ⟨base, base + length⟩) := by
  by_cases hin : base + length ≤ 2 ^ F.aw
  · rw [representableNewAddr_of_in hin]
    split
    next hold => simp [hin, hold, eq_comm]
    next hold => simp [hold]
  · rw [representableNewAddr_of_out (Nat.lt_of_not_le hin)]
    simp [hin]

/-- The raw word of a record decodes as the encoding of its bounds does. -/
theorem decodeBounds_compressRaw {F : Fmt} (hF : FmtFacts F) {c : DecodedCap} {w : Nat} (hc : c.fits F = true)
    (h : compressRaw F c = .ok w) (cursor : Nat) :
    decodeBounds F w cursor = decodeBounds F (ebtOf F c.base c.top).ebt cursor :=
  decodeBounds_congr (fun _ hg => getf_compressRaw_bounds hF hc h hg) cursor

/-- Settles O49: both paths decode the bounds subfield of the record's word with the two cursors. -/
theorem cursorChangeTestIsTheSlowPath : Obligations.CursorChangeTestIsTheSlowPath := by
  rintro s isSealed tag c cursor newCursor y hv hc ⟨-, hle, htop⟩ hrun
  obtain ⟨-, hold, rfl⟩ := representableNewAddr_eq_ok_iff.mp (map_predicate_eq_ok_iff.mp (exec_eq_next_iff.mp hrun))
  rw [Nat.add_sub_cancel' hle] at hold ⊢
  have hw := compressRaw_ok hle htop
  rw [← decodeBounds_compressRaw (fmtFacts hv) hc hw] at hold ⊢
  have hbase : (decompressRaw s.fmt _ cursor tag).base = c.base := congrArg Bounds.base hold
  have htopOld : (decompressRaw s.fmt _ cursor tag).top = c.top := congrArg Bounds.top hold
  refine ⟨_, _, _, exec_compressRaw hw, exec_decompressRaw s _ cursor tag, exec_decompressRaw s _ newCursor tag, hbase,
    htopOld, ?_⟩
  rw [hbase, htopOld, decide_eq_true_eq]
  exact bounds_eq_iff

/-- Settles O55: the raw word decodes as the encoding does, with the address by the test and with the base by `exact`. -/
theorem exactRecordsRoundTrip : Obligations.ExactRecordsRoundTrip := by
  intro s c hv hc hd
  have ⟨_, hle, htop⟩ := hd
  have hF := fmtFacts hv
  have hw := compressRaw_ok hle htop
  refine ⟨_, _, exec_compressRaw hw, exec_encodeBounds hle htop, fun htest => ?_, fun hexact => ?_⟩ <;>
    rw [exec_decodeBounds, decodeBounds_compressRaw hF hc hw]
  · obtain ⟨-, -, hdecode⟩ :=
      representableExact_eq_ok_true_iff.mp (map_predicate_eq_ok_iff.mp (exec_eq_next_iff.mp htest))
    rw [hdecode]
  · rw [decodeBounds_ebtOf hF hd, (ebtOf_exact_iff_represented hF hle htop).mp hexact]

/-- Settles O54: the bounds given are the represented ones, rounded outward. -/
theorem wideningNeverShrinks : Obligations.WideningNeverShrinks := by
  intro s c reqBase reqTop hv hd
  have ⟨_, hle, htop⟩ := hd
  have hcontains := representedBounds_contains s.fmt reqBase reqTop
  rw [← decodeBounds_ebtOf (fmtFacts hv) hd] at hcontains
  obtain ⟨hbase, htop'⟩ := hcontains
  exact ⟨_, _, exec_setBounds c hle htop, hbase, htop',
    fun cursor hlo hhi => ⟨hbase.trans hlo, hhi.trans_le htop'⟩⟩

/-! ## Rounding up to a multiple of the granule -/

theorem dvd_roundUp (g x : Nat) : 2 ^ g ∣ roundUp g x := by
  rw [roundUp_eq]
  exact Nat.dvd_mul_left _ _

theorem roundUp_roundUp (g x : Nat) : roundUp g (roundUp g x) = roundUp g x :=
  roundUp_eq_self_iff.mpr (Nat.mod_eq_zero_of_dvd (dvd_roundUp g x))

theorem roundUp_le_of_dvd {g x y : Nat} (h : 2 ^ g ∣ y) (hle : x ≤ y) : roundUp g x ≤ y :=
  calc roundUp g x ≤ roundUp g y := by
        rw [roundUp_eq, roundUp_eq]
        exact Nat.mul_le_mul_right _ (Nat.div_le_div_right (by omega))
    _ = y := roundUp_eq_self_iff.mpr (Nat.mod_eq_zero_of_dvd h)

/-! ## The cursors of the bounds lie in the representable region (R211) -/

/-- What the word of a pair holds, in both forms: the mantissas of two numbers that are less than half a window apart, as
multiples of `2^e`; the base lies in the eighth of the lower one and the top is not above the upper one. -/
structure HoldsMantissas (F : Fmt) (base top e lo hi : Nat) : Prop where
  e_eq : (extractBoundsBits F (ebtOf F base top).ebt).e = e
  b_eq : (extractBoundsBits F (ebtOf F base top).ebt).b = lo % 2 ^ F.mw
  e_le : e ≤ F.maxE
  g_le : (ebtOf F base top).g ≤ e + F.mw
  eighth_eq : base / 2 ^ (e + F.mw - 3) = lo / 2 ^ (F.mw - 3)
  top_le : top ≤ hi * 2 ^ e
  near : hi < lo + 2 ^ (F.mw - 1)

theorem exists_holdsMantissas {F : Fmt} (hF : FmtFacts F) {base top : Nat} (hle : base ≤ top) (htop : top ≤ 2 ^ F.aw) :
    ∃ e lo hi, HoldsMantissas F base top e lo hi := by
  have hel := hF.el_lt
  by_cases hlen : top - base < 2 ^ (F.mw - 2)
  · have hhalf := hF.half_window
    have hbits := extractBoundsBits_ebtExponentZero hF hle hlen
    rw [← ebtOf_of_short hF hlen] at hbits
    exact ⟨0, base, top, by rw [hbits], by rw [hbits], Nat.zero_le _, by rw [ebtOf_of_short hF hlen]; exact Nat.zero_le _,
      by rw [Nat.zero_add], by simp, by omega⟩
  · have hspec := ebtOf_of_long hF hle htop (Nat.le_of_not_lt hlen)
    have hg := hspec.g_eq
    have hbits := hspec.extractBoundsBits_eq hF
    obtain ⟨-, hnear⟩ := hspec.mantissas_apart hF
    refine ⟨_, _, _, by rw [hbits], by rw [hbits], hspec.e_le, by omega, ?_, ?_, hnear⟩
    · rw [hg]
      exact base_eighth_of_granule hF base _
    · rw [Nat.mul_assoc, ← Nat.pow_add, Nat.add_comm F.el, ← hg, ← roundUp_eq]
      exact le_roundUp _ _

theorem HoldsMantissas.clampedExponent_eq {F : Fmt} {base top e lo hi : Nat} (h : HoldsMantissas F base top e lo hi) :
    clampedExponent F (extractBoundsBits F (ebtOf F base top).ebt) = e := by
  rw [clampedExponent, h.e_eq, Nat.min_eq_right h.e_le]

/-- The cursor enters the reconstruction through its region only. -/
theorem computeBaseTop_congr_region {F : Fmt} (hF : FmtFacts F) {x : BoundsBits} (hb : x.b < 2 ^ F.mw) (ht : x.t < 2 ^ F.mw)
    {cursor cursor' : Nat} (h : cursorRegion F x cursor = cursorRegion F x cursor') :
    computeBaseTop F x cursor = computeBaseTop F x cursor' := by
  have hbound {v : Nat} (hv : v < 2 ^ F.mw) : rebuiltBound F x cursor v = rebuiltBound F x cursor' v := by
    rw [← Int.natCast_inj, rebuiltBound_eq hF hb cursor hv, h, ← rebuiltBound_eq hF hb cursor' hv]
  rw [computeBaseTop_eq, computeBaseTop_eq, hbound hb, hbound ht]

/-- The region begins one eighth below the base, so a cursor up to four eighths above the base is still in it. -/
theorem cursorRegion_of_near {F : Fmt} {x : BoundsBits} {base cursor m : Nat} (hm : clampedExponent F x + F.mw = m)
    (h3 : 3 ≤ m) (hstart : regionStart F x = (base / 2 ^ (m - 3) + 7) % 8)
    (hle : base / 2 ^ (m - 3) ≤ cursor / 2 ^ (m - 3)) (hnear : cursor / 2 ^ (m - 3) ≤ base / 2 ^ (m - 3) + 4) :
    cursorRegion F x cursor = cursorRegion F x base := by
  have hwindow : 2 ^ m = 2 ^ (m - 3) * 8 := by
    rw [show 8 = 2 ^ 3 from rfl, ← Nat.pow_add, Nat.sub_add_cancel h3]
  rw [cursorRegion, cursorRegion, hm, hwindow, ← Nat.div_div_eq_div_mul, ← Nat.div_div_eq_div_mul, hstart]
  generalize base / 2 ^ (m - 3) = q, cursor / 2 ^ (m - 3) = q' at *
  omega

/-- A cursor inside the bounds decodes what the base decodes. -/
theorem decodeBounds_of_cursor_in_bounds {F : Fmt} (hF : FmtFacts F) {base top cursor : Nat} (htop : top ≤ 2 ^ F.aw)
    (hlo : base ≤ cursor) (hhi : cursor < top) :
    decodeBounds F (ebtOf F base top).ebt cursor = decodeBounds F (ebtOf F base top).ebt base := by
  have hmw := hF.el_lt
  obtain ⟨e, lo, hi, h⟩ := exists_holdsMantissas hF (hlo.trans hhi.le) htop
  obtain ⟨hb, ht⟩ := extractBoundsBits_mantissas_lt hF (ebtOf F base top).ebt
  have hstart : regionStart F (extractBoundsBits F (ebtOf F base top).ebt) = (base / 2 ^ (e + F.mw - 3) + 7) % 8 := by
    rw [regionStart, h.b_eq, h.eighth_eq, hF.window_eq, Nat.mod_mul_right_div_self, Nat.mod_add_mod]
  have hnear : cursor / 2 ^ (e + F.mw - 3) ≤ base / 2 ^ (e + F.mw - 3) + 4 :=
    calc cursor / 2 ^ (e + F.mw - 3)
      _ ≤ hi * 2 ^ e / 2 ^ (F.mw - 3 + e) := by
        rw [show e + F.mw - 3 = F.mw - 3 + e by omega]
        exact Nat.div_le_div_right (hhi.le.trans h.top_le)
      _ = hi / 2 ^ (F.mw - 3) := by rw [Nat.pow_add, Nat.mul_div_mul_right _ _ (Nat.two_pow_pos e)]
      _ ≤ base / 2 ^ (e + F.mw - 3) + 4 := h.eighth_eq ▸ eighth_le_add_four hF h.near
  exact computeBaseTop_congr_region hF hb ht
    (cursorRegion_of_near (congrArg (· + F.mw) h.clampedExponent_eq) (by omega) hstart (Nat.div_le_div_right hlo) hnear)

theorem granule_dvd_representedBounds (F : Fmt) (base top : Nat) :
    2 ^ (ebtOf F base top).g ∣ (representedBounds F base top).base ∧
    2 ^ (ebtOf F base top).g ∣ (representedBounds F base top).top :=
  ⟨Nat.dvd_mul_left _ _, dvd_roundUp _ _⟩

/-- Bounds that some cursor decodes are exact: the granule divides what a word decodes to with any cursor, so the base decodes
them too. -/
theorem decodeBounds_base_of_decodes {F : Fmt} (hF : FmtFacts F) {base top cursor : Nat} (hd : InDomain F base top)
    (h : decodeBounds F (ebtOf F base top).ebt cursor = ⟨base, top⟩) :
    decodeBounds F (ebtOf F base top).ebt base = ⟨base, top⟩ := by
  have ⟨_, hle, htop⟩ := hd
  obtain ⟨e, lo, hi, hm⟩ := exists_holdsMantissas hF hle htop
  obtain ⟨hb, ht⟩ := extractBoundsBits_mantissas_lt hF (ebtOf F base top).ebt
  have he := hm.clampedExponent_eq
  rcases Nat.lt_or_ge F.aw (e + F.mw) with hwin | hwin
  · exact (computeBaseTop_of_aw_lt_window hF hb ht base cursor (he ▸ hwin)).trans h
  · obtain ⟨hbase, htop'⟩ := computeBaseTop_modEq_window hF hb ht cursor base (he ▸ hwin)
    rw [← decodeBounds, ← decodeBounds, h, decodeBounds_ebtOf hF hd, he] at hbase htop'
    have hdvd : 2 ^ (ebtOf F base top).g ∣ 2 ^ (e + F.mw) := pow_dvd_pow 2 hm.g_le
    obtain ⟨hbase0, htop0⟩ := granule_dvd_representedBounds F base top
    rw [decodeBounds_ebtOf hF hd, ← ebtOf_exact_iff_represented hF hle htop, ebtOf_exact_iff hF hle htop,
      ← Nat.dvd_iff_mod_eq_zero, ← Nat.dvd_iff_mod_eq_zero]
    exact ⟨((hbase.of_dvd hdvd).dvd_iff dvd_rfl).mpr hbase0, ((htop'.of_dvd hdvd).dvd_iff dvd_rfl).mpr htop0⟩

/-- Settles O47: a cursor that decodes the bounds shows them exact, and the base's region holds every cursor of theirs. -/
theorem cursorChangeTest : Obligations.CursorChangeTest := by
  intro s isSealed base length cursor newCursor hv hbase _ _
  have hF := fmtFacts hv
  refine ⟨fun hout => exec_fault ?_, fun hin => ⟨_, computeEbt_ok (Nat.le_add_right _ _) hin, fun hne => exec_fault ?_,
    fun hold => ⟨_, ?_, decide_eq_true_iff, ?_, ?_, ?_⟩⟩⟩
  · rw [resultOf, representableNewAddr_of_out hout]
    rfl
  · rw [resultOf, representableNewAddr_of_in hin, if_neg hne]
    rfl
  · rw [exec_eq_next_iff, resultOf, representableNewAddr_of_in hin, if_pos hold]
    rfl
  · rintro rfl
    exact decide_eq_true hold
  · intro hlo hhi
    rw [decodeBounds_of_cursor_in_bounds hF hin hlo hhi]
    exact decide_eq_true (decodeBounds_base_of_decodes hF ⟨hbase, Nat.le_add_right _ _, hin⟩ hold)
  · rintro rfl
    obtain rfl : base = 0 := by omega
    rw [Nat.zero_add]
    exact decide_eq_true (decodeBounds_whole hF newCursor)

/-! ## The granule of a length (R213 to R215, R218, R219) -/

/-- The granule `2^k` is coarse enough for a pair (R151, R152): a length below a quarter of the window needs none; else the pair,
rounded outward to the granule, must be shorter than half of the mantissas that are kept. -/
def FitsGranule (F : Fmt) (k base top : Nat) : Prop :=
  k = 0 ∧ top - base < 2 ^ (F.mw - 2) ∨
  F.el ≤ k ∧ (top + 2 ^ k - 1) / 2 ^ k < base / 2 ^ k + 2 ^ (F.bIeW - 1)

theorem fitsGranule_ebtOf {F : Fmt} (hF : FmtFacts F) {base top : Nat} (hle : base ≤ top) (htop : top ≤ 2 ^ F.aw) :
    FitsGranule F (ebtOf F base top).g base top := by
  by_cases hlen : top - base < 2 ^ (F.mw - 2)
  · exact .inl ⟨by rw [ebtOf_of_short hF hlen]; rfl, hlen⟩
  · have hspec := ebtOf_of_long hF hle htop (Nat.le_of_not_lt hlen)
    have hg := hspec.g_eq
    exact .inr ⟨by omega, hspec.len_lt⟩

/-- Rounding outward to multiples of `k` does not shorten a pair of `n` multiples or more. -/
theorem div_add_le_ceil {k n base top : Nat} (hk : 0 < k) (h : base + n * k ≤ top) :
    base / k + n ≤ (top + k - 1) / k := by
  rw [← Nat.add_mul_div_right _ _ hk]
  exact Nat.div_le_div_right (by omega)

theorem storedExponent_le (F : Fmt) (base top : Nat) : storedExponent F base top ≤ getExponent F (top - base) + 1 := by
  simp only [storedExponent]
  split <;> omega

/-- The encoder's granule is the least that fits: at a smaller one the rounded pair overflows the mantissa (R152). -/
theorem ebtOf_g_le_of_fitsGranule {F : Fmt} (hF : FmtFacts F) {base top k : Nat} (hle : base ≤ top) (htop : top ≤ 2 ^ F.aw)
    (h : FitsGranule F k base top) : (ebtOf F base top).g ≤ k := by
  by_cases hlen : top - base < 2 ^ (F.mw - 2)
  · rw [ebtOf_of_short hF hlen]
    exact Nat.zero_le k
  · rcases h with ⟨-, hshort⟩ | ⟨hk, hfits⟩
    · exact absurd hshort hlen
    · have hlen' := Nat.le_of_not_lt hlen
      have hg := (ebtOf_of_long hF hle htop hlen').g_eq
      obtain ⟨hclass, -⟩ := internal_length_bounds hF ((usesInternalExponent_iff hF).mpr hlen')
      have hge : getExponent F (top - base) + F.el ≤ k := by
        by_contra hlt
        have hel := hF.el_lt
        have hhalf : 2 ^ (F.bIeW - 1) * 2 ^ k ≤ 2 ^ (getExponent F (top - base) + (F.mw - 2)) := by
          rw [← Nat.pow_add, Fmt.bIeW]
          exact Nat.pow_le_pow_right Nat.two_pos (by omega)
        exact absurd (div_add_le_ceil (Nat.two_pow_pos k) (by omega)) (Nat.not_le.mpr hfits)
      rcases Nat.eq_or_lt_of_le hge with rfl | hgt
      · have hstored : storedExponent F base top = getExponent F (top - base) := if_neg (Nat.not_le.mpr hfits)
        omega
      · have hstored := storedExponent_le F base top
        omega

/-- From an aligned base a region fits a granule exactly when its length does. -/
theorem fitsGranule_add_iff {F : Fmt} {k base length : Nat} (h : 2 ^ k ∣ base) :
    FitsGranule F k base (base + length) ↔ FitsGranule F k 0 length := by
  obtain ⟨q, rfl⟩ := h
  have hpos := Nat.two_pow_pos k
  rw [FitsGranule, FitsGranule, Nat.add_sub_cancel_left, Nat.sub_zero, Nat.add_assoc, Nat.add_sub_assoc (by omega),
    Nat.mul_add_div hpos, Nat.mul_div_cancel_left _ hpos, Nat.zero_div, Nat.zero_add, Nat.add_lt_add_iff_left]

theorem fitsGranule_of_le {F : Fmt} {k length length' : Nat} (h : FitsGranule F k 0 length') (hle : length ≤ length') :
    FitsGranule F k 0 length := by
  rcases h with ⟨hk, hshort⟩ | ⟨hk, hfits⟩
  · exact .inl ⟨hk, by omega⟩
  · exact .inr ⟨hk, (Nat.div_le_div_right (by omega)).trans_lt hfits⟩

theorem fitsGranule_roundUp {F : Fmt} {k length : Nat} (h : FitsGranule F k 0 length) :
    FitsGranule F k 0 (roundUp k length) := by
  rcases h with ⟨rfl, hshort⟩ | ⟨hk, hfits⟩
  · exact .inl ⟨rfl, by simpa [roundUp] using hshort⟩
  · have hceil := roundUp_roundUp k length
    rw [roundUp_eq, roundUp_eq k length] at hceil
    rw [← Nat.mul_right_cancel (Nat.two_pow_pos k) hceil, ← roundUp_eq] at hfits
    exact .inr ⟨hk, hfits⟩

/-- The region of a rounded length is exact from every base that its granule divides (R219). -/
theorem ebtOf_exact_of_aligned {F : Fmt} (hF : FmtFacts F) {length base : Nat} (hlen : length ≤ 2 ^ F.aw)
    (hbase : 2 ^ (ebtOf F 0 length).g ∣ base) (hin : base + roundUp (ebtOf F 0 length).g length ≤ 2 ^ F.aw) :
    (ebtOf F base (base + roundUp (ebtOf F 0 length).g length)).exact = true := by
  have hle := Nat.le_add_right base (roundUp (ebtOf F 0 length).g length)
  have hg := ebtOf_g_le_of_fitsGranule hF hle hin
    ((fitsGranule_add_iff hbase).mpr (fitsGranule_roundUp (fitsGranule_ebtOf hF (Nat.zero_le _) hlen)))
  rw [ebtOf_exact_iff hF hle hin, ← Nat.dvd_iff_mod_eq_zero, ← Nat.dvd_iff_mod_eq_zero]
  exact ⟨(pow_dvd_pow 2 hg).trans hbase, (pow_dvd_pow 2 hg).trans (hbase.add (dvd_roundUp _ _))⟩

/-- An exact region is no shorter than any length below it, rounded: its granule fits that length too (R213). -/
theorem roundUp_le_of_exact {F : Fmt} (hF : FmtFacts F) {length length' base : Nat} (hle : length ≤ length')
    (hin : base + length' ≤ 2 ^ F.aw) (hexact : (ebtOf F base (base + length')).exact = true) :
    roundUp (ebtOf F 0 length).g length ≤ length' := by
  have hfits := fitsGranule_ebtOf hF (Nat.le_add_right base length') hin
  rw [ebtOf_exact_iff hF (Nat.le_add_right _ _) hin, ← Nat.dvd_iff_mod_eq_zero, ← Nat.dvd_iff_mod_eq_zero] at hexact
  obtain ⟨hbase, htop⟩ := hexact
  have hg := ebtOf_g_le_of_fitsGranule hF (Nat.zero_le length) (by omega)
    (fitsGranule_of_le ((fitsGranule_add_iff hbase).mp hfits) hle)
  exact roundUp_le_of_dvd ((pow_dvd_pow 2 hg).trans ((Nat.dvd_add_right hbase).mp htop)) hle

/-! ### The requests on a length -/

theorem granuleOf_ok {F : Fmt} {length : Nat} (h : length ≤ 2 ^ F.aw) : granuleOf F length = .ok (ebtOf F 0 length).g := by
  rcases granuleOf_cases F length with ⟨-, hg⟩ | ⟨hout, -⟩
  · exact hg
  · exact absurd h hout

theorem granuleOf_error {F : Fmt} {length : Nat} (h : 2 ^ F.aw < length) : granuleOf F length = .error .length := by
  rcases granuleOf_cases F length with ⟨hin, -⟩ | ⟨-, hg⟩
  · exact absurd hin (Nat.not_le.mpr h)
  · exact hg

theorem exec_getRepresentableLength {s : State} {length : Nat} (h : length ≤ 2 ^ s.fmt.aw) :
    exec (.getRepresentableLength length) s
      = .next (s.answered (.length (roundUp (ebtOf s.fmt 0 length).g length))) := by
  rw [exec_eq_next_iff, resultOf, granuleOf_ok h]
  rfl

theorem exec_getRequiredAlignment {s : State} {length : Nat} (h : length ≤ 2 ^ s.fmt.aw) :
    exec (.getRequiredAlignment length) s = .next (s.answered (.align (2 ^ (ebtOf s.fmt 0 length).g))) := by
  rw [exec_eq_next_iff, resultOf, granuleOf_ok h]
  rfl

theorem exec_getAlignmentMask {s : State} {length : Nat} (h : length ≤ 2 ^ s.fmt.aw) :
    exec (.getAlignmentMask length) s = .next (s.answered (.mask (2 ^ (ebtOf s.fmt 0 length).g - 1))) := by
  rw [exec_eq_next_iff, resultOf, granuleOf_ok h]
  rfl

/-- The rounded length stays in the address space and from base 0 its region is exact. -/
theorem roundUp_granule_exact {F : Fmt} (hF : FmtFacts F) {length : Nat} (h : length ≤ 2 ^ F.aw) :
    roundUp (ebtOf F 0 length).g length ≤ 2 ^ F.aw ∧ (ebtOf F 0 (roundUp (ebtOf F 0 length).g length)).exact = true := by
  have hin := roundUp_le_two_pow (ebtOf_g_lt hF (Nat.zero_le length) h).le h
  have hexact := ebtOf_exact_of_aligned hF h (Nat.dvd_zero _) (by rwa [Nat.zero_add])
  rw [Nat.zero_add] at hexact
  exact ⟨hin, hexact⟩

/-- Settles O50: the region of the rounded length is exact from base 0, and an exact region is no shorter. -/
theorem representableLengthIsSmallest : Obligations.RepresentableLengthIsSmallest := by
  intro s length hv
  have hF := fmtFacts hv
  refine ⟨fun hlen => ?_, fun hout => exec_fault ?_⟩
  · obtain ⟨hin, hexact⟩ := roundUp_granule_exact hF hlen
    refine ⟨_, _, exec_getRepresentableLength hlen, computeEbt_ok (Nat.zero_le _) hlen, roundUp_eq _ _, le_roundUp _ _, hin,
      ⟨0, _, Nat.two_pow_pos _, ?_, hexact⟩, fun l' base x hle _ hx hxexact => ?_⟩
    · rw [Nat.zero_add, computeEbt_ok (Nat.zero_le _) hin]
    · obtain ⟨-, hin', rfl⟩ := computeEbt_eq_ok hx
      exact roundUp_le_of_exact hF hle hin' hxexact
  · rw [resultOf, granuleOf_error hout]
    rfl

/-- Settles O51: both read the granule of the region `[0, length)`. -/
theorem alignmentAndMask : Obligations.AlignmentAndMask := by
  refine fun s length hv => ⟨fun hlen => ?_, fun hout => ⟨exec_fault ?_, exec_fault ?_⟩⟩
  · exact ⟨_, exec_encodeBounds (Nat.zero_le _) hlen, ebtOf_g_lt (fmtFacts hv) (Nat.zero_le _) hlen,
      exec_getRequiredAlignment hlen, exec_getAlignmentMask hlen⟩
  all_goals
    rw [resultOf, granuleOf_error hout]
    rfl

/-- Settles O52: the rounded length is exact, so its own granule divides it. -/
theorem lengthRoundingIsIdempotent : Obligations.LengthRoundingIsIdempotent := by
  intro s length hv hlen
  have hF := fmtFacts hv
  obtain ⟨hin, hexact⟩ := roundUp_granule_exact hF hlen
  obtain ⟨-, hdvd⟩ := (ebtOf_exact_iff hF (Nat.zero_le _) hin).mp hexact
  refine ⟨_, exec_getRepresentableLength hlen, ?_⟩
  rw [exec_getRepresentableLength hin, roundUp_eq_self_iff.mpr hdvd]

/-- Settles O53: `SETBOUNDS` reports the encoder's flag. -/
theorem alignmentIsSufficient : Obligations.AlignmentIsSufficient := by
  intro s length base c hv hlen
  refine ⟨_, _, exec_getRepresentableLength hlen, exec_getRequiredAlignment hlen, fun hbase _ hin => ?_⟩
  have hexact := ebtOf_exact_of_aligned (fmtFacts hv) hlen hbase hin
  have hset := exec_setBounds c (Nat.le_add_right _ _) hin
  rw [hexact] at hset
  exact ⟨_, _, exec_encodeBounds (Nat.le_add_right _ _) hin, hexact, hset⟩

end Sys2Proof.Machine

namespace Sys2Proof.Machine

/-! ## Encoding is stable after one rounding (44_builder.md R240) -/

/-- Rounding up to a granule does not change the quotient rounded up at it. -/
theorem roundUp_ceil_div (g x : Nat) : (roundUp g x + 2 ^ g - 1) / 2 ^ g = (x + 2 ^ g - 1) / 2 ^ g := by
  refine Nat.mul_right_cancel (Nat.two_pow_pos g) ?_
  rw [← roundUp_eq, ← roundUp_eq, roundUp_roundUp]

theorem representedBounds_inDomain {F : Fmt} (hF : FmtFacts F) {base top : Nat} (hd : InDomain F base top) :
    InDomain F (representedBounds F base top).base (representedBounds F base top).top := by
  obtain ⟨hbase, hle, htop⟩ := hd
  obtain ⟨hlo, hhi⟩ := representedBounds_contains F base top
  exact ⟨hlo.trans_lt hbase, hlo.trans (hle.trans hhi), roundUp_le_two_pow (ebtOf_g_lt hF hle htop).le htop⟩

/-- A granule that fits a pair fits every pair inside it. -/
theorem FitsGranule.of_contained {F : Fmt} {k base top base' top' : Nat} (h : FitsGranule F k base' top')
    (hbase : base' ≤ base) (htop : top ≤ top') : FitsGranule F k base top := by
  rcases h with ⟨hk, hshort⟩ | ⟨hk, hfits⟩
  · exact .inl ⟨hk, by omega⟩
  · exact .inr ⟨hk, calc (top + 2 ^ k - 1) / 2 ^ k
      _ ≤ (top' + 2 ^ k - 1) / 2 ^ k := Nat.div_le_div_right (by omega)
      _ < base' / 2 ^ k + 2 ^ (F.bIeW - 1) := hfits
      _ ≤ base / 2 ^ k + 2 ^ (F.bIeW - 1) := Nat.add_le_add_right (Nat.div_le_div_right hbase) _⟩

/-- The granule of a pair still fits the pair once it is rounded to it. -/
theorem fitsGranule_representedBounds {F : Fmt} (hF : FmtFacts F) {base top : Nat} (hle : base ≤ top) (htop : top ≤ 2 ^ F.aw) :
    FitsGranule F (ebtOf F base top).g (representedBounds F base top).base (representedBounds F base top).top := by
  rcases fitsGranule_ebtOf hF hle htop with ⟨hg, hshort⟩ | ⟨hg, hfits⟩
  · rw [representedBounds_of_short hF hshort]
    exact .inl ⟨hg, hshort⟩
  · refine .inr ⟨hg, ?_⟩
    rwa [representedBounds, roundUp_ceil_div, Nat.mul_div_cancel _ (Nat.two_pow_pos _)]

/-- Rounding a pair outward to its granule keeps the granule: it still fits, and one that fits the rounded pair fits the pair
inside it, so none is smaller. -/
theorem ebtOf_representedBounds_g {F : Fmt} (hF : FmtFacts F) {base top : Nat} (hd : InDomain F base top) :
    (ebtOf F (representedBounds F base top).base (representedBounds F base top).top).g = (ebtOf F base top).g := by
  have ⟨_, hle, htop⟩ := hd
  obtain ⟨-, hle', htop'⟩ := representedBounds_inDomain hF hd
  obtain ⟨hlo, hhi⟩ := representedBounds_contains F base top
  exact Nat.le_antisymm (ebtOf_g_le_of_fitsGranule hF hle' htop' (fitsGranule_representedBounds hF hle htop))
    (ebtOf_g_le_of_fitsGranule hF hle htop ((fitsGranule_ebtOf hF hle' htop').of_contained hlo hhi))

theorem ebtOf_representedBounds_exact {F : Fmt} (hF : FmtFacts F) {base top : Nat} (hd : InDomain F base top) :
    (ebtOf F (representedBounds F base top).base (representedBounds F base top).top).exact = true := by
  obtain ⟨-, hle', htop'⟩ := representedBounds_inDomain hF hd
  obtain ⟨hbase, htop⟩ := granule_dvd_representedBounds F base top
  rw [ebtOf_exact_iff hF hle' htop', ebtOf_representedBounds_g hF hd]
  exact ⟨Nat.mod_eq_zero_of_dvd hbase, Nat.mod_eq_zero_of_dvd htop⟩

/-- The represented bounds have the encoding of the request: the same form, and in the form `IE = 1` the same exponent and the
same two mantissas at the one granule. -/
theorem ebtOf_representedBounds_ebt {F : Fmt} (hF : FmtFacts F) {base top : Nat} (hd : InDomain F base top) :
    (ebtOf F (representedBounds F base top).base (representedBounds F base top).top).ebt = (ebtOf F base top).ebt := by
  have ⟨_, hle, htop⟩ := hd
  by_cases hlen : top - base < 2 ^ (F.mw - 2)
  · rw [representedBounds_of_short hF hlen]
  · obtain ⟨-, hle', htop'⟩ := representedBounds_inDomain hF hd
    obtain ⟨hlo, hhi⟩ := representedBounds_contains F base top
    have hspec := ebtOf_of_long hF hle htop (Nat.le_of_not_lt hlen)
    have hspec' := ebtOf_of_long hF hle' htop' (by omega)
    have hgranule := ebtOf_representedBounds_g hF hd
    have hexponent := Nat.add_right_cancel (hspec'.g_eq.symm.trans (hgranule.trans hspec.g_eq))
    rw [hspec'.ebt_eq_place_fields hF, hspec.ebt_eq_place_fields hF, hgranule, hexponent, representedBounds, internalT,
      internalB, roundUp_ceil_div, Nat.mul_div_cancel _ (Nat.two_pow_pos _)]
    rfl

/-! ## SETBOUNDS (R240) -/

/-- The bounds subfield of a record's raw word is the encoding of its bounds. -/
theorem compressRaw_mod_ebtW {F : Fmt} (hF : FmtFacts F) {c : DecodedCap} {w : Nat} (hc : c.fits F = true)
    (h : compressRaw F c = .ok w) : w % 2 ^ F.ebtW = (ebtOf F c.base c.top).ebt := by
  obtain ⟨hle, htop, -⟩ := compressRaw_eq_ok h
  rw [mod_ebtW_congr hF fun _ hg => getf_compressRaw_bounds hF hc h hg, Nat.mod_eq_of_lt (ebtOf_ebt_lt_ebtW hF hle htop)]

theorem representedBounds_fits {F : Fmt} (hF : FmtFacts F) {base top : Nat} (hd : InDomain F base top) :
    (representedBounds F base top).fits F = true :=
  decodeBounds_ebtOf hF hd ▸ decodeBounds_fits hF _ _

/-- On its domain `SETBOUNDS` gives the represented bounds and the encoder's flag. -/
theorem exec_setBounds_represented {s : State} (hF : FmtFacts s.fmt) (c : DecodedCap) {base top : Nat}
    (hd : InDomain s.fmt base top) :
    exec (.setBounds c base top) s = .next (s.answered (.capExact
      { c with base := (representedBounds s.fmt base top).base, top := (representedBounds s.fmt base top).top }
      (ebtOf s.fmt base top).exact)) := by
  have ⟨_, hle, htop⟩ := hd
  rw [exec_setBounds c hle htop, decodeBounds_ebtOf hF hd]

/-- Settles O58: rounding to the granule keeps the granule, so the represented bounds have the encoding of the request; the
widened record's raw word carries it and decodes as it does. -/
theorem widenedBoundsReencodeToTheSameWord : Obligations.WidenedBoundsReencodeToTheSameWord := by
  intro s c reqBase reqTop hv hc hd
  have hF := fmtFacts hv
  have ⟨_, hle, htop⟩ := hd
  obtain ⟨-, hle', htop'⟩ := representedBounds_inDomain hF hd
  have hc' := DecodedCap.fits_withBounds hc (representedBounds_fits hF hd)
  have hebt := ebtOf_representedBounds_ebt hF hd
  have hw := compressRaw_ok (c := { c with base := _, top := _ }) hle' htop'
  refine ⟨_, _, _, _, _, exec_setBounds_represented hF c hd, exec_encodeBounds hle htop, exec_encodeBounds hle' htop', hebt,
    ebtOf_representedBounds_exact hF hd, exec_compressRaw hw, (compressRaw_mod_ebtW hF hc' hw).trans hebt, ?_⟩
  rw [decodeBounds_compressRaw hF hc' hw]
  exact exec_isRepresentableExact (c := { c with base := _, top := _ }) hle' htop'

/-- An empty pair is exact: it is in the form `IE = 0`. -/
theorem ebtOf_exact_of_empty {F : Fmt} (hF : FmtFacts F) (base : Nat) : (ebtOf F base base).exact = true := by
  rw [ebtOf_of_short hF (by rw [Nat.sub_self]; exact Nat.two_pow_pos _)]
  rfl

theorem ebtOf_exact_of_whole {F : Fmt} (hF : FmtFacts F) : (ebtOf F 0 (2 ^ F.aw)).exact = true :=
  (ebtOf_exact_iff_represented hF (Nat.zero_le _) le_rfl).mpr (representedBounds_whole hF)

theorem setBounds_error {F : Fmt} (c : DecodedCap) {base top : Nat} (h : base > top ∨ top > 2 ^ F.aw) :
    setBounds F c base top = .error .bounds := by
  rw [setBounds_eq_map, computeEbt_error (by omega)]
  rfl

/-- Settles O57: the request's encoding decodes, with the requested base, to the represented bounds, which are the request when
it is exact. -/
theorem setBoundsResult : Obligations.SetBoundsResult := by
  intro s c reqBase reqTop hv
  have hF := fmtFacts hv
  refine ⟨fun hd => ?_, fun hout => exec_fault ?_⟩
  · have ⟨_, hle, htop⟩ := hd
    refine ⟨_, _, exec_encodeBounds hle htop, exec_decodeBounds s _ reqBase, exec_setBounds c hle htop, ?_, ?_, ?_⟩
    · rw [decodeBounds_ebtOf hF hd]
      exact ebtOf_exact_iff_represented hF hle htop
    · rintro rfl
      exact ebtOf_exact_of_empty hF reqBase
    · rintro rfl rfl
      exact ebtOf_exact_of_whole hF
  · rw [resultOf, setBounds_error c hout]
    rfl

/-! ## MAKE_MAX_PERMS_CAP (R241) -/

/-- Exact bounds set on a record are the bounds asked for. -/
theorem setBounds_of_exact {F : Fmt} (hF : FmtFacts F) (c : DecodedCap) {base top : Nat} (hd : InDomain F base top)
    (hexact : (ebtOf F base top).exact = true) :
    setBounds F c base top = .ok ({ c with base := base, top := top }, true) := by
  have ⟨_, hle, htop⟩ := hd
  rw [setBounds_eq_map, computeEbt_ok hle htop, Except.map, hexact, decodeBounds_ebtOf hF hd,
    (ebtOf_exact_iff_represented hF hle htop).mp hexact]

theorem maxPermsCap_of_exact {F : Fmt} (hF : FmtFacts F) {base top : Nat} (hd : InDomain F base top)
    (hexact : (ebtOf F base top).exact = true) (cursor : Nat) :
    maxPermsCap F base cursor top = .ok { maxPermsSeed F cursor with base := base, top := top } := by
  rw [maxPermsCap, setBounds_of_exact hF _ hd hexact]
  rfl

theorem maxPermsCap_of_inexact {F : Fmt} {base top : Nat} (hle : base ≤ top) (htop : top ≤ 2 ^ F.aw)
    (hexact : (ebtOf F base top).exact = false) (cursor : Nat) : maxPermsCap F base cursor top = .error .inexactBounds := by
  rw [maxPermsCap, setBounds_eq_map, computeEbt_ok hle htop, Except.map, hexact]
  rfl

theorem maxPermsCap_error {F : Fmt} {base top : Nat} (h : base > top ∨ top > 2 ^ F.aw) (cursor : Nat) :
    maxPermsCap F base cursor top = .error .bounds := by
  rw [maxPermsCap, setBounds_error _ h]
  rfl

/-- Settles O59: the seed of full authority with the bounds set, when they are exact. -/
theorem maxPermsCapResult : Obligations.MaxPermsCapResult := by
  intro s base cursor top hv
  refine ⟨fun hd => ?_, fun hout => exec_fault ?_⟩
  · have ⟨_, hle, htop⟩ := hd
    refine ⟨_, computeEbt_ok hle htop, fun hexact => exec_eq_next_iff.mpr ?_, fun hexact => exec_fault ?_⟩ <;> rw [resultOf]
    · rw [maxPermsCap_of_exact (fmtFacts hv) hd hexact]
      rfl
    · rw [maxPermsCap_of_inexact hle htop hexact]
      rfl
  · rw [resultOf, maxPermsCap_error hout]
    rfl

end Sys2Proof.Machine

namespace Sys2Proof.Machine

/-! ## How a request ends: its frame, its response, its cause (60_exceptions.md R260, R262, R264) -/

/-- Settles O6: the pure result is results or a cause, and `exec` does no more than answer with it. -/
theorem execChangesOnlyTheResponses : Obligations.ExecChangesOnlyTheResponses := by
  intro i s
  cases h : resultOf s.fmt i with
  | ok r => exact .inl ⟨r, exec_eq_next_iff.mpr h⟩
  | error c => exact .inr ⟨c, exec_fault h⟩

/-- Settles O9: the one response is the oldest request's own. -/
theorem blockNeverHalts : Obligations.BlockNeverHalts :=
  fun s hv hp => ⟨step_idle hv, fun r _ hs =>
    ⟨responseTo s.fmt r, step_presentable hv hs (hp r (hs ▸ List.mem_cons_self))⟩⟩

/-! ### The cause of each shared operation -/

/-- The cause a pure result ends with, if any. -/
def causeOf {α : Type} : Except Cause α → Option Cause
  | .ok _ => none
  | .error c => some c

@[simp] theorem causeOf_ok {α : Type} (a : α) : causeOf (.ok a) = none := rfl

@[simp] theorem causeOf_error {α : Type} (c : Cause) : causeOf (.error c : Except Cause α) = some c := rfl

@[simp] theorem causeOf_map {α β : Type} (x : Except Cause α) (f : α → β) : causeOf (x.map f) = causeOf x := by
  cases x <;> rfl

theorem causeOf_eq_some_iff {α : Type} {x : Except Cause α} {c : Cause} : causeOf x = some c ↔ x = .error c := by
  cases x <;> simp

theorem outOfBounds_iff {F : Fmt} {base top : Nat} : outOfBounds F base top = true ↔ ¬ (base ≤ top ∧ top ≤ 2 ^ F.aw) := by
  simp only [outOfBounds, Bool.or_eq_true, decide_eq_true_eq]
  omega

@[simp] theorem causeOf_computeEbt (F : Fmt) (base top : Nat) :
    causeOf (computeEbt F base top) = if outOfBounds F base top then some .bounds else none := by
  rcases computeEbt_cases F base top with ⟨hle, htop, he⟩ | ⟨hout, he⟩
  · rw [he, if_neg (fun h => outOfBounds_iff.mp h ⟨hle, htop⟩), causeOf_ok]
  · rw [he, if_pos (outOfBounds_iff.mpr hout), causeOf_error]

@[simp] theorem causeOf_granuleOf (F : Fmt) (length : Nat) :
    causeOf (granuleOf F length) = if 2 ^ F.aw < length then some .length else none := by
  rcases granuleOf_cases F length with ⟨hin, he⟩ | ⟨hout, he⟩
  · rw [he, if_neg (Nat.not_lt.mpr hin), causeOf_ok]
  · rw [he, if_pos (Nat.lt_of_not_le hout), causeOf_error]

@[simp] theorem causeOf_compressRaw (F : Fmt) (cap : DecodedCap) :
    causeOf (compressRaw F cap) = causeOf (computeEbt F cap.base cap.top) := by
  rw [compressRaw, except_bind_pure, causeOf_map]

@[simp] theorem causeOf_compressMem (F : Fmt) (cap : DecodedCap) :
    causeOf (compressMem F cap) = causeOf (computeEbt F cap.base cap.top) := by
  rw [compressMem, except_bind_pure, causeOf_map, causeOf_compressRaw]

@[simp] theorem causeOf_representableExact (F : Fmt) (cap : DecodedCap) :
    causeOf (representableExact F cap) = causeOf (computeEbt F cap.base cap.top) := by
  rw [representableExact, except_bind_pure, causeOf_map]

@[simp] theorem causeOf_setBounds (F : Fmt) (cap : DecodedCap) (reqBase reqTop : Nat) :
    causeOf (setBounds F cap reqBase reqTop) = causeOf (computeEbt F reqBase reqTop) := by
  rw [setBounds_eq_map, causeOf_map]

/-- First the bounds, then the old cursor (R264). -/
@[simp] theorem causeOf_representableNewAddr (F : Fmt) (base length cursor newCursor : Nat) :
    causeOf (representableNewAddr F base length cursor newCursor)
      = if 2 ^ F.aw < base + length then some .bounds
        else if decodesFrom F base (base + length) cursor then none else some .notRepresentable := by
  by_cases hout : 2 ^ F.aw < base + length
  · rw [representableNewAddr_of_out hout, if_pos hout, causeOf_error]
  · rw [representableNewAddr_of_in (Nat.le_of_not_lt hout), if_neg hout]
    simp only [decodesFrom, decide_eq_true_eq]
    split <;> rfl

/-- First the bounds, then their exactness (R264). -/
@[simp] theorem causeOf_maxPermsCap (F : Fmt) (base cursor top : Nat) :
    causeOf (maxPermsCap F base cursor top)
      = if outOfBounds F base top then some .bounds
        else if (ebtOf F base top).exact then none else some .inexactBounds := by
  rcases computeEbt_cases F base top with ⟨hle, htop, he⟩ | ⟨hout, -⟩
  · rw [if_neg (fun h => outOfBounds_iff.mp h ⟨hle, htop⟩)]
    cases hexact : (ebtOf F base top).exact with
    | false =>
      rw [maxPermsCap_of_inexact hle htop hexact]
      rfl
    | true =>
      rw [maxPermsCap, setBounds_eq_map, he, Except.map, hexact]
      rfl
  · rw [if_pos (outOfBounds_iff.mpr hout), maxPermsCap_error (by omega), causeOf_error]

/-- The cause of every instruction is the one the table of R262 gives it: that of the shared operation it runs, and none for
a total one. -/
theorem causeOf_resultOf (F : Fmt) (i : Instr) : causeOf (resultOf F i) = faultCause F i := by
  cases i <;>
    simp only [resultOf, faultCause, causeOf_ok, causeOf_map, causeOf_computeEbt, causeOf_granuleOf, causeOf_compressRaw,
      causeOf_compressMem, causeOf_representableExact, causeOf_setBounds, causeOf_representableNewAddr,
      causeOf_maxPermsCap]

/-- Settles O12: an instruction faults with the cause of its pure result, which is the table's. -/
theorem faultsAreExactlyTheTable : Obligations.FaultsAreExactlyTheTable := by
  intro i s op c
  rw [exec_eq_fault_iff, ← causeOf_resultOf, causeOf_eq_some_iff]
  constructor
  · rintro ⟨c', hc, hf⟩
    obtain ⟨rfl, rfl⟩ := Fault.preconditionViolated.inj hf
    exact ⟨rfl, hc⟩
  · rintro ⟨rfl, hc⟩
    exact ⟨c, hc, rfl⟩

end Sys2Proof.Machine

/-! ## Running a request: the oldest one, and one from the opcode table (70_reset_and_hazards.md R294) -/

namespace Sys2Proof

theorem decodeTableWord_eq_some_iff {nbits w : Nat} {i : Instr} :
    decodeTableWord nbits w = some i ↔ decode (tableRequest nbits w) = .ok i := by
  unfold decodeTableWord
  cases decode (tableRequest nbits w) <;> simp

@[simp] theorem fitsIn_zero (n : Nat) : fitsIn n 0 = true :=
  Machine.fitsIn_eq_true_iff.mpr (Nat.two_pow_pos n)

@[simp] theorem DecodedCap.zero_fits (F : Fmt) : DecodedCap.zero.fits F = true := by
  simp only [DecodedCap.fits, DecodedCap.zero, fitsIn_zero, Bool.and_self]

/-- Zero fits every port, so an operation on zero operands is well formed under every descriptor. -/
theorem Op.withOperands_zero_wf (F : Fmt) (o : Op) : (o.withOperands Operands.zero).wf F = true := by
  cases o <;> simp only [Op.withOperands, Operands.zero, Instr.wf, fitsIn_zero, DecodedCap.zero_fits, Bool.and_self]

theorem wf_of_decodeTableWord {nbits w : Nat} {i : Instr} (F : Fmt) (h : decodeTableWord nbits w = some i) :
    i.wf F = true := by
  obtain ⟨o, -, rfl⟩ := decode_eq_ok_iff.mp (decodeTableWord_eq_some_iff.mp h)
  exact o.withOperands_zero_wf F

namespace Machine

/-- A request can be presented when the instruction it decodes to is well formed. -/
theorem presentable_of_decode {F : Fmt} {r : Request} {i : Instr} (hd : decode r = .ok i) (hw : i.wf F = true) :
    r.presentable F := by
  intro j hj
  cases hd.symm.trans hj
  exact hw

/-- Settles O4: the step answers with `responseTo`, which is the pure result that `exec` answers or faults with. -/
theorem stepRunsDecodedInstruction : Obligations.StepRunsDecodedInstruction := by
  intro s r rest i hv hq hd hw
  have hstep := step_presentable hv hq (presentable_of_decode hd hw)
  refine ⟨fun t hexec => ?_, fun op c hexec => ?_⟩
  · obtain ⟨x, hx, rfl⟩ := exec_next hexec
    rw [hstep, responseTo_of_result hd hx]
    rfl
  · obtain ⟨c', hc, hf⟩ := exec_eq_fault_iff.mp hexec
    obtain ⟨rfl, rfl⟩ := Fault.preconditionViolated.inj hf
    rw [hstep, responseTo_of_cause hd hc]

/-- Settles O5: the word's request is the oldest one, its zero operands fit their ports, and the state without it is `s`. -/
theorem fetchWordRunsNext : Obligations.FetchWordRunsNext :=
  fun s nbits w i hv hword =>
    stepRunsDecodedInstruction (s.withFetchWord nbits w) (tableRequest nbits w) s.pending i hv
      (s.withFetchWord_pending nbits w) (decodeTableWord_eq_some_iff.mp hword) (wf_of_decodeTableWord s.fmt hword)

end Machine

end Sys2Proof
